-- ==== Sys2Proof/Word.lean ====
section
/-! DEFINITION. The byte, the named value sets of the spec (FSM states, sub-blocks, ports, agents, address spaces)
and the event record. Plain data only. -/

namespace Sys2Proof

/-- A byte: 8 bits, unsigned (00_scope.md section 5, R51, R70). -/
abbrev Byte := BitVec 8

/-- A finite run of bytes, first byte first (00_scope.md section 5). -/
abbrev Bytes := List Byte

/-- `pd.state` (R28). -/
inductive PdState where
  | idle
  | inLineFrame
  | inBinaryFrame
  deriving DecidableEq, Repr

/-- `bf.state` (R29). -/
inductive BfState where
  | waitHeader
  | readIds
  | readLen
  | readPayload
  | readChecksum
  deriving DecidableEq, Repr

/-- The five sub-blocks of R2, each with an `inited` flag (R42). -/
inductive SubBlock where
  | rb
  | dx
  | pd
  | bf
  | lp
  deriving DecidableEq, Repr

/-- The four byte arrays of R50, each its own address space. -/
inductive Space where
  | rb
  | hwbuf
  | payload
  | line
  deriving DecidableEq, Repr

/-- The ports of R82, one per operation. `bfByte`, `lpByte` stand for the ports of BF.STEP and LP.STEP, which R82 calls internal
(from PD.STEP): that a transaction may arrive on them from outside PD.STEP is the model's choice. DESIGN CHOICE (log 28).
`drain` stands for CONS.DRAIN, the consumer's loop, which the table gives no port. -/
inductive Port where
  | rbInit
  | rbWr
  | rbRd
  | rbEmpty
  | dxInit
  | dxEvt
  | dxReset
  | pdInit
  | pdByte
  | bfInit
  | bfByte
  | lpInit
  | lpByte
  | drain
  | sysReset
  | rxReinit
  deriving DecidableEq, Repr

/-- Who calls: the four agents of R12, and the two callers R219 refuses: `stranger`, a second producer or a second
consumer (R219 (2)), and `handler`, the application's code behind an event (R219 (7)). -/
inductive Agent where
  | producer
  | consumer
  | driver
  | environment
  | stranger
  | handler
  deriving DecidableEq, Repr

/-- An event of R200, with the arguments the rule gives it. -/
inductive Event where
  /-- R146: the application frame handler is invoked. -/
  | frameOk (dev sys msg seq len : Byte) (payload : Bytes)
  /-- R203: the diagnostic of a length-guard abort. -/
  | frameLenAbort (len : Byte)
  /-- R204: the checksum-mismatch diagnostic. -/
  | frameCsumFail (computed received : Byte)
  /-- R161: the handler of `CMD_TABLE[index]` is invoked with the argument string, which may be absent. -/
  | lineCmd (index : Nat) (name : Bytes) (arg : Option Bytes)
  /-- R205: the unknown-command report. -/
  | lineUnknown (cmd : Bytes)
  deriving DecidableEq, Repr

end Sys2Proof
end

