-- ==== Sys2Proof/Config.lean ====
section
/-! DEFINITION. The configuration record of 00_scope.md section 3, the test configuration of 95_test_vectors.md, and
the free values. -/

namespace Sys2Proof

/-- The implementation parameters of R4 to R11. The source fixes none of them, so every statement is about all
configurations that `Cfg.valid` (Machine/Operands.lean) admits. -/
structure Cfg where
  /-- `N`, RB_CAPACITY (R4). -/
  n : Nat
  /-- `H`, HW_CAPACITY (R5). -/
  h : Nat
  /-- `HDR`, HEADER_MARKER (R6). -/
  hdr : Byte
  /-- `MAXP`, MAX_PAYLOAD (R7). -/
  maxp : Nat
  /-- `L`, LINE_CAPACITY (R8). -/
  l : Nat
  /-- `W`, DROP_WIDTH (R9). -/
  w : Nat
  /-- The bytes on which the predicate `IS_WS` is true (R10). -/
  ws : Bytes
  /-- `CMD_TABLE`: the names in order; the position stands for the handler (R11). -/
  cmds : List Bytes
  deriving DecidableEq, Repr

/-- `CFG_T`, the test configuration of 95_test_vectors.md section 0 (D34). The names are `LED` and `HELP`.
DESIGN CHOICE (log 1): State.reset holds it; no statement rests on it but where it says so. -/
def Cfg.cfgT : Cfg where
  n := 8
  h := 16
  hdr := 0xA5
  maxp := 64
  l := 8
  w := 32
  ws := [0x20, 0x09]
  cmds := [[0x4C, 0x45, 0x44], [0x48, 0x45, 0x4C, 0x50]]

/-- Free bytes, one for each draw: what a slot of `HWBUF` holds after the environment's overrun (R237, U12 "any value"). No body: nothing can prove a value of it (log 7). -/
opaque Config.freeByte : Nat → Byte

end Sys2Proof
end

