-- ==== Sys2Proof/Machine/Operands.lean ====
section
/-! DEFINITION. Operand forms: the byte classes, the widths of operands, the checksum of a frame's bytes, the split of a
line, the table lookup, the index window of an extraction, and the configurations the spec admits. Pure functions. -/

namespace Sys2Proof

/-- CR, `\r` (R127, G1). -/
def byteCr : Byte := 0x0D

/-- LF, `\n` (R127, G1). -/
def byteLf : Byte := 0x0A

/-- NUL, the terminator appended to a line at execution (R37, G3). -/
def byteNul : Byte := 0x00

/-- Printable ASCII, `0x20..0x7E` (R76). -/
def isPrintable (b : Byte) : Bool := decide (0x20 ≤ b.toNat) && decide (b.toNat ≤ 0x7E)

/-- A line terminator (R75, R161). -/
def isTerm (b : Byte) : Bool := b == byteCr || b == byteLf

/-- `is_line_start(b)` (R127). -/
def isLineStart (b : Byte) : Bool := isPrintable b || isTerm b

/-- `IS_WS(b)` (R10). -/
def Cfg.isWs (c : Cfg) (b : Byte) : Bool := c.ws.contains b

/-- IDXW = ceil(log2 N), the width of `rb.wr` and `rb.rd` (R4). -/
def Cfg.idxw (c : Cfg) : Nat := if c.n ≤ 1 then 0 else Nat.log2 (c.n - 1) + 1

/-- POSW = ceil(log2 (H + 1)), the width of a reported position (R5). -/
def Cfg.posw (c : Cfg) : Nat := if c.h = 0 then 0 else Nat.log2 c.h + 1

/-- `IS_WS(0x20) = true` and `IS_WS(b) = false` on `0x21..0x7E` (R10). -/
def Cfg.wsOk (c : Cfg) : Bool :=
  c.isWs 0x20 && c.ws.all (fun b => !(decide (0x21 ≤ b.toNat) && decide (b.toNat ≤ 0x7E)))

/-- No two entries of the table have one name (R11). -/
def namesUnique : List Bytes → Bool
  | [] => true
  | a :: rest => !rest.contains a && namesUnique rest

/-- The configurations R4 to R11 admit; any other is refused (00_scope.md section 3, R219 (6)). -/
def Cfg.valid (c : Cfg) : Bool :=
  decide (2 ≤ c.n) && decide (1 ≤ c.h) && !isLineStart c.hdr && decide (1 ≤ c.maxp) && decide (c.maxp ≤ 255) &&
  decide (2 ≤ c.l) && decide (1 ≤ c.w) && c.wsOk && namesUnique c.cmds

/-- `csum8`: the sum of the bytes truncated to 8 bits (R72). -/
def csum8 : Bytes → Byte
  | [] => 0
  | b :: rest => b + csum8 rest

/-- The bytes of a frame before its checksum (R71). -/
def frameBody (c : Cfg) (dev sys msg seq : Byte) (payload : Bytes) : Bytes :=
  [c.hdr, dev, sys, msg, seq, BitVec.ofNat 8 payload.length] ++ payload

/-- The bytes of a frame on the wire, in transmission order (R71). -/
def frameBytes (c : Cfg) (dev sys msg seq : Byte) (payload : Bytes) (csum : Byte) : Bytes :=
  frameBody c dev sys msg seq payload ++ [csum]

/-- `encode_frame(dev, sys, msg, seq, pl)`, the reference encoder (R86). -/
def encodeFrame (c : Cfg) (dev sys msg seq : Byte) (payload : Bytes) : Bytes :=
  frameBytes c dev sys msg seq payload (csum8 (frameBody c dev sys msg seq payload))

/-- `encode_line(s, t)` (R86). -/
def encodeLine (text : Bytes) (term : Byte) : Bytes := text ++ [term]

/-- `Tokenize(s)` (R164): split at the first whitespace byte only; no whitespace, no argument. -/
def tokenize (isWs : Byte → Bool) : Bytes → Bytes × Option Bytes
  | [] => ([], none)
  | b :: rest =>
    if isWs b then ([], some rest) else (b :: (tokenize isWs rest).1, (tokenize isWs rest).2)

/-- `Lookup(cmd)` (R165): linear scan by exact match; the least position, or absent. -/
def lookup : List Bytes → Bytes → Option Nat
  | [], _ => none
  | name :: rest, cmd => if name = cmd then some 0 else (lookup rest cmd).map (· + 1)

/-- The event of an executed line (R161): the handler's invocation or the unknown-command report. -/
def lineEvent (c : Cfg) (s : Bytes) : Event :=
  match lookup c.cmds (tokenize c.isWs s).1 with
  | some k => .lineCmd k (tokenize c.isWs s).1 (tokenize c.isWs s).2
  | none => .lineUnknown (tokenize c.isWs s).1

/-- `(x + 1) mod m`, the only arithmetic on a ring index (R97). -/
def nextIndex (m x : Nat) : Nat := (x + 1) % m

/-- The indices of `HWBUF` that `DX.EXTRACT(p)` pushes from `dx.last = q`, in order (R101). -/
def window (h q p : Nat) : List Nat :=
  if p = q then []
  else if q < p then List.range' q (p - q)
  else List.range' q (h - q) ++ List.range p

/-- `dx.last` after an extraction that is not a no-op (R101): `H` is normalised to 0. -/
def normalise (h p : Nat) : Nat := if p = h then 0 else p

end Sys2Proof
end

