-- ==== Sys2Proof/Machine/Flags.lean ====
section
/-! DEFINITION. The flag-like values of R39 and the two arithmetic rules of the block's counters: the boolean results, the
running checksum (R147) and the saturating drop counter (R108). Pure functions. -/

namespace Sys2Proof

/-- Empty iff the indices are equal (R24, R93). -/
def ringEmpty (wr rd : Nat) : Bool := wr == rd

/-- Full iff advancing the write index by one would equal the read index (R24, R91). -/
def ringFull (n wr rd : Nat) : Bool := nextIndex n wr == rd

/-- `occ = (rb.wr - rb.rd) mod N` (R24), on naturals in range. -/
def occupancy (n wr rd : Nat) : Nat := (wr + n - rd) % n

/-- `(bf.csum + b) mod 256` (R147). -/
def csumAdd (csum b : Byte) : Byte := csum + b

/-- The received checksum equals the accumulator (R146, R147). -/
def csumOk (csum b : Byte) : Bool := b == csum

/-- The length guard: `b >= MAXP`, unsigned (R144). -/
def lenTooLong (maxp : Nat) (b : Byte) : Bool := decide (maxp ≤ b.toNat)

/-- `sat_inc_W(v)` (00_scope.md section 5, R108). -/
def satInc (w v : Nat) : Nat := if v < 2 ^ w - 1 then v + 1 else v

end Sys2Proof
end

