-- ==== Sys2Proof/Syntax.lean ====
section
/-! DEFINITION. The syntax: one constructor per row of spec/opcode_table.json, in the table's order. A row whose byte the
table fixes (CR, LF, HDR, 0x00) has no operand. -/

namespace Sys2Proof

/-- One row of spec/opcode_table.json. -/
inductive Instr where
  -- PORT rows: the operations of R82
  | rbInit
  | rbWrite (b : Byte)
  | rbRead
  | rbIsEmpty
  | dxInit
  | dxExtract (p : Nat)
  | dxReset
  | pdInit
  | pdStep (b : Byte)
  | bfInit
  | bfStep (b : Byte)
  | lpInit
  | lpStep (b : Byte)
  | consDrain
  | sysReset
  | sysRxReinit
  -- PSEUDO rows: the wrappers of R84, R94
  | rbWriteN (s : Bytes)
  | rbReadN (n : Nat)
  -- BYTE_CLASS rows: the dispatcher's reading of a byte (R76, R121 to R125)
  | pdIdlePrintable (b : Byte)
  | pdIdleCr
  | pdIdleLf
  | pdIdleHeader
  | pdIdleNoise (b : Byte)
  | pdInLine (b : Byte)
  | pdInBin (b : Byte)
  -- BYTE_ROLE rows: the frame parser's reading of a byte (R78, R142 to R146)
  | bfWaitHeaderHdr
  | bfWaitHeaderOther (b : Byte)
  | bfReadIdsDevice (b : Byte)
  | bfReadIdsSystem (b : Byte)
  | bfReadIdsMsg (b : Byte)
  | bfReadIdsSeq (b : Byte)
  | bfReadLenTooLong (b : Byte)
  | bfReadLenZero
  | bfReadLenValid (b : Byte)
  | bfReadPayloadByte (b : Byte)
  | bfReadPayloadLast (b : Byte)
  | bfReadChecksumMatch (b : Byte)
  | bfReadChecksumMismatch (b : Byte)
  -- BYTE_ROLE rows: the line parser's reading of a byte (R79, R161, R162)
  | lpTermCr
  | lpTermLf
  | lpByteAppend (b : Byte)
  | lpByteOverflow (b : Byte)
  -- WIRE rows (R71, R75, R81). The LEN field of a frame is the payload's length.
  | frame (dev sys msg seq : Byte) (payload : Bytes) (csum : Byte)
  | line (text : Bytes) (term : Byte)
  | positionReport (p : Nat)
  -- EVENT rows: the output records of R200
  | frameOk (dev sys msg seq len : Byte) (payload : Bytes)
  | frameLenAbort (len : Byte)
  | frameCsumFail (computed received : Byte)
  | lineCmd (index : Nat) (name : Bytes) (arg : Option Bytes)
  | lineUnknown (cmd : Bytes)
  deriving DecidableEq, Repr

end Sys2Proof
end

