-- ==== Sys2Proof/WellFormed.lean ====
section
/-! DEFINITION. Which instructions are well formed under a configuration: each operand is a value the row's own encoding
admits. -/

namespace Sys2Proof

/-- A command token holds no whitespace byte (R85, `command := NONWS*`). -/
def isToken (c : Cfg) (cmd : Bytes) : Bool := cmd.all (fun b => !c.isWs b)

/-- An event record the block can emit (R146, R203 to R205): the legal ranges the table gives its fields. -/
def Event.legal (c : Cfg) : Event → Bool
  | .frameOk _ _ _ _ len payload => decide (payload.length = len.toNat) && !lenTooLong c.maxp len
  | .frameLenAbort len => lenTooLong c.maxp len
  | .frameCsumFail computed received => !csumOk computed received
  | .lineCmd index name _ => isToken c name && decide (lookup c.cmds name = some index)
  | .lineUnknown cmd => isToken c cmd && (lookup c.cmds cmd).isNone

/-- Well-formedness of an instruction (30_encoding.md; the operand columns of the table). -/
def Instr.wf (c : Cfg) : Instr → Bool
  | .rbInit | .rbRead | .rbIsEmpty | .dxInit | .dxReset | .pdInit | .bfInit | .lpInit | .consDrain | .sysReset
  | .sysRxReinit => true
  | .rbWrite _ | .pdStep _ | .bfStep _ | .lpStep _ => true
  | .dxExtract p => decide (p ≤ c.h)
  | .rbWriteN _ | .rbReadN _ => true
  | .pdIdlePrintable b => isPrintable b
  | .pdIdleCr | .pdIdleLf | .pdIdleHeader => true
  | .pdIdleNoise b => !isLineStart b && b != c.hdr
  | .pdInLine _ | .pdInBin _ => true
  | .bfWaitHeaderHdr => true
  | .bfWaitHeaderOther b => b != c.hdr
  | .bfReadIdsDevice _ | .bfReadIdsSystem _ | .bfReadIdsMsg _ | .bfReadIdsSeq _ => true
  | .bfReadLenTooLong b => lenTooLong c.maxp b
  | .bfReadLenZero => true
  | .bfReadLenValid b => !lenTooLong c.maxp b && b != 0
  | .bfReadPayloadByte _ | .bfReadPayloadLast _ | .bfReadChecksumMatch _ | .bfReadChecksumMismatch _ => true
  | .lpTermCr | .lpTermLf => true
  | .lpByteAppend b | .lpByteOverflow b => !isTerm b
  | .frame _ _ _ _ payload _ => decide (payload.length ≤ 255)
  | .line text term => text.all (fun b => !isTerm b) && isTerm term
  | .positionReport p => decide (p ≤ c.h)
  | .frameOk dev sys msg seq len payload => (Event.frameOk dev sys msg seq len payload).legal c
  | .frameLenAbort len => (Event.frameLenAbort len).legal c
  | .frameCsumFail computed received => (Event.frameCsumFail computed received).legal c
  | .lineCmd index name arg => (Event.lineCmd index name arg).legal c
  | .lineUnknown cmd => (Event.lineUnknown cmd).legal c

end Sys2Proof
end

