-- ==== Sys2Proof/Decode.lean ====
section
/-! DEFINITION. The decoder and the encoder. The block has no opcodes (R82): what a word means is fixed by WHERE it stands,
the port it is sampled on, or the FSM state in which the stream byte is read (R70). `Code` is a word together with that place.
The decoder is total and rejects by name; the encoder gives each well-formed instruction a place and a word. -/

namespace Sys2Proof

/-- Where a stream byte is read (R76, R78, R79): the state that gives the byte its role. -/
inductive StreamCtx where
  | dispatcher (st : PdState)
  | frameParser (st : BfState) (idx : Fin 4) (pcur : Nat) (len csum : Byte)
  | lineParser (cur : Nat)
  deriving DecidableEq, Repr

/-- An encoded instruction, by the formats of opcode_table.json: PORT (operand signals, numbered from bit 0), PSEUDO (a call of
the wrapper), BYTE_CLASS and BYTE_ROLE (a byte in its context), WIRE (a byte string, or a position of POSW bits), EVENT (an
output record, which has no numeric code). -/
inductive Code where
  | port (p : Port) (nbits w : Nat)
  | writeN (s : Bytes)
  | readN (n : Nat)
  | stream (ctx : StreamCtx) (b : Byte)
  | wireFrame (bytes : Bytes)
  | wireLine (bytes : Bytes)
  | wirePosition (nbits w : Nat)
  | event (e : Event)
  deriving DecidableEq, Repr

/-- Why a code is no instruction. -/
inductive DecodeError where
  /-- A port sampled with another number of operand bits than R82 gives it. -/
  | operandWidth
  /-- A value that does not fit its operand bits. -/
  | operandTooWide
  /-- A reported position above `H` (R81). -/
  | positionAboveCapacity
  /-- Fewer bytes than the shortest frame (R74). -/
  | frameTooShort
  /-- The first byte of a frame is not `HDR` (R71). -/
  | frameNoHeader
  /-- The bytes after LEN are not LEN payload bytes and a checksum (R71, R73). -/
  | frameLengthMismatch
  /-- A line whose last byte is neither CR nor LF (R75). -/
  | lineNoTerminator
  /-- A line with CR or LF before its last byte (R75). -/
  | lineTerminatorInside
  /-- An event record with a field outside its legal values (R146, R203 to R205). -/
  | eventIllegal
  deriving DecidableEq, Repr

/-- The class of a byte at the dispatcher: the BYTE_CLASS rows. -/
inductive PdClass where
  | printable
  | cr
  | lf
  | header
  | noise
  | inLine
  | inBin
  deriving DecidableEq, Repr

/-- The role of a byte in the frame parser: the BYTE_ROLE rows `BF.*`. -/
inductive BfRole where
  | header
  | other
  | device
  | system
  | msg
  | seq
  | tooLong
  | zero
  | valid
  | payload
  | payloadLast
  | csumMatch
  | csumMismatch
  deriving DecidableEq, Repr

/-- The role of a byte in the line parser: the BYTE_ROLE rows `LP.*`. -/
inductive LpRole where
  | cr
  | lf
  | append
  | overflow
  deriving DecidableEq, Repr

/-- Classification by the dispatcher (R76, R121 to R125): by the byte in `Idle`, by the state alone elsewhere. -/
def pdClass (c : Cfg) : PdState → Byte → PdClass
  | .idle, b =>
    if isPrintable b then .printable
    else if b = byteCr then .cr
    else if b = byteLf then .lf
    else if b = c.hdr then .header
    else .noise
  | .inLineFrame, _ => .inLine
  | .inBinaryFrame, _ => .inBin

/-- The ID byte that `bf.idx` says comes next (R143). -/
def idRole (idx : Fin 4) : BfRole :=
  if idx = 0 then .device else if idx = 1 then .system else if idx = 2 then .msg else .seq

/-- The role of a byte in the frame parser (R78). The length guard is tested before the zero test (R210); the payload test
uses the incremented cursor (R145). -/
def bfRole (c : Cfg) (st : BfState) (idx : Fin 4) (pcur : Nat) (len csum b : Byte) : BfRole :=
  match st with
  | .waitHeader => if b = c.hdr then .header else .other
  | .readIds => idRole idx
  | .readLen => if lenTooLong c.maxp b then .tooLong else if b = 0 then .zero else .valid
  | .readPayload => if pcur + 1 = len.toNat then .payloadLast else .payload
  | .readChecksum => if csumOk csum b then .csumMatch else .csumMismatch

/-- The role of a byte in the line parser (R79): its value and `lp.cur`. -/
def lpRole (c : Cfg) (cur : Nat) (b : Byte) : LpRole :=
  if b = byteCr then .cr
  else if b = byteLf then .lf
  else if cur < c.l - 1 then .append
  else .overflow

/-- The table row of a class, with the byte as its operand where the table does not fix it. -/
def PdClass.instr (b : Byte) : PdClass → Instr
  | .printable => .pdIdlePrintable b
  | .cr => .pdIdleCr
  | .lf => .pdIdleLf
  | .header => .pdIdleHeader
  | .noise => .pdIdleNoise b
  | .inLine => .pdInLine b
  | .inBin => .pdInBin b

/-- The table row of a frame-parser role. -/
def BfRole.instr (b : Byte) : BfRole → Instr
  | .header => .bfWaitHeaderHdr
  | .other => .bfWaitHeaderOther b
  | .device => .bfReadIdsDevice b
  | .system => .bfReadIdsSystem b
  | .msg => .bfReadIdsMsg b
  | .seq => .bfReadIdsSeq b
  | .tooLong => .bfReadLenTooLong b
  | .zero => .bfReadLenZero
  | .valid => .bfReadLenValid b
  | .payload => .bfReadPayloadByte b
  | .payloadLast => .bfReadPayloadLast b
  | .csumMatch => .bfReadChecksumMatch b
  | .csumMismatch => .bfReadChecksumMismatch b

/-- The table row of a line-parser role. -/
def LpRole.instr (b : Byte) : LpRole → Instr
  | .cr => .lpTermCr
  | .lf => .lpTermLf
  | .append => .lpByteAppend b
  | .overflow => .lpByteOverflow b

/-- A stream byte in its context: every byte value is some row in every state (R80). -/
def decodeStream (c : Cfg) (ctx : StreamCtx) (b : Byte) : Instr :=
  match ctx with
  | .dispatcher st => (pdClass c st b).instr b
  | .frameParser st idx pcur len csum => (bfRole c st idx pcur len csum b).instr b
  | .lineParser cur => (lpRole c cur b).instr b

/-- A port without operand bits: a transaction strobe only (R82). -/
def decodeStrobe (nbits w : Nat) (i : Instr) : Except DecodeError Instr :=
  if nbits ≠ 0 then .error .operandWidth else if w ≠ 0 then .error .operandTooWide else .ok i

/-- A port with one byte operand, bits 7..0 (R82). -/
def decodeByteOperand (nbits w : Nat) (i : Byte → Instr) : Except DecodeError Instr :=
  if nbits ≠ 8 then .error .operandWidth
  else if 256 ≤ w then .error .operandTooWide
  else .ok (i (BitVec.ofNat 8 w))

/-- A reported position: POSW bits, `0..H` (R81). -/
def decodePosition (c : Cfg) (nbits w : Nat) (i : Nat → Instr) : Except DecodeError Instr :=
  if nbits ≠ c.posw then .error .operandWidth
  else if 2 ^ c.posw ≤ w then .error .operandTooWide
  else if c.h < w then .error .positionAboveCapacity
  else .ok (i w)

/-- A transaction on a port (R82). -/
def decodePort (c : Cfg) (p : Port) (nbits w : Nat) : Except DecodeError Instr :=
  match p with
  | .rbInit => decodeStrobe nbits w .rbInit
  | .rbWr => decodeByteOperand nbits w .rbWrite
  | .rbRd => decodeStrobe nbits w .rbRead
  | .rbEmpty => decodeStrobe nbits w .rbIsEmpty
  | .dxInit => decodeStrobe nbits w .dxInit
  | .dxEvt => decodePosition c nbits w .dxExtract
  | .dxReset => decodeStrobe nbits w .dxReset
  | .pdInit => decodeStrobe nbits w .pdInit
  | .pdByte => decodeByteOperand nbits w .pdStep
  | .bfInit => decodeStrobe nbits w .bfInit
  | .bfByte => decodeByteOperand nbits w .bfStep
  | .lpInit => decodeStrobe nbits w .lpInit
  | .lpByte => decodeByteOperand nbits w .lpStep
  | .drain => decodeStrobe nbits w .consDrain
  | .sysReset => decodeStrobe nbits w .sysReset
  | .rxReinit => decodeStrobe nbits w .sysRxReinit

/-- The bytes of one frame (R71): `7 + LEN` bytes, the first of them `HDR` (R74). The checksum may be wrong (R80 (d)) and LEN
may be at or above `MAXP` (R80 (c)): what follows from that is the parser's business. -/
def decodeFrame (c : Cfg) : Bytes → Except DecodeError Instr
  | hdr :: dev :: sys :: msg :: seq :: len :: rest =>
    if hdr ≠ c.hdr then .error .frameNoHeader
    else if rest.length ≠ len.toNat + 1 then .error .frameLengthMismatch
    else .ok (.frame dev sys msg seq rest.dropLast (rest.getLastD 0))
  | _ => .error .frameTooShort

/-- The bytes of one line (R75): its last byte is CR or LF and no other byte is. -/
def decodeLine (bytes : Bytes) : Except DecodeError Instr :=
  if !isTerm (bytes.getLastD 0) then .error .lineNoTerminator
  else if bytes.dropLast.any isTerm then .error .lineTerminatorInside
  else .ok (.line bytes.dropLast (bytes.getLastD 0))

/-- The row of an event record. -/
def Event.instr : Event → Instr
  | .frameOk dev sys msg seq len payload => .frameOk dev sys msg seq len payload
  | .frameLenAbort len => .frameLenAbort len
  | .frameCsumFail computed received => .frameCsumFail computed received
  | .lineCmd index name arg => .lineCmd index name arg
  | .lineUnknown cmd => .lineUnknown cmd

/-- The decoder: total, rejecting by name. -/
def decode (c : Cfg) : Code → Except DecodeError Instr
  | .port p nbits w => decodePort c p nbits w
  | .writeN s => .ok (.rbWriteN s)
  | .readN n => .ok (.rbReadN n)
  | .stream ctx b => .ok (decodeStream c ctx b)
  | .wireFrame bytes => decodeFrame c bytes
  | .wireLine bytes => decodeLine bytes
  | .wirePosition nbits w => decodePosition c nbits w .positionReport
  | .event e => if e.legal c then .ok e.instr else .error .eventIllegal

/-- The encoder: the place and the word of a well-formed instruction. Where several contexts give a byte its role it names
one of them. -/
def encode (c : Cfg) : Instr → Code
  | .rbInit => .port .rbInit 0 0
  | .rbWrite b => .port .rbWr 8 b.toNat
  | .rbRead => .port .rbRd 0 0
  | .rbIsEmpty => .port .rbEmpty 0 0
  | .dxInit => .port .dxInit 0 0
  | .dxExtract p => .port .dxEvt c.posw p
  | .dxReset => .port .dxReset 0 0
  | .pdInit => .port .pdInit 0 0
  | .pdStep b => .port .pdByte 8 b.toNat
  | .bfInit => .port .bfInit 0 0
  | .bfStep b => .port .bfByte 8 b.toNat
  | .lpInit => .port .lpInit 0 0
  | .lpStep b => .port .lpByte 8 b.toNat
  | .consDrain => .port .drain 0 0
  | .sysReset => .port .sysReset 0 0
  | .sysRxReinit => .port .rxReinit 0 0
  | .rbWriteN s => .writeN s
  | .rbReadN n => .readN n
  | .pdIdlePrintable b => .stream (.dispatcher .idle) b
  | .pdIdleCr => .stream (.dispatcher .idle) byteCr
  | .pdIdleLf => .stream (.dispatcher .idle) byteLf
  | .pdIdleHeader => .stream (.dispatcher .idle) c.hdr
  | .pdIdleNoise b => .stream (.dispatcher .idle) b
  | .pdInLine b => .stream (.dispatcher .inLineFrame) b
  | .pdInBin b => .stream (.dispatcher .inBinaryFrame) b
  | .bfWaitHeaderHdr => .stream (.frameParser .waitHeader 0 0 0 0) c.hdr
  | .bfWaitHeaderOther b => .stream (.frameParser .waitHeader 0 0 0 0) b
  | .bfReadIdsDevice b => .stream (.frameParser .readIds 0 0 0 0) b
  | .bfReadIdsSystem b => .stream (.frameParser .readIds 1 0 0 0) b
  | .bfReadIdsMsg b => .stream (.frameParser .readIds 2 0 0 0) b
  | .bfReadIdsSeq b => .stream (.frameParser .readIds 3 0 0 0) b
  | .bfReadLenTooLong b => .stream (.frameParser .readLen 3 0 0 0) b
  | .bfReadLenZero => .stream (.frameParser .readLen 3 0 0 0) 0
  | .bfReadLenValid b => .stream (.frameParser .readLen 3 0 0 0) b
  | .bfReadPayloadByte b => .stream (.frameParser .readPayload 3 0 2 0) b
  | .bfReadPayloadLast b => .stream (.frameParser .readPayload 3 0 1 0) b
  | .bfReadChecksumMatch b => .stream (.frameParser .readChecksum 3 0 0 b) b
  | .bfReadChecksumMismatch b => .stream (.frameParser .readChecksum 3 0 0 (b + 1)) b
  | .lpTermCr => .stream (.lineParser 0) byteCr
  | .lpTermLf => .stream (.lineParser 0) byteLf
  | .lpByteAppend b => .stream (.lineParser 0) b
  | .lpByteOverflow b => .stream (.lineParser (c.l - 1)) b
  | .frame dev sys msg seq payload csum => .wireFrame (frameBytes c dev sys msg seq payload csum)
  | .line text term => .wireLine (encodeLine text term)
  | .positionReport p => .wirePosition c.posw p
  | .frameOk dev sys msg seq len payload => .event (.frameOk dev sys msg seq len payload)
  | .frameLenAbort len => .event (.frameLenAbort len)
  | .frameCsumFail computed received => .event (.frameCsumFail computed received)
  | .lineCmd index name arg => .event (.lineCmd index name arg)
  | .lineUnknown cmd => .event (.lineUnknown cmd)

/-- The instruction the decoder reads from a bare word. The only rows the table gives a word are bytes, and a byte is a row
only in a state; this is the reading in the state the block is in right after reset: the dispatcher's `Idle`, under the
configuration of State.reset (log 17). No other width is a word of the table. -/
def decodeTableWord (nbits w : Nat) : Option Instr :=
  if nbits = 8 ∧ w < 256 then some (decodeStream Cfg.cfgT (.dispatcher .idle) (BitVec.ofNat 8 w)) else none

end Sys2Proof
end

