-- ==== Sys2Proof/Machine/State.lean ====
section
/-! DEFINITION. The machine's state, whole and plain (10_state.md R20, R40; INVENTORY.md lists it), its faults and refusals,
and the states at power-on and after reset. -/

namespace Sys2Proof.Machine

/-- A byte array: `(index, byte)` pairs, indices strictly rising, no byte equal to what an unlisted index reads as
(`Memory.wf`, Machine/Ops.lean). -/
abbrev Memory := List Host.Cell

/-- The Ring Buffer (R21 to R23). -/
@[ext]
structure RingBuffer where
  wr : Nat
  rd : Nat
  data : Memory
  deriving DecidableEq, Repr

/-- The DMA Window Extractor (R25 to R27). -/
@[ext]
structure Extractor where
  last : Nat
  drops : Nat
  wake : Bool
  deriving DecidableEq, Repr

/-- The Protocol Dispatcher (R28). -/
@[ext]
structure Dispatcher where
  state : PdState
  deriving DecidableEq, Repr

/-- The Binary Frame Parser (R29 to R35). -/
@[ext]
structure FrameParser where
  state : BfState
  idx : Fin 4
  csum : Byte
  dev : Byte
  sys : Byte
  msg : Byte
  seq : Byte
  len : Byte
  pcur : Nat
  payload : Memory
  deriving DecidableEq, Repr

/-- The Line Command Parser (R36, R37). -/
@[ext]
structure LineParser where
  cur : Nat
  buf : Memory
  deriving DecidableEq, Repr

/-- The `inited.*` flags (R42). -/
@[ext]
structure Inited where
  rb : Bool
  dx : Bool
  pd : Bool
  bf : Bool
  lp : Bool
  deriving DecidableEq, Repr

/-- The environment's receiver (R40, R62): `HWBUF`, the hardware write position, and how many bytes were stored beyond the position
last reported or reset to (the model's own count, which tells the overrun of R237: log 7). -/
@[ext]
structure Receiver where
  hwbuf : Memory
  pos : Nat
  unreported : Nat
  deriving DecidableEq, Repr

/-- Where the producer is (R94, R106): quiescent; inside `DX.EXTRACT(p)` with the indices of `HWBUF` still to push; inside
`RB.WRITE_N` with the bytes still to write and the count `k` so far. -/
inductive ProducerPhase where
  | quiescent
  | extracting (p : Nat) (todo : List Nat)
  | writing (todo : Bytes) (k : Nat)
  deriving DecidableEq, Repr

/-- Where the consumer is (R94, R180, R218): at the wait; draining, with the byte `RB.READ` gave that `PD.STEP` has not had yet;
inside `RB.READ_N` with the number of reads left and the bytes so far. -/
inductive ConsumerPhase where
  | waiting
  | draining (held : Option Byte)
  | reading (left : Nat) (got : Bytes)
  deriving DecidableEq, Repr

/-- What the last operation showed on its port (R14 (d), R39, R82). A failed RB.READ gives no byte (D10). -/
inductive Result where
  | none
  | ok (v : Bool)
  | read (b : Option Byte)
  | empty (e : Bool)
  | done (d : Bool)
  | stored (k : Nat)
  | bytes (s : Bytes)
  deriving DecidableEq, Repr

/-- One item of the schedule: who moves next, and with what (R40, R94, R106, R180; log 5, log 9). -/
inductive Act where
  /-- `who` performs a transaction with the encoded instruction `code`, without another agent in between. -/
  | transact (who : Agent) (code : Code)
  /-- `who` enters the encoded instruction `code`: RB.WRITE_N, RB.READ_N, DX.EXTRACT and CONS.DRAIN are then carried on by the
  caller's own steps, between which the other agents may step. -/
  | start (who : Agent) (code : Code)
  /-- The producer takes its next step: serve a waiting report, push or write one byte, or finish. -/
  | producer
  /-- The consumer takes its next step: of its loop, or of RB.READ_N. -/
  | consumer
  /-- The environment stores a received byte in `HWBUF`. -/
  | receive (b : Byte)
  /-- The environment restarts its receiver on its own: position 0, `dx.last` not reset (R235). -/
  | restart
  deriving DecidableEq, Repr

/-- The state of the block, of its environment as far as the block's rules read it, and of the run. -/
@[ext]
structure State where
  cfg : Cfg
  rb : RingBuffer
  dx : Extractor
  pd : Dispatcher
  bf : FrameParser
  lp : LineParser
  inited : Inited
  rx : Receiver
  producer : ProducerPhase
  reports : List Nat
  consumer : ConsumerPhase
  trace : List Event
  result : Result
  draws : Nat
  sched : List Act
  deriving DecidableEq, Repr

/-- Why the machine stops. The block itself has no fault (R200). -/
inductive Fault where
  /-- An access to an index outside its array, which does not exist (R50, R55). Raised by `memRead`, `memReadUpTo` and
  `memWrite`, in no state that meets `Legal`. Safe: nothing is proved of such a run (log 16). -/
  | outOfBounds (space : Space) (index : Nat)
  deriving DecidableEq, Repr

/-- Why a step has no meaning: the refusals of R219, and what the model's own form adds. All are safe: nothing is proved of a
refused run. -/
inductive Refusal where
  /-- An instruction without a meaning yet: raised by arms of `exec` only. -/
  | notModelled (mnemonic : String)
  /-- R219 (6): a configuration R4 to R11 do not admit. Raised by every operation. -/
  | badConfiguration
  /-- R219 (1): an operation on a sub-block whose `inited` flag is 0. Raised by every operation but the INITs. -/
  | uninitialised (sub : SubBlock)
  /-- R219 (4): a driver operation while an agent it must exclude is inside an operation. Raised by the INITs, SYS.RESET,
  DX.RESET and SYS.RX_REINIT. -/
  | notQuiescent (who : Agent)
  /-- R219 (3): DX.EXTRACT while an extraction runs. Raised by DX.EXTRACT. -/
  | overlappingExtraction
  /-- R219 (5): a reported position above `H`. Raised by DX.EXTRACT and POSITION_REPORT. -/
  | positionAboveCapacity
  /-- R219 (2): a second producer or a second consumer. Raised by the schedule's transactions, by CONS.DRAIN, and by DX.EXTRACT
  inside RB.WRITE_N. -/
  | secondContext (who : Agent)
  /-- R219 (2), R41, R213: an operation performed by an agent that may not. Raised by the schedule's transactions. -/
  | wrongAgent (who : Agent)
  /-- R219 (7): a handler calls into the block. Raised by the schedule's transactions. -/
  | handlerReentry
  /-- A byte row performed where its condition in opcode_table.json is false: the byte has another row there (log 12). Raised
  by the BYTE_CLASS and BYTE_ROLE rows. -/
  | rowNotApplicable
  /-- An EVENT row offered as an input: it is an output record of port `evt` (R82; log 13). Raised by the schedule's
  transactions. -/
  | outputRecord
  /-- A word that is no instruction. Raised by the schedule's transactions. -/
  | undecodable (why : DecodeError)
  deriving DecidableEq, Repr

/-- The state at power-on (R42, R230): no sub-block initialised. The registers R230 leaves unspecified hold the values log 3
and log 4 name. -/
def State.powerOn : State where
  cfg := Cfg.cfgT
  rb := { wr := 0, rd := 0, data := [] }
  dx := { last := 0, drops := 0, wake := false }
  pd := { state := .idle }
  bf := { state := .waitHeader, idx := 0, csum := 0, dev := 0, sys := 0, msg := 0, seq := 0, len := 0, pcur := 0,
          payload := [] }
  lp := { cur := 0, buf := [] }
  inited := { rb := false, dx := false, pd := false, bf := false, lp := false }
  rx := { hwbuf := [], pos := 0, unreported := 0 }
  producer := .quiescent
  reports := []
  consumer := .waiting
  trace := []
  result := .none
  draws := 0
  sched := []

/-- The machine right after reset: what SYS.RESET leaves (R42, R181; log 2), over the values power-on leaves where no
INIT writes. -/
def State.reset : State :=
  { State.powerOn with inited := { rb := true, dx := true, pd := true, bf := true, lp := true } }

end Sys2Proof.Machine
end

