-- ==== Sys2Proof/Machine/Ops.lean ====
section
/-! DEFINITION. The named operations over memory, registers and agents that every meaning is written with: the byte arrays,
the setters of State, raising an event (the block has no exception: this is what stands in its place, R200), the checks of R219,
the ring's write and read, one push, one whole extraction, and the bodies of the parsers' and the dispatcher's rows. -/

namespace Sys2Proof.Machine

/-- What a step answers. -/
abbrev Out := Host.Outcome State Fault Refusal

/-! ### The byte arrays (R50 to R55) -/

/-- What an index that no entry lists reads as. The spec leaves it unspecified (D11).
DESIGN CHOICE (log 4), unsafe. -/
def unlistedByte : Byte := 0x00

/-- The byte at an index. -/
def Memory.read : Memory → Nat → Byte
  | [], _ => unlistedByte
  | (i, b) :: rest, a => if a = i then b else Memory.read rest a

/-- An entry, or none when the byte is what an unlisted index reads as. -/
def Memory.entry (a : Nat) (b : Byte) (rest : Memory) : Memory :=
  if b = unlistedByte then rest else (a, b) :: rest

/-- Store a byte, keeping the canonical form. -/
def Memory.write : Memory → Nat → Byte → Memory
  | [], a, b => Memory.entry a b []
  | (i, c) :: rest, a, b =>
    if a < i then Memory.entry a b ((i, c) :: rest)
    else if a = i then Memory.entry a b rest
    else (i, c) :: Memory.write rest a b

/-- Every index of `m` is at least `lo`, indices strictly rise, and no byte is the unlisted one. -/
def Memory.wfFrom : Nat → Memory → Bool
  | _, [] => true
  | lo, (i, b) :: rest => decide (lo ≤ i) && b != unlistedByte && Memory.wfFrom (i + 1) rest

/-- The canonical form: equal memories are equal lists. -/
def Memory.wf (m : Memory) : Bool := Memory.wfFrom 0 m

/-- Every listed index is inside an array of `size` bytes. -/
def Memory.within (size : Nat) (m : Memory) : Bool := m.all (fun cell => decide (cell.1 < size))

/-- `MemRead(S, a, 1)`: an index outside the array does not exist. -/
def memRead (sp : Space) (size a : Nat) (m : Memory) : Except Fault Byte :=
  if a < size then .ok (m.read a) else .error (.outOfBounds sp a)

/-- `S[0 .. k)`, read byte by byte. -/
def memReadUpTo (sp : Space) (size k : Nat) (m : Memory) : Except Fault Bytes :=
  if k ≤ size then .ok ((List.range k).map (fun a => m.read a)) else .error (.outOfBounds sp size)

/-- `MemWrite(S, a, 1, v)`. -/
def memWrite (sp : Space) (size a : Nat) (v : Byte) (m : Memory) : Except Fault Memory :=
  if a < size then .ok (m.write a v) else .error (.outOfBounds sp a)

/-! ### Setters, one per field that a step writes -/

def State.setRb (s : State) (v : RingBuffer) : State := { s with rb := v }
def State.setDx (s : State) (v : Extractor) : State := { s with dx := v }
def State.setPd (s : State) (v : PdState) : State := { s with pd := { state := v } }
def State.setBf (s : State) (v : FrameParser) : State := { s with bf := v }
def State.setLp (s : State) (v : LineParser) : State := { s with lp := v }
def State.setInited (s : State) (v : Inited) : State := { s with inited := v }
def State.setRx (s : State) (v : Receiver) : State := { s with rx := v }
def State.setProducer (s : State) (v : ProducerPhase) : State := { s with producer := v }
def State.setReports (s : State) (v : List Nat) : State := { s with reports := v }
def State.setConsumer (s : State) (v : ConsumerPhase) : State := { s with consumer := v }
def State.setResult (s : State) (v : Result) : State := { s with result := v }
def State.setDraws (s : State) (v : Nat) : State := { s with draws := v }
def State.setSched (s : State) (v : List Act) : State := { s with sched := v }

/-- `emit E(args)` and `raise E(args)`: append the event to the trace; control does not transfer anywhere (00_scope.md
section 5, R14, R200, R211). -/
def State.emit (s : State) (e : Event) : State := { s with trace := s.trace ++ [e] }

/-! ### Checks (R219) -/

/-- The flag of a sub-block (R42). -/
def Inited.has (f : Inited) : SubBlock → Bool
  | .rb => f.rb
  | .dx => f.dx
  | .pd => f.pd
  | .bf => f.bf
  | .lp => f.lp

/-- R219 (6) and (1): the configuration is admitted and every named sub-block is initialised; else the first refusal. -/
def ready (needs : List SubBlock) (s : State) : Option Refusal :=
  if s.cfg.valid then (needs.find? (fun b => !s.inited.has b)).map Refusal.uninitialised
  else some .badConfiguration

/-- The producer is not inside any operation (glossary; R105): it runs no extraction and no RB.WRITE_N, and no raised report waits
to be served, which R208 counts as being served. DEDUCED (log 11). -/
def State.producerQuiet (s : State) : Bool := s.producer == .quiescent && s.reports.isEmpty

/-- The consumer is not inside any operation: it is at the wait (R218). DEDUCED (log 11). -/
def State.consumerQuiet (s : State) : Bool := s.consumer == .waiting

/-- R219 (4): refuse unless the producer is quiescent. -/
def needProducerQuiet (s : State) : Option Refusal :=
  if s.producerQuiet then none else some (.notQuiescent .producer)

/-- R219 (4): refuse unless the consumer is quiescent. -/
def needConsumerQuiet (s : State) : Option Refusal :=
  if s.consumerQuiet then none else some (.notQuiescent .consumer)

/-- Go on unless a check refuses. -/
def guarded (check : Option Refusal) (k : Out) : Out :=
  match check with
  | some r => .refused r
  | none => k

/-- End an operation that shows `r` on its port. -/
def finish (r : Result) : Except Fault State → Out
  | .error f => .fault f
  | .ok s => .next (s.setResult r)

/-- End an operation whose port shows a value. -/
def finishWith (toResult : α → Result) : Except Fault (α × State) → Out
  | .error f => .fault f
  | .ok (a, s) => .next (s.setResult (toResult a))

/-! ### Ring Buffer (40_ring_buffer.md) -/

/-- RB.WRITE(b) (R91): false and no change when full; else the byte is stored, then the index published (R57). -/
def ringWrite (b : Byte) (s : State) : Except Fault (Bool × State) :=
  if ringFull s.cfg.n s.rb.wr s.rb.rd then .ok (false, s)
  else
    match memWrite .rb s.cfg.n s.rb.wr b s.rb.data with
    | .error f => .error f
    | .ok m => .ok (true, s.setRb { s.rb with data := m, wr := nextIndex s.cfg.n s.rb.wr })

/-- RB.READ() (R92): no byte and no change when empty; else the byte is loaded, then the slot released (R58). -/
def ringRead (s : State) : Except Fault (Option Byte × State) :=
  if ringEmpty s.rb.wr s.rb.rd then .ok (none, s)
  else
    match memRead .rb s.cfg.n s.rb.rd s.rb.data with
    | .error f => .error f
    | .ok b => .ok (some b, s.setRb { s.rb with rd := nextIndex s.cfg.n s.rb.rd })

/-- RB.WRITE_N(s) (R94): RB.WRITE byte by byte, stopping at the first failure; the count of bytes stored. -/
def ringWriteN : Bytes → State → Except Fault (Nat × State)
  | [], s => .ok (0, s)
  | b :: rest, s =>
    match ringWrite b s with
    | .error f => .error f
    | .ok (false, s') => .ok (0, s')
    | .ok (true, s') =>
      match ringWriteN rest s' with
      | .error f => .error f
      | .ok (k, s'') => .ok (k + 1, s'')

/-- One step inside RB.WRITE_N (R94): the next RB.WRITE, or the return of the count after the last or a failed one. -/
def writeNStep (todo : Bytes) (k : Nat) (s : State) : Except Fault (Result × State) :=
  match todo with
  | [] => .ok (.stored k, s.setProducer .quiescent)
  | b :: rest =>
    match ringWrite b s with
    | .error f => .error f
    | .ok (false, s') => .ok (.stored k, s'.setProducer .quiescent)
    | .ok (true, s') => .ok (.ok true, s'.setProducer (.writing rest (k + 1)))

/-- RB.READ_N(n) (R94): up to `n` RB.READs, stopping at the first failure; the bytes in order. -/
def ringReadN : Nat → State → Except Fault (Bytes × State)
  | 0, s => .ok ([], s)
  | k + 1, s =>
    match ringRead s with
    | .error f => .error f
    | .ok (none, s') => .ok ([], s')
    | .ok (some b, s') =>
      match ringReadN k s' with
      | .error f => .error f
      | .ok (bs, s'') => .ok (b :: bs, s'')

/-- One step inside RB.READ_N (R94): the next RB.READ, or the return of the bytes after the last or a failed one. -/
def readNStep (left : Nat) (got : Bytes) (s : State) : Except Fault (Result × State) :=
  match left with
  | 0 => .ok (.bytes got, s.setConsumer .waiting)
  | n + 1 =>
    match ringRead s with
    | .error f => .error f
    | .ok (none, s') => .ok (.bytes got, s'.setConsumer .waiting)
    | .ok (some b, s') => .ok (.read (some b), s'.setConsumer (.reading n (got ++ [b])))

/-- What RB.INIT writes (R90): both indices and the flag, not the array. -/
def ringInit (s : State) : State :=
  (s.setRb { s.rb with wr := 0, rd := 0 }).setInited { s.inited with rb := true }

/-! ### DMA Window Extractor (41_dma_extractor.md) -/

/-- The position the extractor will track is `p`, reported by a position event or set by a reset: the bytes stored beyond it are those
from `p` to the write position, and the count of R237 starts from them. The count is the model's own; nothing else changes. DESIGN
CHOICE (log 7). -/
def positionSeen (p : Nat) (s : State) : State :=
  s.setRx { s.rx with unreported := (s.rx.pos + s.cfg.h - p) % s.cfg.h }

/-- `push(b)` (R102): RB.WRITE; a failed one counts the byte as dropped, and the byte is gone. -/
def push (b : Byte) (s : State) : Except Fault State :=
  match ringWrite b s with
  | .error f => .error f
  | .ok (true, s') => .ok s'
  | .ok (false, s') => .ok (s'.setDx { s'.dx with drops := satInc s'.cfg.w s'.dx.drops })

/-- `push(MemRead(HWBUF, i, 1))` (R101). -/
def pushIndex (i : Nat) (s : State) : Except Fault State :=
  match memRead .hwbuf s.cfg.h i s.rx.hwbuf with
  | .error f => .error f
  | .ok b => push b s

/-- The pushes of a list of indices, in order. -/
def pushAll : List Nat → State → Except Fault State
  | [], s => .ok s
  | i :: rest, s =>
    match pushIndex i s with
    | .error f => .error f
    | .ok s' => pushAll rest s'

/-- The end of an extraction that is not a no-op (R101, R107): the position, normalised, and the wake flag. -/
def extractEnd (p : Nat) (s : State) : State :=
  s.setDx { s.dx with last := normalise s.cfg.h p, wake := true }

/-- DX.EXTRACT(p) run without the consumer stepping in between (R101): a no-op, no state changed, when `p = dx.last`. -/
def extract (p : Nat) (s : State) : Except Fault State :=
  if p = s.dx.last then .ok s
  else
    match pushAll (window s.cfg.h s.dx.last p) s with
    | .error f => .error f
    | .ok s' => .ok (extractEnd p s')

/-- Several DX.EXTRACTs one after another, each run whole (R109: never nested). -/
def extractAll : List Nat → State → Except Fault State
  | [], s => .ok s
  | p :: rest, s =>
    match extract p s with
    | .error f => .error f
    | .ok s' => extractAll rest s'

/-- The producer enters DX.EXTRACT(p), to be run push by push (R106). The loop bounds are those at entry (R101 (g)). -/
def extractBegin (p : Nat) (s : State) : State :=
  if p = s.dx.last then s
  else s.setProducer (.extracting p (window s.cfg.h s.dx.last p))

/-- What DX.INIT writes (R100); the count of R237 starts from position 0 (log 7). -/
def extractorInit (s : State) : State :=
  ((positionSeen 0 s).setDx { last := 0, drops := 0, wake := false }).setInited { s.inited with dx := true }

/-- What DX.RESET writes (R105): the position only; the count of R237 starts from position 0 (log 7). -/
def extractorReset (s : State) : State := (positionSeen 0 s).setDx { s.dx with last := 0 }

/-- The environment half of SYS.RX_REINIT (R182), and a restart alone (R235): the hardware write position is 0 again. Bytes stored and
not reported are abandoned, so the count of R237 starts afresh. DESIGN CHOICE (log 7). -/
def receiverRestart (s : State) : State := s.setRx { s.rx with pos := 0, unreported := 0 }

/-! ### The environment's store and the overrun (R62, R237) -/

/-- The reported positions not yet served to the end: the running extraction's, then the waiting ones, oldest first. -/
def State.served (s : State) : List Nat :=
  match s.producer with
  | .extracting p _ => p :: s.reports
  | _ => s.reports

/-- The slots that extractions to these positions take, one after another, from `dx.last = q`. -/
def slotsOf (h : Nat) : Nat → List Nat → List Nat
  | _, [] => []
  | q, p :: rest => window h q p ++ slotsOf h (normalise h p) rest

/-- The slots of the ranges being extracted (R237): the running extraction's whole range and those of the waiting reports, which R208
counts as being served. -/
def State.beingExtracted (s : State) : List Nat := slotsOf s.cfg.h s.dx.last s.served

/-- The position the last report leaves tracked, once served: `dx.last` as it will be. -/
def State.lastReported (s : State) : Nat := s.served.foldl (fun _ p => normalise s.cfg.h p) s.dx.last

/-- The environment's next store breaks the premise of R237: it falls into a range being extracted, or it is the `H`-th byte since the
last position event or reset or a later one, but for exactly `H` bytes from position 0 (the event can then report `H`). DESIGN CHOICE
(log 7) in how the bytes between two events are counted. -/
def State.overruns (s : State) : Bool :=
  s.beingExtracted.contains s.rx.pos ||
    (decide (s.cfg.h ≤ s.rx.unreported + 1) &&
      !(decide (s.rx.unreported + 1 = s.cfg.h) && decide (s.lastReported = 0) && decide (s.rx.pos + 1 = s.cfg.h)))

/-! ### Line Command Parser (44_line_parser.md) -/

/-- A line terminator (R161): a line that holds bytes gets its NUL and is executed; the cursor is 0 afterwards in all
cases. -/
def lineTerminate (s : State) : Except Fault State :=
  if s.lp.cur = 0 then .ok (s.setLp { s.lp with cur := 0 })
  else
    match memWrite .line s.cfg.l s.lp.cur byteNul s.lp.buf with
    | .error f => .error f
    | .ok m =>
      match memReadUpTo .line s.cfg.l s.lp.cur m with
      | .error f => .error f
      | .ok text => .ok ((s.setLp { cur := 0, buf := m }).emit (lineEvent s.cfg text))

/-- A byte appended to the line (R162). -/
def lineAppend (b : Byte) (s : State) : Except Fault State :=
  match memWrite .line s.cfg.l s.lp.cur b s.lp.buf with
  | .error f => .error f
  | .ok m => .ok (s.setLp { cur := s.lp.cur + 1, buf := m })

/-- The body of each line-parser row, with the result `done` (R161 to R163). -/
def lpAct (r : LpRole) (b : Byte) (s : State) : Except Fault (Bool × State) :=
  match r with
  | .cr => (lineTerminate s).map (fun s' => (true, s'))
  | .lf => (lineTerminate s).map (fun s' => (true, s'))
  | .append => (lineAppend b s).map (fun s' => (false, s'))
  | .overflow => .ok (false, s.setLp { s.lp with cur := 0 })

/-- The role of a byte in the line parser's present state. -/
def lpRoleAt (s : State) (b : Byte) : LpRole := lpRole s.cfg s.lp.cur b

/-- LP.STEP(b) -> done (R163). -/
def lineStep (b : Byte) (s : State) : Except Fault (Bool × State) := lpAct (lpRoleAt s b) b s

/-- What LP.INIT writes (R160). -/
def lineInit (s : State) : State :=
  (s.setLp { s.lp with cur := 0 }).setInited { s.inited with lp := true }

/-! ### Binary Frame Parser (43_binary_frame_parser.md) -/

/-- A payload byte (R145): stored, added, counted; `st` is the state after it. -/
def payloadStore (st : BfState) (b : Byte) (s : State) : Except Fault (Bool × State) :=
  match memWrite .payload s.cfg.maxp s.bf.pcur b s.bf.payload with
  | .error f => .error f
  | .ok m =>
    .ok (false, s.setBf { s.bf with payload := m, csum := csumAdd s.bf.csum b, pcur := s.bf.pcur + 1, state := st })

/-- A completed frame is handed over (R146): the event carries the fields and `PAYLOAD[0 .. bf.len)`. -/
def frameDeliver (s : State) : Except Fault (Bool × State) :=
  match memReadUpTo .payload s.cfg.maxp s.bf.len.toNat s.bf.payload with
  | .error f => .error f
  | .ok payload =>
    .ok (true, (s.setBf { s.bf with state := .waitHeader }).emit
      (.frameOk s.bf.dev s.bf.sys s.bf.msg s.bf.seq s.bf.len payload))

/-- The body of each frame-parser row, with the result `done` (R142 to R146). -/
def bfAct (r : BfRole) (b : Byte) (s : State) : Except Fault (Bool × State) :=
  match r with
  | .header => .ok (false, s.setBf { s.bf with csum := b, idx := 0, state := .readIds })
  | .other => .ok (false, s)
  | .device => .ok (false, s.setBf { s.bf with dev := b, csum := csumAdd s.bf.csum b, idx := 1 })
  | .system => .ok (false, s.setBf { s.bf with sys := b, csum := csumAdd s.bf.csum b, idx := 2 })
  | .msg => .ok (false, s.setBf { s.bf with msg := b, csum := csumAdd s.bf.csum b, idx := 3 })
  | .seq => .ok (false, s.setBf { s.bf with seq := b, csum := csumAdd s.bf.csum b, state := .readLen })
  | .tooLong =>
    .ok (true, (s.setBf { s.bf with len := b, csum := csumAdd s.bf.csum b, state := .waitHeader }).emit (.frameLenAbort b))
  | .zero => .ok (false, s.setBf { s.bf with len := b, csum := csumAdd s.bf.csum b, state := .readChecksum })
  | .valid => .ok (false, s.setBf { s.bf with len := b, csum := csumAdd s.bf.csum b, pcur := 0, state := .readPayload })
  | .payload => payloadStore .readPayload b s
  | .payloadLast => payloadStore .readChecksum b s
  | .csumMatch => frameDeliver s
  | .csumMismatch => .ok (true, (s.setBf { s.bf with state := .waitHeader }).emit (.frameCsumFail s.bf.csum b))

/-- The role of a byte in the frame parser's present state. -/
def bfRoleAt (s : State) (b : Byte) : BfRole :=
  bfRole s.cfg s.bf.state s.bf.idx s.bf.pcur s.bf.len s.bf.csum b

/-- BF.STEP(b) -> done (R141). -/
def frameStep (b : Byte) (s : State) : Except Fault (Bool × State) := bfAct (bfRoleAt s b) b s

/-- What BF.INIT writes (R140). -/
def frameInit (s : State) : State :=
  (s.setBf { s.bf with state := .waitHeader, idx := 0 }).setInited { s.inited with bf := true }

/-! ### Protocol Dispatcher (42_dispatcher.md) -/

/-- `if done: pd.state <- Idle` (R121, R122, R124, R125). -/
def backToIdle : Except Fault (Bool × State) → Except Fault State
  | .error f => .error f
  | .ok (true, s) => .ok (s.setPd .idle)
  | .ok (false, s) => .ok s

/-- The body of each dispatcher row (R121 to R125): at most one parser is called, once (R126). -/
def pdAct (r : PdClass) (b : Byte) (s : State) : Except Fault State :=
  match r with
  | .printable => backToIdle (lineStep b (s.setPd .inLineFrame))
  | .cr => backToIdle (lineStep b (s.setPd .inLineFrame))
  | .lf => backToIdle (lineStep b (s.setPd .inLineFrame))
  | .header => backToIdle (frameStep b (s.setPd .inBinaryFrame))
  | .noise => .ok s
  | .inLine => backToIdle (lineStep b s)
  | .inBin => backToIdle (frameStep b s)

/-- The class of a byte in the dispatcher's present state. -/
def pdClassAt (s : State) (b : Byte) : PdClass := pdClass s.cfg s.pd.state b

/-- PD.STEP(b) (R128). -/
def dispatchStep (b : Byte) (s : State) : Except Fault State := pdAct (pdClassAt s b) b s

/-- What PD.INIT writes (R120). -/
def dispatcherInit (s : State) : State :=
  (s.setPd .idle).setInited { s.inited with pd := true }

/-- A run of stream bytes through PD.STEP, in order (R64, R70). -/
def dispatchAll : Bytes → State → Except Fault State
  | [], s => .ok s
  | b :: rest, s =>
    match dispatchStep b s with
    | .error f => .error f
    | .ok s' => dispatchAll rest s'

/-! ### Consumer loop (45_consumer_and_system.md) -/

/-- The drain loop of R180 with at most `k` reads: read, step, until a read fails. When `k` reads did not find the ring empty
the consumer is still inside its loop. -/
def drainLoop : Nat → State → Except Fault State
  | 0, s => .ok s
  | k + 1, s =>
    match ringRead s with
    | .error f => .error f
    | .ok (none, s') => .ok (s'.setConsumer .waiting)
    | .ok (some b, s') =>
      match dispatchStep b s' with
      | .error f => .error f
      | .ok s'' => drainLoop k s''

/-- The consumer wakes: the flag is cleared before draining (R180). -/
def wakeUp (s : State) : State :=
  (s.setDx { s.dx with wake := false }).setConsumer (.draining none)

/-- The loop's RB.READ as a step of its own (R180): a byte is held for the PD.STEP that follows; an empty ring ends the
drain. -/
def drainRead (s : State) : Except Fault State :=
  match ringRead s with
  | .error f => .error f
  | .ok (none, s') => .ok (s'.setConsumer .waiting)
  | .ok (some b, s') => .ok (s'.setConsumer (.draining (some b)))

end Sys2Proof.Machine
end

