-- ==== Sys2Proof/Machine/Extract.lean ====
section
/-! DEFINITION. The DMA Window Extractor's rows: DX.INIT, DX.EXTRACT, DX.RESET and the wire row POSITION_REPORT
(41_dma_extractor.md, R81, R208, R109), and the producer's own steps inside an extraction. -/

namespace Sys2Proof.Machine

/-- DX.INIT (R100). Producer quiescent. -/
def execDxInit (s : State) : Out :=
  guarded ((ready [] s).or (needProducerQuiet s)) (finish .none (.ok (extractorInit s)))

/-- R219 (5): a position above `H` is refused. -/
def needPosition (p : Nat) (s : State) : Option Refusal :=
  if p ≤ s.cfg.h then none else some .positionAboveCapacity

/-- R219 (3), (2): no second extraction while one runs, and none inside RB.WRITE_N. Reports that only wait do not stop it: they
are served first (log 29). -/
def needNoExtraction (s : State) : Option Refusal :=
  match s.producer with
  | .quiescent => none
  | .extracting _ _ => some .overlappingExtraction
  | .writing _ _ => some (.secondContext .producer)

/-- What DX.EXTRACT(p) requires before it runs or is entered (R101, R219). -/
def extractCheck (p : Nat) (s : State) : Option Refusal :=
  ((ready [.dx, .rb] s).or (needPosition p s)).or (needNoExtraction s)

/-- DX.EXTRACT(p) (R101), run without the consumer stepping in between; push by push it is entered by `enter` or POSITION_REPORT
and carried on by `producerStep` (log 9, log 10). Reports that wait were raised earlier: the one producer context serves them first,
oldest first, so that the stream keeps its order (R109, R183). DESIGN CHOICE (log 29). -/
def execDxExtract (p : Nat) (s : State) : Out :=
  guarded (extractCheck p s) (finish .none (extractAll (s.reports ++ [p]) ((positionSeen p s).setReports [])))

/-- DX.RESET() (R105). Producer quiescent. -/
def execDxReset (s : State) : Out :=
  guarded ((ready [.dx] s).or (needProducerQuiet s)) (finish .none (.ok (extractorReset s)))

/-- A position event (R109, R208, R210): a free producer enters DX.EXTRACT(p); otherwise the report waits behind the others (log 10). -/
def reportPosition (p : Nat) (s : State) : State :=
  if s.producerQuiet then extractBegin p s else s.setReports (s.reports ++ [p])

/-- POSITION_REPORT p (R81, R208): each position event is one DX.EXTRACT(p). -/
def execPositionReport (p : Nat) (s : State) : Out :=
  guarded ((ready [.dx, .rb] s).or (needPosition p s)) (finish .none (.ok (reportPosition p (positionSeen p s))))

/-- One step inside DX.EXTRACT(p) (R101, R106): one push, or the end when none is left. -/
def extractStep (p : Nat) (todo : List Nat) (s : State) : Except Fault State :=
  match todo with
  | i :: rest => (pushIndex i s).map (fun s' => s'.setProducer (.extracting p rest))
  | [] => .ok ((extractEnd p s).setProducer .quiescent)

/-- A free producer serves the oldest waiting report (R109; log 10); with none waiting nothing happens. -/
def serveReport (s : State) : Out :=
  match s.reports with
  | p :: rest => finish .none (.ok (extractBegin p (s.setReports rest)))
  | [] => .next s

/-- The producer's next step: of the operation it is inside (R94, R106), else the oldest waiting report is entered (R109). -/
def producerStep (s : State) : Out :=
  match s.producer with
  | .extracting p todo => guarded (ready [.dx, .rb] s) (finish .none (extractStep p todo s))
  | .quiescent => guarded (ready [.dx, .rb] s) (serveReport s)
  | .writing todo k => guarded (ready [.rb] s) (finishWith id (writeNStep todo k s))

end Sys2Proof.Machine
end

