-- ==== Sys2Proof/Machine/Dispatcher.lean ====
section
/-! DEFINITION. The Protocol Dispatcher's rows: PD.INIT, PD.STEP and the seven BYTE_CLASS rows (42_dispatcher.md). -/

namespace Sys2Proof.Machine

/-- PD.INIT (R120). Consumer quiescent. -/
def execPdInit (s : State) : Out :=
  guarded ((ready [] s).or (needConsumerQuiet s)) (finish .none (.ok (dispatcherInit s)))

/-- PD.STEP(b) (R128). -/
def execPdStep (b : Byte) (s : State) : Out :=
  guarded (ready [.pd, .bf, .lp] s) (finish .none (dispatchStep b s))

/-- A row applies where the byte has it; elsewhere the byte is another row (log 12). -/
def needRow (applies : Bool) : Option Refusal := if applies then none else some .rowNotApplicable

/-- A BYTE_CLASS row: PD.STEP on a byte of that class. -/
def pdRow (r : PdClass) (b : Byte) (s : State) : Out :=
  guarded ((ready [.pd, .bf, .lp] s).or (needRow (pdClassAt s b == r))) (finish .none (pdAct r b s))

/-- PD.IDLE.LINE_START.PRINTABLE (R121). -/
def execPdIdlePrintable (b : Byte) (s : State) : Out := pdRow .printable b s

/-- PD.IDLE.LINE_START.CR (R121). -/
def execPdIdleCr (s : State) : Out := pdRow .cr byteCr s

/-- PD.IDLE.LINE_START.LF (R121). -/
def execPdIdleLf (s : State) : Out := pdRow .lf byteLf s

/-- PD.IDLE.HEADER (R122). -/
def execPdIdleHeader (s : State) : Out := pdRow .header s.cfg.hdr s

/-- PD.IDLE.NOISE (R123). -/
def execPdIdleNoise (b : Byte) (s : State) : Out := pdRow .noise b s

/-- PD.INLINE.ANY (R124). -/
def execPdInLine (b : Byte) (s : State) : Out := pdRow .inLine b s

/-- PD.INBIN.ANY (R125). -/
def execPdInBin (b : Byte) (s : State) : Out := pdRow .inBin b s

end Sys2Proof.Machine
end

