-- ==== Sys2Proof/Machine/Parsers.lean ====
section
/-! DEFINITION. The parsers' rows: BF.INIT, BF.STEP and the thirteen `BF.*` roles (43_binary_frame_parser.md); LP.INIT,
LP.STEP and the four `LP.*` roles (44_line_parser.md). -/

namespace Sys2Proof.Machine

/-- BF.INIT (R140). Consumer quiescent. -/
def execBfInit (s : State) : Out :=
  guarded ((ready [] s).or (needConsumerQuiet s)) (finish .none (.ok (frameInit s)))

/-- BF.STEP(b) -> done (R141). -/
def execBfStep (b : Byte) (s : State) : Out :=
  guarded (ready [.bf] s) (finishWith .done (frameStep b s))

/-- A `BF.*` BYTE_ROLE row: BF.STEP on a byte of that role. -/
def bfRow (r : BfRole) (b : Byte) (s : State) : Out :=
  guarded ((ready [.bf] s).or (needRow (bfRoleAt s b == r))) (finishWith .done (bfAct r b s))

/-- BF.WAITHEADER.HDR (R142). -/
def execBfWaitHeaderHdr (s : State) : Out := bfRow .header s.cfg.hdr s

/-- BF.WAITHEADER.OTHER (R142). -/
def execBfWaitHeaderOther (b : Byte) (s : State) : Out := bfRow .other b s

/-- BF.READIDS.DEVICE_ID (R143). -/
def execBfReadIdsDevice (b : Byte) (s : State) : Out := bfRow .device b s

/-- BF.READIDS.SYSTEM_ID (R143). -/
def execBfReadIdsSystem (b : Byte) (s : State) : Out := bfRow .system b s

/-- BF.READIDS.MSG_ID (R143). -/
def execBfReadIdsMsg (b : Byte) (s : State) : Out := bfRow .msg b s

/-- BF.READIDS.SEQ (R143). -/
def execBfReadIdsSeq (b : Byte) (s : State) : Out := bfRow .seq b s

/-- BF.READLEN.TOO_LONG (R144). -/
def execBfReadLenTooLong (b : Byte) (s : State) : Out := bfRow .tooLong b s

/-- BF.READLEN.ZERO (R144). -/
def execBfReadLenZero (s : State) : Out := bfRow .zero 0 s

/-- BF.READLEN.VALID (R144). -/
def execBfReadLenValid (b : Byte) (s : State) : Out := bfRow .valid b s

/-- BF.READPAYLOAD.BYTE (R145). -/
def execBfReadPayloadByte (b : Byte) (s : State) : Out := bfRow .payload b s

/-- BF.READPAYLOAD.LAST (R145). -/
def execBfReadPayloadLast (b : Byte) (s : State) : Out := bfRow .payloadLast b s

/-- BF.READCHECKSUM.MATCH (R146). -/
def execBfReadChecksumMatch (b : Byte) (s : State) : Out := bfRow .csumMatch b s

/-- BF.READCHECKSUM.MISMATCH (R146). -/
def execBfReadChecksumMismatch (b : Byte) (s : State) : Out := bfRow .csumMismatch b s

/-- LP.INIT (R160). Consumer quiescent. -/
def execLpInit (s : State) : Out :=
  guarded ((ready [] s).or (needConsumerQuiet s)) (finish .none (.ok (lineInit s)))

/-- LP.STEP(b) -> done (R163). -/
def execLpStep (b : Byte) (s : State) : Out :=
  guarded (ready [.lp] s) (finishWith .done (lineStep b s))

/-- An `LP.*` BYTE_ROLE row: LP.STEP on a byte of that role. -/
def lpRow (r : LpRole) (b : Byte) (s : State) : Out :=
  guarded ((ready [.lp] s).or (needRow (lpRoleAt s b == r))) (finishWith .done (lpAct r b s))

/-- LP.TERM.CR (R161). -/
def execLpTermCr (s : State) : Out := lpRow .cr byteCr s

/-- LP.TERM.LF (R161). -/
def execLpTermLf (s : State) : Out := lpRow .lf byteLf s

/-- LP.BYTE.APPEND (R162). -/
def execLpByteAppend (b : Byte) (s : State) : Out := lpRow .append b s

/-- LP.BYTE.OVERFLOW (R162). -/
def execLpByteOverflow (b : Byte) (s : State) : Out := lpRow .overflow b s

end Sys2Proof.Machine
end

