-- ==== Sys2Proof/Machine/Ring.lean ====
section
/-! DEFINITION. The Ring Buffer's rows: RB.INIT, RB.WRITE, RB.READ, RB.IS_EMPTY, RB.WRITE_N, RB.READ_N
(40_ring_buffer.md). -/

namespace Sys2Proof.Machine

/-- RB.INIT (R90). Producer and consumer quiescent. -/
def execRbInit (s : State) : Out :=
  guarded (((ready [] s).or (needProducerQuiet s)).or (needConsumerQuiet s)) (finish .none (.ok (ringInit s)))

/-- RB.WRITE(b) -> ok (R91). -/
def execRbWrite (b : Byte) (s : State) : Out :=
  guarded (ready [.rb] s) (finishWith .ok (ringWrite b s))

/-- RB.READ() -> (ok, b) (R92). -/
def execRbRead (s : State) : Out :=
  guarded (ready [.rb] s) (finishWith .read (ringRead s))

/-- RB.IS_EMPTY() -> e (R93): a pure predicate. -/
def execRbIsEmpty (s : State) : Out :=
  guarded (ready [.rb] s) (finish (.empty (ringEmpty s.rb.wr s.rb.rd)) (.ok s))

/-- RB.WRITE_N(s) -> k (R94), run without the consumer stepping in between; entered and carried on step by step by
`enter` and `producerStep` (log 9). -/
def execRbWriteN (bs : Bytes) (s : State) : Out :=
  guarded (ready [.rb] s) (finishWith .stored (ringWriteN bs s))

/-- RB.READ_N(n) -> s (R94), run without the producer stepping in between; entered and carried on step by step by
`enter` and `consumerStep` (log 9). -/
def execRbReadN (n : Nat) (s : State) : Out :=
  guarded (ready [.rb] s) (finishWith .bytes (ringReadN n s))

end Sys2Proof.Machine
end

