-- ==== Sys2Proof/Machine/System.lean ====
section
/-! DEFINITION. CONS.DRAIN, SYS.RESET, SYS.RX_REINIT (45_consumer_and_system.md), and the environment's own steps. -/

namespace Sys2Proof.Machine

/-- The consumer is at its wait: a second run of the loop would be a second consumer (R219 (2)). -/
def needAtWait (s : State) : Option Refusal :=
  if s.consumer = .waiting then none else some (.secondContext .consumer)

/-- What CONS.DRAIN requires before it runs or is entered (R42, R180, R219). -/
def drainCheck (s : State) : Option Refusal := (ready [.rb, .dx, .pd, .bf, .lp] s).or (needAtWait s)

/-- The consumer at its wait (R180, R218): it wakes if the flag is set, else no step is taken. -/
def wakeStep (s : State) : Out := if s.dx.wake then finish .none (.ok (wakeUp s)) else .next s

/-- CONS.DRAIN (R180), one iteration without the producer stepping in between (log 9): with `dx.wake = 0` the consumer stays
blocked and no step is taken (R218); otherwise it clears the flag and drains until the ring is empty. `N` reads suffice, the
ring holds at most `N - 1` bytes (R24). -/
def execConsDrain (s : State) : Out :=
  guarded (drainCheck s)
    (if s.dx.wake then finish .none (drainLoop s.cfg.n (wakeUp s)) else .next s)

/-- SYS.RESET (R181): the five INITs. Producer and consumer quiescent. With DX.INIT the count of bytes behind R237 starts afresh from
position 0 (R183 speaks of the stream from SYS.RESET). DESIGN CHOICE (log 7). -/
def execSysReset (s : State) : Out :=
  guarded (((ready [] s).or (needProducerQuiet s)).or (needConsumerQuiet s))
    (finish .none (.ok (lineInit (frameInit (dispatcherInit (extractorInit (ringInit s)))))))

/-- SYS.RX_REINIT (R182): the receiver restarts at position 0 and DX.RESET follows, in one step. Producer quiescent. -/
def execSysRxReinit (s : State) : Out :=
  guarded ((ready [.dx] s).or (needProducerQuiet s)) (finish .none (.ok (extractorReset (receiverRestart s))))

/-- The environment stores a received byte at the write position and advances it (R40, R62). Where the store breaks the premise of
R237, the slot's byte is a free value (U12; log 7). -/
def environmentStore (b : Byte) (s : State) : Except Fault State :=
  match memWrite .hwbuf s.cfg.h s.rx.pos (if s.overruns then Config.freeByte s.draws else b) s.rx.hwbuf with
  | .error f => .error f
  | .ok m =>
    .ok ((s.setRx { hwbuf := m, pos := nextIndex s.cfg.h s.rx.pos, unreported := s.rx.unreported + 1 }).setDraws
      (if s.overruns then s.draws + 1 else s.draws))

/-- A received byte arrives. -/
def receiveStep (b : Byte) (s : State) : Out :=
  guarded (ready [] s) (finish .none (environmentStore b s))

/-- The receiver restarts without the software's reset (R235, U1): `dx.last` keeps its value. -/
def restartStep (s : State) : Out :=
  guarded (ready [] s) (finish .none (.ok (receiverRestart s)))

end Sys2Proof.Machine
end

