-- ==== Sys2Proof/Machine/Wire.lean ====
section
/-! DEFINITION. The wire rows FRAME and LINE, and the EVENT rows (30_encoding.md, 60_exceptions.md). -/

namespace Sys2Proof.Machine

/-- FRAME (R71 to R74): its bytes go through PD.STEP one by one, in transmission order (log 9). -/
def execFrame (dev sys msg seq : Byte) (payload : Bytes) (csum : Byte) (s : State) : Out :=
  guarded (ready [.pd, .bf, .lp] s) (finish .none (dispatchAll (frameBytes s.cfg dev sys msg seq payload csum) s))

/-- LINE (R75): its bytes go through PD.STEP one by one, in transmission order (log 9). -/
def execLine (text : Bytes) (term : Byte) (s : State) : Out :=
  guarded (ready [.pd, .bf, .lp] s) (finish .none (dispatchAll (encodeLine text term) s))

/-- An event leaves on port `evt` (R14, R200). -/
def emitRow (e : Event) (s : State) : Out :=
  guarded (ready [] s) (finish .none (.ok (s.emit e)))

/-- FrameOk (R146). -/
def execFrameOk (dev sys msg seq len : Byte) (payload : Bytes) (s : State) : Out :=
  emitRow (.frameOk dev sys msg seq len payload) s

/-- FrameLenAbort (R203). -/
def execFrameLenAbort (len : Byte) (s : State) : Out := emitRow (.frameLenAbort len) s

/-- FrameCsumFail (R204). -/
def execFrameCsumFail (computed received : Byte) (s : State) : Out := emitRow (.frameCsumFail computed received) s

/-- LineCmd (R161). -/
def execLineCmd (index : Nat) (name : Bytes) (arg : Option Bytes) (s : State) : Out := emitRow (.lineCmd index name arg) s

/-- LineUnknown (R205). -/
def execLineUnknown (cmd : Bytes) (s : State) : Out := emitRow (.lineUnknown cmd) s

end Sys2Proof.Machine
end

