-- ==== Sys2Proof/Machine/Dispatch.lean ====
section
/-! DEFINITION. The dispatch: one arm per row of spec/opcode_table.json. -/

namespace Sys2Proof.Machine

def exec (i : Instr) (s : State) : Host.Outcome State Fault Refusal :=
  match i with
  | .rbInit => Sys2Proof.Machine.execRbInit s
  | .rbWrite b => Sys2Proof.Machine.execRbWrite b s
  | .rbRead => Sys2Proof.Machine.execRbRead s
  | .rbIsEmpty => Sys2Proof.Machine.execRbIsEmpty s
  | .dxInit => Sys2Proof.Machine.execDxInit s
  | .dxExtract p => Sys2Proof.Machine.execDxExtract p s
  | .dxReset => Sys2Proof.Machine.execDxReset s
  | .pdInit => Sys2Proof.Machine.execPdInit s
  | .pdStep b => Sys2Proof.Machine.execPdStep b s
  | .bfInit => Sys2Proof.Machine.execBfInit s
  | .bfStep b => Sys2Proof.Machine.execBfStep b s
  | .lpInit => Sys2Proof.Machine.execLpInit s
  | .lpStep b => Sys2Proof.Machine.execLpStep b s
  | .consDrain => Sys2Proof.Machine.execConsDrain s
  | .sysReset => Sys2Proof.Machine.execSysReset s
  | .sysRxReinit => Sys2Proof.Machine.execSysRxReinit s
  | .rbWriteN bs => Sys2Proof.Machine.execRbWriteN bs s
  | .rbReadN n => Sys2Proof.Machine.execRbReadN n s
  | .pdIdlePrintable b => Sys2Proof.Machine.execPdIdlePrintable b s
  | .pdIdleCr => Sys2Proof.Machine.execPdIdleCr s
  | .pdIdleLf => Sys2Proof.Machine.execPdIdleLf s
  | .pdIdleHeader => Sys2Proof.Machine.execPdIdleHeader s
  | .pdIdleNoise b => Sys2Proof.Machine.execPdIdleNoise b s
  | .pdInLine b => Sys2Proof.Machine.execPdInLine b s
  | .pdInBin b => Sys2Proof.Machine.execPdInBin b s
  | .bfWaitHeaderHdr => Sys2Proof.Machine.execBfWaitHeaderHdr s
  | .bfWaitHeaderOther b => Sys2Proof.Machine.execBfWaitHeaderOther b s
  | .bfReadIdsDevice b => Sys2Proof.Machine.execBfReadIdsDevice b s
  | .bfReadIdsSystem b => Sys2Proof.Machine.execBfReadIdsSystem b s
  | .bfReadIdsMsg b => Sys2Proof.Machine.execBfReadIdsMsg b s
  | .bfReadIdsSeq b => Sys2Proof.Machine.execBfReadIdsSeq b s
  | .bfReadLenTooLong b => Sys2Proof.Machine.execBfReadLenTooLong b s
  | .bfReadLenZero => Sys2Proof.Machine.execBfReadLenZero s
  | .bfReadLenValid b => Sys2Proof.Machine.execBfReadLenValid b s
  | .bfReadPayloadByte b => Sys2Proof.Machine.execBfReadPayloadByte b s
  | .bfReadPayloadLast b => Sys2Proof.Machine.execBfReadPayloadLast b s
  | .bfReadChecksumMatch b => Sys2Proof.Machine.execBfReadChecksumMatch b s
  | .bfReadChecksumMismatch b => Sys2Proof.Machine.execBfReadChecksumMismatch b s
  | .lpTermCr => Sys2Proof.Machine.execLpTermCr s
  | .lpTermLf => Sys2Proof.Machine.execLpTermLf s
  | .lpByteAppend b => Sys2Proof.Machine.execLpByteAppend b s
  | .lpByteOverflow b => Sys2Proof.Machine.execLpByteOverflow b s
  | .frame dev sys msg seq payload csum => Sys2Proof.Machine.execFrame dev sys msg seq payload csum s
  | .line text term => Sys2Proof.Machine.execLine text term s
  | .positionReport p => Sys2Proof.Machine.execPositionReport p s
  | .frameOk dev sys msg seq len payload => Sys2Proof.Machine.execFrameOk dev sys msg seq len payload s
  | .frameLenAbort len => Sys2Proof.Machine.execFrameLenAbort len s
  | .frameCsumFail computed received => Sys2Proof.Machine.execFrameCsumFail computed received s
  | .lineCmd index name arg => Sys2Proof.Machine.execLineCmd index name arg s
  | .lineUnknown cmd => Sys2Proof.Machine.execLineUnknown cmd s

end Sys2Proof.Machine
end

