-- ==== Sys2Proof/Machine/Schedule.lean ====
section
/-! DEFINITION. What one item of the schedule does: a transaction is decoded, its caller checked (R82, R213, R219), and the
instruction run; the producer, the consumer and the environment take their own next steps. -/

namespace Sys2Proof.Machine

/-- Who may perform a row (R82, R213). An EVENT row is an output record: no one's input. R82 and R141 give BF.STEP and LP.STEP the
internal port called from PD.STEP, and R213 does not list them among the consumer's own operations: that the consumer may also
perform them, and the byte rows, as transactions of its own is the model's choice. DESIGN CHOICE (log 28). -/
def callers : Instr → List Agent
  | .rbInit | .dxInit | .dxReset | .pdInit | .bfInit | .lpInit | .sysReset | .sysRxReinit => [.driver]
  | .rbWrite _ | .rbWriteN _ | .dxExtract _ => [.producer]
  | .rbIsEmpty => [.producer, .consumer]
  | .rbRead | .rbReadN _ | .pdStep _ | .bfStep _ | .lpStep _ | .consDrain => [.consumer]
  | .pdIdlePrintable _ | .pdIdleCr | .pdIdleLf | .pdIdleHeader | .pdIdleNoise _ | .pdInLine _ | .pdInBin _ => [.consumer]
  | .bfWaitHeaderHdr | .bfWaitHeaderOther _ | .bfReadIdsDevice _ | .bfReadIdsSystem _ | .bfReadIdsMsg _
  | .bfReadIdsSeq _ | .bfReadLenTooLong _ | .bfReadLenZero | .bfReadLenValid _ | .bfReadPayloadByte _
  | .bfReadPayloadLast _ | .bfReadChecksumMatch _ | .bfReadChecksumMismatch _ => [.consumer]
  | .lpTermCr | .lpTermLf | .lpByteAppend _ | .lpByteOverflow _ => [.consumer]
  | .frame _ _ _ _ _ _ | .line _ _ => [.consumer]
  | .positionReport _ => [.environment]
  | .frameOk _ _ _ _ _ _ | .frameLenAbort _ | .frameCsumFail _ _ | .lineCmd _ _ _ | .lineUnknown _ => []

/-- The caller is inside an operation of its own, an extraction, RB.WRITE_N, RB.READ_N or its drain loop: another transaction in
its name would be a second producer or a second consumer (R219 (2), (3)). DX.EXTRACT and CONS.DRAIN refuse by themselves.
RB.IS_EMPTY, which writes no state, is let through there: R93 and R213 name its callers and do not say whether it may be called
inside an operation of several steps. DESIGN CHOICE (log 30). Reports that only wait do not make the producer busy: a direct RB.WRITE or RB.WRITE_N runs ahead of them, an order
the spec does not give (R94, R109 and R208 speak of no such mix). DESIGN CHOICE (log 29). -/
def busyCaller (who : Agent) (i : Instr) (s : State) : Bool :=
  match i with
  | .rbIsEmpty => false
  | .dxExtract _ => false
  | .consDrain => false
  | _ =>
    match who with
    | .producer => s.producer != .quiescent
    | .consumer => s.consumer != .waiting
    | _ => false

/-- The discipline of R219 on who calls: the first refusal. -/
def callerCheck (who : Agent) (i : Instr) (s : State) : Option Refusal :=
  if who = .handler then some .handlerReentry
  else if who = .stranger then some (.secondContext .stranger)
  else if callers i = [] then some .outputRecord
  else if ¬ who ∈ callers i then some (.wrongAgent who)
  else if busyCaller who i s then some (.secondContext who)
  else none

/-- A transaction: decoded, checked, run. -/
def transactStep (who : Agent) (code : Code) (s : State) : Out :=
  match decode s.cfg code with
  | .error e => .refused (.undecodable e)
  | .ok i => guarded (callerCheck who i s) (exec i s)

/-- An instruction is entered (R94, R106, R180; log 9): RB.WRITE_N, RB.READ_N, DX.EXTRACT and CONS.DRAIN become the phase from
which `producerStep` or `consumerStep` carries them on, DX.EXTRACT behind the reports that wait (log 29); every other instruction
is one step and runs. -/
def enter (i : Instr) (s : State) : Out :=
  match i with
  | .rbWriteN bs => guarded (ready [.rb] s) (finish .none (.ok (s.setProducer (.writing bs 0))))
  | .rbReadN n => guarded (ready [.rb] s) (finish .none (.ok (s.setConsumer (.reading n []))))
  | .dxExtract p => guarded (extractCheck p s) (finish .none (.ok (reportPosition p (positionSeen p s))))
  | .consDrain => guarded (drainCheck s) (wakeStep s)
  | _ => exec i s

/-- A transaction entered: decoded, checked, and begun. -/
def startStep (who : Agent) (code : Code) (s : State) : Out :=
  match decode s.cfg code with
  | .error e => .refused (.undecodable e)
  | .ok i => guarded (callerCheck who i s) (enter i s)

/-- The instruction a stream byte is in the dispatcher's present state. -/
def streamInstr (b : Byte) (s : State) : Instr := decodeStream s.cfg (.dispatcher s.pd.state) b

/-- The consumer's next step (R94, R180): at the wait, wake if the flag is set, else stay blocked; in the loop, RB.READ, or, with a
byte read, run the row that byte is; inside RB.READ_N, its next RB.READ or its return. -/
def consumerStep (s : State) : Out :=
  match s.consumer with
  | .waiting => guarded (ready [.rb, .dx, .pd, .bf, .lp] s) (wakeStep s)
  | .draining none => guarded (ready [.rb, .dx, .pd, .bf, .lp] s) (finish .none (drainRead s))
  | .draining (some b) =>
    guarded (ready [.rb, .dx, .pd, .bf, .lp] s) (exec (streamInstr b s) (s.setConsumer (.draining none)))
  | .reading left got => guarded (ready [.rb] s) (finishWith id (readNStep left got s))

/-- One item of the schedule. -/
def perform (a : Act) (s : State) : Out :=
  match a with
  | .transact who code => transactStep who code s
  | .start who code => startStep who code s
  | .producer => producerStep s
  | .consumer => consumerStep s
  | .receive b => receiveStep b s
  | .restart => restartStep s

/-- Put a stream byte where the consumer's next step runs it: read from the ring and not yet stepped, the dispatcher in
`Idle` (the state decodeTableWord reads in), the consumer next on the schedule. A word that is no byte places nothing. -/
def placeWord (s : State) (nbits w : Nat) : State :=
  if nbits = 8 ∧ w < 256 then
    ((s.setPd .idle).setConsumer (.draining (some (BitVec.ofNat 8 w)))).setSched (.consumer :: s.sched)
  else s

end Sys2Proof.Machine
end

