-- ==== Sys2Proof/Machine/Step.lean ====
section
/-! DEFINITION. One step of the machine: the next item of the schedule. -/

namespace Sys2Proof.Machine

/-- The agent the schedule names next takes its step. With an empty schedule the block is passive (R231): nothing
happens. -/
def step (s : State) : Host.Outcome State Fault Refusal :=
  match s.sched with
  | [] => .next s
  | a :: rest => perform a (s.setSched rest)

/-- The state with the word placed where step runs it next (Machine/Schedule.lean, log 17). -/
def State.withFetchWord (s : State) (nbits w : Nat) : State := placeWord s nbits w

end Sys2Proof.Machine
end

