-- ==== Sys2Proof/Machine/Micro.lean ====
section
/-! DEFINITION. The micro-steps of RB.WRITE and RB.READ (R91, R92) in the order R57 and R58 give them, run by a producer and a
consumer that step in any order. The machine itself takes each ring operation as one step, as R61 allows (log 18); the statement
RingOpsLinearize compares the two. -/

namespace Sys2Proof.Machine

/-- Where a producer is inside RB.WRITE: before its snapshot of `rb.rd`; past the full test; the byte stored; returned. -/
inductive WriteStage where
  | start
  | passed
  | stored
  | finished (ok : Bool)
  deriving DecidableEq, Repr

/-- Where a consumer is inside RB.READ: before its snapshot of `rb.wr`; past the empty test; the byte loaded; returned. -/
inductive ReadStage where
  | start
  | passed
  | loaded (b : Byte)
  | finished (b : Option Byte)
  deriving DecidableEq, Repr

/-- One micro-step of RB.WRITE(b): snapshot and test, store the byte, publish the index (R57, R91). -/
def microWrite (n : Nat) (b : Byte) (st : WriteStage) (r : RingBuffer) : WriteStage × RingBuffer :=
  match st with
  | .start => if ringFull n r.wr r.rd then (.finished false, r) else (.passed, r)
  | .passed => (.stored, { r with data := r.data.write r.wr b })
  | .stored => (.finished true, { r with wr := nextIndex n r.wr })
  | .finished ok => (.finished ok, r)

/-- One micro-step of RB.READ(): snapshot and test, load the byte, release the slot (R58, R92). -/
def microRead (n : Nat) (st : ReadStage) (r : RingBuffer) : ReadStage × RingBuffer :=
  match st with
  | .start => if ringEmpty r.wr r.rd then (.finished none, r) else (.passed, r)
  | .passed => (.loaded (r.data.read r.rd), r)
  | .loaded b => (.finished (some b), { r with rd := nextIndex n r.rd })
  | .finished b => (.finished b, r)

/-- One RB.WRITE(b) and one RB.READ() whose micro-steps interleave as the list says (`true`: the producer moves). -/
def microRun (n : Nat) (b : Byte) : List Bool → WriteStage → ReadStage → RingBuffer → WriteStage × ReadStage × RingBuffer
  | [], w, rd, r => (w, rd, r)
  | true :: rest, w, rd, r => microRun n b rest (microWrite n b w r).1 rd (microWrite n b w r).2
  | false :: rest, w, rd, r => microRun n b rest w (microRead n rd r).1 (microRead n rd r).2

end Sys2Proof.Machine
end

