-- ==== Sys2Proof/Safety.lean ====
section
/-! DEFINITION. What the statements mean by a good state and a safe run: the invariant of the whole machine, the joint
invariant of the dispatcher and the parsers, the contents of the ring, and runs. -/

namespace Sys2Proof.Machine

/-- The frame parser's ranges by state (R33, R34, R144, R145): a payload is being read only with a legal length and the cursor below it;
a checksum is awaited only with a legal length. -/
def FrameParser.rangesOk (maxp : Nat) (p : FrameParser) : Prop :=
  match p.state with
  | .readPayload => p.pcur < p.len.toNat ∧ p.len.toNat < maxp
  | .readChecksum => p.len.toNat < maxp
  | _ => True

/-- A producer inside DX.EXTRACT(p) has a legal position and only indices inside `HWBUF` left (R55, R101). -/
def ProducerPhase.rangesOk (h : Nat) : ProducerPhase → Prop
  | .quiescent => True
  | .extracting p todo => p ≤ h ∧ ∀ i ∈ todo, i < h
  | .writing _ _ => True

/-- The invariant of the machine: a configuration R4 to R11 admit, every register in the range R20 gives it, every array in
its canonical form and inside its size. -/
structure Legal (s : State) : Prop where
  cfg_valid : s.cfg.valid = true
  wr_lt : s.rb.wr < s.cfg.n
  rd_lt : s.rb.rd < s.cfg.n
  rb_wf : s.rb.data.wf = true
  rb_within : s.rb.data.within s.cfg.n = true
  last_lt : s.dx.last < s.cfg.h
  drops_lt : s.dx.drops < 2 ^ s.cfg.w
  pcur_lt : s.bf.pcur < s.cfg.maxp
  bf_ranges : s.bf.rangesOk s.cfg.maxp
  payload_wf : s.bf.payload.wf = true
  payload_within : s.bf.payload.within s.cfg.maxp = true
  cur_lt : s.lp.cur < s.cfg.l
  line_wf : s.lp.buf.wf = true
  line_within : s.lp.buf.within s.cfg.l = true
  pos_lt : s.rx.pos < s.cfg.h
  hwbuf_wf : s.rx.hwbuf.wf = true
  hwbuf_within : s.rx.hwbuf.within s.cfg.h = true
  producer_ranges : s.producer.rangesOk s.cfg.h
  reports_le : ∀ p ∈ s.reports, p ≤ s.cfg.h

/-- The three sub-blocks a stream byte passes through are initialised (R128). -/
def State.parsersInited (s : State) : Prop := s.inited.pd = true ∧ s.inited.bf = true ∧ s.inited.lp = true

/-- What the dispatcher's state says of the parsers (R43). -/
def Agree (s : State) : Prop :=
  match s.pd.state with
  | .idle => s.bf.state = .waitHeader ∧ s.lp.cur = 0
  | .inBinaryFrame => s.bf.state ≠ .waitHeader
  | .inLineFrame => s.bf.state = .waitHeader

/-- The joint invariant PD.STEP keeps: R43's, and no line begun while a frame is read, without which R43's claim about `Idle` would
not survive the end of a frame. DEDUCED: from R122, R125 and R163. -/
def Joint (s : State) : Prop :=
  Agree s ∧ (s.pd.state = .inBinaryFrame → s.lp.cur = 0)

/-- All five sub-blocks are initialised (R42). -/
def State.allInited (s : State) : Prop :=
  s.inited = { rb := true, dx := true, pd := true, bf := true, lp := true }

/-- The bytes in the ring, oldest first: slots `rb.rd, rb.rd+1, …, rb.wr-1` modulo `N` (R24). -/
def State.ringContents (s : State) : Bytes :=
  (List.range (occupancy s.cfg.n s.rb.wr s.rb.rd)).map (fun j => s.rb.data.read ((s.rb.rd + j) % s.cfg.n))

/-- The bytes `DX.EXTRACT(p)` takes from `HWBUF`, in order (R101). -/
def State.windowBytes (s : State) (p : Nat) : Bytes :=
  (window s.cfg.h s.dx.last p).map (fun i => s.rx.hwbuf.read i)

/-- No wake-up is lost (R180): with the producer quiescent and bytes in the ring, the flag is set or the consumer is inside
its drain loop. -/
def WakeKept (s : State) : Prop :=
  s.producer = .quiescent → s.rb.wr ≠ s.rb.rd → s.dx.wake = true ∨ ∃ held, s.consumer = .draining held

/-- One instruction per byte, in order, stopping at the first that gives no next state. -/
def feed (row : Byte → Instr) : Bytes → State → Out
  | [], s => .next s
  | b :: rest, s =>
    match exec (row b) s with
    | .next t => feed row rest t
    | .fault f => .fault f
    | .refused r => .refused r

/-- A sequence of instructions, stopping at the first that gives no next state. -/
def runInstrs : List Instr → State → Out
  | [], s => .next s
  | i :: rest, s =>
    match exec i s with
    | .next t => runInstrs rest t
    | .fault f => .fault f
    | .refused r => .refused r

/-- A sequence of ring calls, `some b` for RB.WRITE(b) and `none` for RB.READ(): the bytes of the successful writes, the bytes of
the successful reads, and the state at the end (R95, R96). -/
def ringRun : List (Option Byte) → State → Option (Bytes × Bytes × State)
  | [], s => some ([], [], s)
  | some b :: rest, s =>
    match exec (.rbWrite b) s with
    | .next t =>
      (ringRun rest t).map (fun r => (if t.result = .ok true then b :: r.1 else r.1, r.2))
    | _ => none
  | none :: rest, s =>
    match exec .rbRead s with
    | .next t =>
      (ringRun rest t).map (fun r =>
        match t.result with
        | .read (some b) => (r.1, b :: r.2.1, r.2.2)
        | _ => r)
    | _ => none

/-- The sub-blocks an instruction works on, which must be initialised (R42, R101, R128, R219 (1)). -/
def needs : Instr → List SubBlock
  | .rbInit | .dxInit | .pdInit | .bfInit | .lpInit | .sysReset => []
  | .rbWrite _ | .rbRead | .rbIsEmpty | .rbWriteN _ | .rbReadN _ => [.rb]
  | .dxExtract _ | .positionReport _ => [.dx, .rb]
  | .dxReset | .sysRxReinit => [.dx]
  | .pdStep _ | .pdIdlePrintable _ | .pdIdleCr | .pdIdleLf | .pdIdleHeader | .pdIdleNoise _ | .pdInLine _ | .pdInBin _ =>
    [.pd, .bf, .lp]
  | .bfStep _ | .bfWaitHeaderHdr | .bfWaitHeaderOther _ | .bfReadIdsDevice _ | .bfReadIdsSystem _ | .bfReadIdsMsg _
  | .bfReadIdsSeq _ | .bfReadLenTooLong _ | .bfReadLenZero | .bfReadLenValid _ | .bfReadPayloadByte _
  | .bfReadPayloadLast _ | .bfReadChecksumMatch _ | .bfReadChecksumMismatch _ => [.bf]
  | .lpStep _ | .lpTermCr | .lpTermLf | .lpByteAppend _ | .lpByteOverflow _ => [.lp]
  | .consDrain => [.rb, .dx, .pd, .bf, .lp]
  | .frame _ _ _ _ _ _ | .line _ _ => [.pd, .bf, .lp]
  | .frameOk _ _ _ _ _ _ | .frameLenAbort _ | .frameCsumFail _ _ | .lineCmd _ _ _ | .lineUnknown _ => []

/-- How many producer steps serve these positions one after another, from `dx.last = q`: one to enter each, and, unless it is a no-op,
one for each byte and one for the end (R101, R106). -/
def serveSteps (h : Nat) : Nat → List Nat → Nat
  | _, [] => 0
  | q, p :: rest => (if p = q then 1 else (window h q p).length + 2) + serveSteps h (normalise h p) rest

/-- `k` steps, stopping at the first that gives no next state. -/
def runSteps : Nat → State → Out
  | 0, s => .next s
  | k + 1, s =>
    match step s with
    | .next t => runSteps k t
    | .fault f => .fault f
    | .refused r => .refused r

end Sys2Proof.Machine
end

