-- ==== Sys2Proof/Certificates/Slice0/Obligations.lean ====
section
/-! DEFINITION. The statements for the provers. Each says which rule of spec/ it formalises; OBLIGATIONS.json lists them. -/

open Sys2Proof Sys2Proof.Machine

/-! ### Encoding -/

/-- Decoding the encoding of a well-formed instruction gives it back: every row, every operand value (30_encoding.md). -/
def Obligations.DecodeInvertsEncode : Prop :=
  ∀ (c : Cfg) (i : Instr), c.valid = true → i.wf c = true → decode c (encode c i) = .ok i

/-- Whatever the decoder accepts is well formed (30_encoding.md sections 2 to 8). -/
def Obligations.DecodedIsWellFormed : Prop :=
  ∀ (c : Cfg) (code : Code) (i : Instr), c.valid = true → decode c code = .ok i → i.wf c = true

/-- Words written out from the spec's encodings under CFG_T (R71, R75, R76, R78, R79, R81, R82; V-EN-1, V-LP-1).
That decodeTableWord reads a bare 0x0D in the dispatcher's `Idle`, as PD.IDLE.LINE_START.CR, is the model's choice (log 17). -/
def Obligations.WrittenOutWordsDecode : Prop :=
  decode Cfg.cfgT (.port .rbWr 8 0b01000100) = .ok (.rbWrite 0x44) ∧
  decode Cfg.cfgT (.port .dxEvt 5 0b10000) = .ok (.dxExtract 16) ∧
  decode Cfg.cfgT (.wirePosition 5 0b00111) = .ok (.positionReport 7) ∧
  decode Cfg.cfgT (.port .sysReset 0 0) = .ok .sysReset ∧
  decode Cfg.cfgT (.wireFrame [0xA5, 0x01, 0x02, 0x51, 0x07, 0x02, 0xAA, 0xBB, 0x67]) =
    .ok (.frame 0x01 0x02 0x51 0x07 [0xAA, 0xBB] 0x67) ∧
  decode Cfg.cfgT (.wireLine [0x4C, 0x45, 0x44, 0x20, 0x4F, 0x4E, 0x0D]) =
    .ok (.line [0x4C, 0x45, 0x44, 0x20, 0x4F, 0x4E] 0x0D) ∧
  decodeTableWord 8 0b00001101 = some .pdIdleCr ∧
  decode Cfg.cfgT (.stream (.frameParser .readLen 3 0 0 0) 0b00000000) = .ok .bfReadLenZero ∧
  decode Cfg.cfgT (.stream (.lineParser 3) 0b00001010) = .ok .lpTermLf

/-- The dispatcher's classes in `Idle` (R76, R127): a line-start byte is printable, CR or LF; the three classes are disjoint and
cover all bytes; 97 line-start values, one header, 158 noise values. -/
def Obligations.ByteClassesOfIdle : Prop :=
  ∀ c : Cfg, c.valid = true →
    (∀ b : Byte,
      (isLineStart b = true ↔ (0x20 ≤ b.toNat ∧ b.toNat ≤ 0x7E) ∨ b = 0x0D ∨ b = 0x0A) ∧
      (isLineStart b = true ↔ pdClass c .idle b = .printable ∨ pdClass c .idle b = .cr ∨ pdClass c .idle b = .lf) ∧
      (b = c.hdr ↔ pdClass c .idle b = .header) ∧
      ((isLineStart b = false ∧ b ≠ c.hdr) ↔ pdClass c .idle b = .noise)) ∧
    ((List.range 256).filter (fun k => isLineStart (BitVec.ofNat 8 k))).length = 97 ∧
    ((List.range 256).filter (fun k => decide (pdClass c .idle (BitVec.ofNat 8 k) = .header))).length = 1 ∧
    ((List.range 256).filter (fun k => decide (pdClass c .idle (BitVec.ofNat 8 k) = .noise))).length = 158

/-! ### Ring Buffer -/

/-- RB.INIT (R90): both indices 0 and the flag set, nothing else; a second RB.INIT changes nothing more; the ring is empty. -/
def Obligations.RbInitEmptiesRing : Prop :=
  ∀ s : State, s.cfg.valid = true → s.producerQuiet = true → s.consumerQuiet = true →
    ∃ t, exec .rbInit s = .next t ∧
      t = { s with rb := { s.rb with wr := 0, rd := 0 }, inited := { s.inited with rb := true }, result := .none } ∧
      exec .rbInit t = .next t ∧ exec .rbIsEmpty t = .next { t with result := .empty true }

/-- RB.WRITE(b) (R91): on a full ring false and nothing else; otherwise the byte is stored at `rb.wr`, the index advances modulo
`N`, the result is true, and every other slot and every other register is as before. -/
def Obligations.RbWriteStoresUnlessFull : Prop :=
  ∀ (s : State) (b : Byte), Legal s → s.inited.rb = true →
    ((s.rb.wr + 1) % s.cfg.n = s.rb.rd → exec (.rbWrite b) s = .next { s with result := .ok false }) ∧
    ((s.rb.wr + 1) % s.cfg.n ≠ s.rb.rd →
      ∃ m, exec (.rbWrite b) s =
          .next { s with rb := { s.rb with wr := (s.rb.wr + 1) % s.cfg.n, data := m }, result := .ok true } ∧
        ∀ a, m.read a = if a = s.rb.wr then b else s.rb.data.read a)

/-- RB.READ() (R92): on an empty ring no byte and nothing else; otherwise the byte at `rb.rd`, which advances modulo `N`; no slot
changes. -/
def Obligations.RbReadTakesUnlessEmpty : Prop :=
  ∀ s : State, Legal s → s.inited.rb = true →
    (s.rb.wr = s.rb.rd → exec .rbRead s = .next { s with result := .read none }) ∧
    (s.rb.wr ≠ s.rb.rd →
      exec .rbRead s = .next { s with
        rb := { s.rb with rd := (s.rb.rd + 1) % s.cfg.n }, result := .read (some (s.rb.data.read s.rb.rd)) })

/-- RB.IS_EMPTY (R93) and the ring invariant (R24): the answer is whether the indices are equal, which is whether the occupancy
is 0; the ring is full iff the occupancy is `N - 1`, which it never exceeds; nothing changes. -/
def Obligations.RbIsEmptyAndOccupancy : Prop :=
  ∀ s : State, Legal s → s.inited.rb = true →
    exec .rbIsEmpty s = .next { s with result := .empty (decide (s.rb.wr = s.rb.rd)) } ∧
    (s.rb.wr = s.rb.rd ↔ occupancy s.cfg.n s.rb.wr s.rb.rd = 0) ∧
    ((s.rb.wr + 1) % s.cfg.n = s.rb.rd ↔ occupancy s.cfg.n s.rb.wr s.rb.rd = s.cfg.n - 1) ∧
    occupancy s.cfg.n s.rb.wr s.rb.rd ≤ s.cfg.n - 1 ∧
    (s.rb.rd + occupancy s.cfg.n s.rb.wr s.rb.rd) % s.cfg.n = s.rb.wr

/-- RB.WRITE_N(s) (R94), uninterrupted: the bytes that fit are stored in order and counted; the ring's older bytes, the read
index and everything outside the ring are as before; a slot outside the stored ones keeps its byte. -/
def Obligations.RbWriteNStoresWhatFits : Prop :=
  ∀ (s : State) (bs : Bytes), Legal s → s.inited.rb = true →
    ∃ t k, exec (.rbWriteN bs) s = .next t ∧ k = min bs.length (s.cfg.n - 1 - s.ringContents.length) ∧
      t.result = .stored k ∧ t.ringContents = s.ringContents ++ bs.take k ∧
      t = { s with rb := { s.rb with wr := (s.rb.wr + k) % s.cfg.n, data := t.rb.data }, result := t.result } ∧
      ∀ a, (∀ j, j < k → a ≠ (s.rb.wr + j) % s.cfg.n) → t.rb.data.read a = s.rb.data.read a

/-- RB.READ_N(n) (R94), uninterrupted: up to `n` bytes, oldest first; nothing but the read index changes. -/
def Obligations.RbReadNTakesOldest : Prop :=
  ∀ (s : State) (n : Nat), Legal s → s.inited.rb = true →
    ∃ t, exec (.rbReadN n) s = .next t ∧ t.result = .bytes (s.ringContents.take n) ∧
      t.ringContents = s.ringContents.drop n ∧
      t = { s with
        rb := { s.rb with rd := (s.rb.rd + min n s.ringContents.length) % s.cfg.n }, result := t.result }

/-- The FIFO and occupancy laws (R95, R96): after RB.INIT, any sequence of RB.WRITE and RB.READ calls completes; the bytes of
the successful writes are the bytes of the successful reads followed by what the ring holds; so their counts differ by the
occupancy, which is at most `N - 1`. -/
def Obligations.RingIsFifo : Prop :=
  ∀ (s t : State), Legal s → exec .rbInit s = .next t → ∀ ops : List (Option Byte),
    ∃ written returned u, ringRun ops t = some (written, returned, u) ∧
      written = returned ++ u.ringContents ∧
      written.length - returned.length = occupancy u.cfg.n u.rb.wr u.rb.rd ∧
      occupancy u.cfg.n u.rb.wr u.rb.rd ≤ u.cfg.n - 1

/-- Linearizability of one RB.WRITE and one RB.READ (R57, R58, R61): however their micro-steps interleave from a state of the
invariant, once both have returned, results and ring are those of the machine's RB.WRITE and RB.READ, performed in one order or the
other, and these change nothing else. That the micro-steps see one memory in one order is the model's premise (log 18). -/
def Obligations.RingOpsLinearize : Prop :=
  ∀ (s : State) (b : Byte) (order : List Bool) (ok : Bool) (got : Option Byte) (r : RingBuffer),
    Legal s → s.inited.rb = true →
    microRun s.cfg.n b order .start .start s.rb = (.finished ok, .finished got, r) →
      (∃ t, exec (.rbWrite b) s = .next t ∧ t.result = .ok ok ∧
        exec .rbRead t = .next { s with rb := r, result := .read got }) ∨
      (∃ t, exec .rbRead s = .next t ∧ t.result = .read got ∧
        exec (.rbWrite b) t = .next { s with rb := r, result := .ok ok })

/-! ### DMA Window Extractor -/

/-- DX.INIT (R100) writes position, drop counter, wake flag and its `inited` flag, and a DX.EXTRACT(0) that follows is a no-op; DX.RESET
(R105) writes the position only; SYS.RX_REINIT (R182) restarts the receiver at position 0 and does the same, in one step; PD.INIT (R120),
BF.INIT (R140) and LP.INIT (R160) write what their rules list. No other register, array, counter or flag changes; DX.INIT, DX.RESET,
SYS.RX_REINIT and DX.EXTRACT also write the receiver's count of unreported bytes, the model's own field (log 7). -/
def Obligations.ResetsAndInits : Prop :=
  ∀ s : State, s.cfg.valid = true →
    (s.producerQuiet = true →
      (∃ t, exec .dxInit s = .next t ∧
        t = { s with dx := { last := 0, drops := 0, wake := false }, inited := { s.inited with dx := true },
                     rx := { s.rx with unreported := (s.rx.pos + s.cfg.h) % s.cfg.h }, result := .none } ∧
        (s.inited.rb = true → exec (.dxExtract 0) t = .next t)) ∧
      (s.inited.dx = true →
        exec .dxReset s =
          .next { s with dx := { s.dx with last := 0 },
                         rx := { s.rx with unreported := (s.rx.pos + s.cfg.h) % s.cfg.h }, result := .none } ∧
        exec .sysRxReinit s =
          .next { s with dx := { s.dx with last := 0 }, rx := { s.rx with pos := 0, unreported := 0 },
                         result := .none })) ∧
    (s.consumerQuiet = true →
      exec .pdInit s = .next { s with pd := { state := .idle }, inited := { s.inited with pd := true }, result := .none } ∧
      exec .bfInit s =
        .next { s with bf := { s.bf with state := .waitHeader, idx := 0 }, inited := { s.inited with bf := true },
                       result := .none } ∧
      exec .lpInit s =
        .next { s with lp := { s.lp with cur := 0 }, inited := { s.inited with lp := true }, result := .none })

/-- The window of an extraction (R103, R251): how many indices, which, in which order, at most `H` of them. -/
def Obligations.ExtractionWindow : Prop :=
  ∀ h q p : Nat, q < h → p ≤ h →
    (window h q p).length = (if p = q then 0 else if q < p then p - q else h - q + p) ∧
    (p < h → (window h q p).length = (p + h - q) % h) ∧
    (window h q p).length ≤ h ∧
    ∀ j, j < (window h q p).length → (window h q p)[j]? = some ((q + j) % h)

/-- DX.EXTRACT(p) (R101, R102, R103, R107), uninterrupted and with no report waiting: with `p = dx.last` no state of the block
changes; otherwise the bytes of the window are pushed in order, those that fit are stored, the others counted, saturating; the
position is `p`, `H` normalised to 0; the wake flag is set; `HWBUF`, the read index and everything outside ring and extractor are
as before, but for the receiver's count of unreported bytes, the model's own field (log 7); a ring slot outside the stored ones
keeps its byte. Reports that wait are served first, oldest first, then `p`, in one run: the model's choice (log 29); the run
completes and writes ring, extractor, that list and that count only. -/
def Obligations.DxExtractPushesWindow : Prop :=
  ∀ (s : State) (p : Nat), Legal s → s.inited.dx = true → s.inited.rb = true → s.producer = .quiescent → p ≤ s.cfg.h →
    (∀ q rest, s.reports = q :: rest →
      ∃ u t, exec (.dxExtract q) { s with reports := [] } = .next u ∧
        exec (.dxExtract p) { u with reports := rest } = .next t ∧ exec (.dxExtract p) s = .next t ∧
        t = { s with rb := { s.rb with wr := t.rb.wr, data := t.rb.data }, dx := t.dx, reports := [],
                     rx := { s.rx with unreported := (s.rx.pos + s.cfg.h - p) % s.cfg.h }, result := .none }) ∧
    (s.reports = [] → p = s.dx.last →
      exec (.dxExtract p) s =
        .next { s with rx := { s.rx with unreported := (s.rx.pos + s.cfg.h - p) % s.cfg.h }, result := .none }) ∧
    (s.reports = [] → p ≠ s.dx.last →
      ∃ t k d, exec (.dxExtract p) s = .next t ∧
        k + d = (if s.dx.last < p then p - s.dx.last else s.cfg.h - s.dx.last + p) ∧
        (p < s.cfg.h → k + d = (p + s.cfg.h - s.dx.last) % s.cfg.h) ∧
        (∀ j, j < k + d → (s.windowBytes p)[j]? = some (s.rx.hwbuf.read ((s.dx.last + j) % s.cfg.h))) ∧
        k = min (s.windowBytes p).length (s.cfg.n - 1 - s.ringContents.length) ∧
        t.ringContents = s.ringContents ++ (s.windowBytes p).take k ∧
        t.dx = { last := if p = s.cfg.h then 0 else p, drops := min (s.dx.drops + d) (2 ^ s.cfg.w - 1), wake := true } ∧
        t = { s with rb := { s.rb with wr := (s.rb.wr + k) % s.cfg.n, data := t.rb.data }, dx := t.dx,
                     rx := { s.rx with unreported := (s.rx.pos + s.cfg.h - p) % s.cfg.h }, result := .none } ∧
        ∀ a, (∀ j, j < k → a ≠ (s.rb.wr + j) % s.cfg.n) → t.rb.data.read a = s.rb.data.read a)

/-- The round trip (R104): with no report waiting, an empty ring and a window of at most `N - 1` bytes, DX.EXTRACT(p) and then one
RB.READ per byte give the bytes of `HWBUF` in order; the next RB.READ finds the ring empty; the drop counter is unchanged. -/
def Obligations.ExtractThenReadRoundTrip : Prop :=
  ∀ (s : State) (p : Nat), Legal s → s.inited.dx = true → s.inited.rb = true → s.producerQuiet = true → p ≤ s.cfg.h →
    s.rb.wr = s.rb.rd → (s.windowBytes p).length ≤ s.cfg.n - 1 →
    ∃ t u, exec (.dxExtract p) s = .next t ∧ t.dx.drops = s.dx.drops ∧
      ringRun (List.replicate (s.windowBytes p).length none) t = some ([], s.windowBytes p, u) ∧
      exec .rbRead u = .next { u with result := .read none }

/-- POSITION_REPORT p (R109, R208; the waiting list is the model's, log 10): a free producer enters DX.EXTRACT(p) with the window
it will push, or does nothing when the position has not moved; otherwise the report waits behind the others; the count of unreported
bytes is the model's own (log 7). What DX.EXTRACT and POSITION_REPORT stop on (R81, R109, R219 (3), (5)): a position above `H`; for
DX.EXTRACT also an extraction that still runs. That DX.EXTRACT inside RB.WRITE_N is refused as a second context is inferred from
R219 (2) (log 14). -/
def Obligations.PositionReportsAndRefusals : Prop :=
  ∀ (s : State) (p : Nat), s.cfg.valid = true → s.inited.dx = true → s.inited.rb = true →
    (p ≤ s.cfg.h →
      ∃ r, r = { s.rx with unreported := (s.rx.pos + s.cfg.h - p) % s.cfg.h } ∧
        (s.producerQuiet = true → p = s.dx.last →
          exec (.positionReport p) s = .next { s with rx := r, result := .none }) ∧
        (s.producerQuiet = true → p ≠ s.dx.last →
          exec (.positionReport p) s =
            .next { s with rx := r, producer := .extracting p (window s.cfg.h s.dx.last p), result := .none }) ∧
        (s.producerQuiet = false →
          exec (.positionReport p) s = .next { s with rx := r, reports := s.reports ++ [p], result := .none })) ∧
    (s.cfg.h < p → exec (.dxExtract p) s = .refused .positionAboveCapacity ∧
      exec (.positionReport p) s = .refused .positionAboveCapacity) ∧
    (∀ q todo, p ≤ s.cfg.h → s.producer = .extracting q todo →
      exec (.dxExtract p) s = .refused .overlappingExtraction) ∧
    (∀ todo k, p ≤ s.cfg.h → s.producer = .writing todo k →
      exec (.dxExtract p) s = .refused (.secondContext .producer))

/-! ### The agents' own steps -/

/-- What one step of the producer does, from every state of the invariant. Inside DX.EXTRACT(p): the byte of the next index is pushed,
stored when there is room and counted as dropped otherwise (R101, R102, R106); with none left the extraction ends: position, wake flag
(R101, R107). Free: the oldest waiting report is entered (R109; the list is the model's, log 10), a report at `dx.last` being a no-op;
with none waiting nothing happens. Inside RB.WRITE_N (R84, R94): the next RB.WRITE; after the last one or a failed one, the count.
Entering RB.WRITE_N starts at count 0. Nothing else changes. -/
def Obligations.ProducerStepEffect : Prop :=
  ∀ (s : State) (rest : List Act), Legal s → s.inited.dx = true → s.inited.rb = true →
    (s.sched = .producer :: rest →
      (∀ p i todo, s.producer = .extracting p (i :: todo) →
        ((s.rb.wr + 1) % s.cfg.n ≠ s.rb.rd →
          ∃ m, step s = .next { s with
              rb := { s.rb with wr := (s.rb.wr + 1) % s.cfg.n, data := m }, producer := .extracting p todo,
              result := .none, sched := rest } ∧
            ∀ a, m.read a = if a = s.rb.wr then s.rx.hwbuf.read i else s.rb.data.read a) ∧
        ((s.rb.wr + 1) % s.cfg.n = s.rb.rd →
          step s = .next { s with
              dx := { s.dx with drops := min (s.dx.drops + 1) (2 ^ s.cfg.w - 1) }, producer := .extracting p todo,
              result := .none, sched := rest })) ∧
      (∀ p, s.producer = .extracting p [] →
        step s = .next { s with
            dx := { s.dx with last := if p = s.cfg.h then 0 else p, wake := true }, producer := .quiescent,
            result := .none, sched := rest }) ∧
      (∀ p ps, s.producer = .quiescent → s.reports = p :: ps →
        step s = .next { s with
            reports := ps,
            producer := if p = s.dx.last then .quiescent else .extracting p (window s.cfg.h s.dx.last p),
            result := .none, sched := rest }) ∧
      (s.producer = .quiescent → s.reports = [] → step s = .next { s with sched := rest }) ∧
      (∀ b todo k, s.producer = .writing (b :: todo) k →
        ((s.rb.wr + 1) % s.cfg.n ≠ s.rb.rd →
          ∃ m, step s = .next { s with
              rb := { s.rb with wr := (s.rb.wr + 1) % s.cfg.n, data := m }, producer := .writing todo (k + 1),
              result := .ok true, sched := rest } ∧
            ∀ a, m.read a = if a = s.rb.wr then b else s.rb.data.read a) ∧
        ((s.rb.wr + 1) % s.cfg.n = s.rb.rd →
          step s = .next { s with producer := .quiescent, result := .stored k, sched := rest })) ∧
      (∀ k, s.producer = .writing [] k →
        step s = .next { s with producer := .quiescent, result := .stored k, sched := rest })) ∧
    ∀ bs, enter (.rbWriteN bs) s = .next { s with producer := .writing bs 0, result := .none }

/-- The producer's operations step by step (R84, R94, R106): DX.EXTRACT entered by POSITION_REPORT, or started by the producer itself,
takes one step per byte and one for the end; RB.WRITE_N started takes one step per byte stored and one for the return. With nothing
in between each comes to what the row does uninterrupted; so does a DX.EXTRACT started while reports wait, behind which it is served
(logs 10, 29). -/
def Obligations.ProducerStepsMakeWholeRuns : Prop :=
  ∀ (s : State) (rest : List Act), Legal s → s.inited.dx = true → s.inited.rb = true → s.producer = .quiescent →
    (∀ p, p ≤ s.cfg.h → p ≠ s.dx.last → s.reports = [] →
      (s.sched = List.replicate ((window s.cfg.h s.dx.last p).length + 1) Act.producer ++ rest →
        ∃ u t, exec (.positionReport p) s = .next u ∧
          runSteps ((window s.cfg.h s.dx.last p).length + 1) u = .next t ∧
          exec (.dxExtract p) { s with sched := rest } = .next t) ∧
      (s.sched = .start .producer (encode s.cfg (.dxExtract p)) ::
          List.replicate ((window s.cfg.h s.dx.last p).length + 1) Act.producer ++ rest →
        ∃ t, runSteps ((window s.cfg.h s.dx.last p).length + 2) s = .next t ∧
          exec (.dxExtract p) { s with sched := rest } = .next t)) ∧
    (∀ p, p ≤ s.cfg.h → s.reports ≠ [] →
      s.sched = .start .producer (encode s.cfg (.dxExtract p)) ::
          List.replicate (serveSteps s.cfg.h s.dx.last (s.reports ++ [p])) Act.producer ++ rest →
      ∃ t, runSteps (serveSteps s.cfg.h s.dx.last (s.reports ++ [p]) + 1) s = .next t ∧
        exec (.dxExtract p) { s with sched := rest } = .next t) ∧
    ∀ (bs : Bytes) (k : Nat), k = min bs.length (s.cfg.n - 1 - s.ringContents.length) →
      s.sched = .start .producer (.writeN bs) :: List.replicate (k + 1) Act.producer ++ rest →
      ∃ t, runSteps (k + 2) s = .next t ∧ exec (.rbWriteN bs) { s with sched := rest } = .next t

/-- What one step of the consumer does, from every state of the invariant. At the wait: blocked without the wake flag, awake with it,
the flag cleared (R180, R218). In the drain: RB.READ, whose byte is held for PD.STEP, or the end of the drain when the ring is empty;
with a byte held, PD.STEP on it (R128, R180). Inside RB.READ_N (R84, R94): the next RB.READ; after the last one or a failed one, the
bytes. Entering RB.READ_N starts with no byte. Nothing else changes. -/
def Obligations.ConsumerStepEffect : Prop :=
  ∀ (s : State) (rest : List Act), Legal s → s.allInited →
    (s.sched = .consumer :: rest →
      (s.consumer = .waiting → s.dx.wake = false → step s = .next { s with sched := rest }) ∧
      (s.consumer = .waiting → s.dx.wake = true →
        step s = .next { s with
            dx := { s.dx with wake := false }, consumer := .draining none, result := .none, sched := rest }) ∧
      (s.consumer = .draining none → s.rb.wr = s.rb.rd →
        step s = .next { s with consumer := .waiting, result := .none, sched := rest }) ∧
      (s.consumer = .draining none → s.rb.wr ≠ s.rb.rd →
        step s = .next { s with
            rb := { s.rb with rd := (s.rb.rd + 1) % s.cfg.n },
            consumer := .draining (some (s.rb.data.read s.rb.rd)), result := .none, sched := rest }) ∧
      (∀ b, s.consumer = .draining (some b) →
        ∃ t, exec (.pdStep b) { s with consumer := .draining none, sched := rest } = .next t ∧ step s = .next t) ∧
      (∀ left got, s.consumer = .reading (left + 1) got → s.rb.wr ≠ s.rb.rd →
        step s = .next { s with
            rb := { s.rb with rd := (s.rb.rd + 1) % s.cfg.n },
            consumer := .reading left (got ++ [s.rb.data.read s.rb.rd]),
            result := .read (some (s.rb.data.read s.rb.rd)), sched := rest }) ∧
      (∀ left got, s.consumer = .reading left got → left = 0 ∨ s.rb.wr = s.rb.rd →
        step s = .next { s with consumer := .waiting, result := .bytes got, sched := rest })) ∧
    ∀ n, enter (.rbReadN n) s = .next { s with consumer := .reading n [], result := .none }

/-! ### Dispatcher -/

/-- PD.STEP, BF.STEP and LP.STEP run the row the byte is in the present state (R78, R79, R128, R141, R163). -/
def Obligations.ByteStepsRunTheirRow : Prop :=
  ∀ (s : State) (b : Byte),
    exec (.pdStep b) s = exec (decodeStream s.cfg (.dispatcher s.pd.state) b) s ∧
    exec (.bfStep b) s =
      exec (decodeStream s.cfg (.frameParser s.bf.state s.bf.idx s.bf.pcur s.bf.len s.bf.csum) b) s ∧
    exec (.lpStep b) s = exec (decodeStream s.cfg (.lineParser s.lp.cur) b) s

/-- PD.STEP(b) (R128, R126, R210): from every state of the invariant it completes, emits at most one event, and changes nothing
but dispatcher, parsers and trace; at most one of the two parsers changes. -/
def Obligations.PdStepCompletesWithFrame : Prop :=
  ∀ (s : State) (b : Byte), Legal s → s.parsersInited →
    ∃ t es, exec (.pdStep b) s = .next t ∧ es.length ≤ 1 ∧
      t = { s with pd := t.pd, bf := t.bf, lp := t.lp, trace := s.trace ++ es, result := .none } ∧
      (t.bf = s.bf ∨ t.lp = s.lp)

/-- A line-start byte in `Idle` (R121): the dispatcher is in `InLineFrame`, LP.STEP runs on the byte, and the dispatcher is back in
`Idle` if it reports completion; CR and LF always complete. -/
def Obligations.PdLineStartRows : Prop :=
  ∀ (s : State) (b : Byte), Legal s → s.parsersInited → s.pd.state = .idle → isLineStart b = true →
    ∃ u d t, exec (.lpStep b) { s with pd := { state := .inLineFrame } } = .next u ∧ u.result = .done d ∧
      t = { u with pd := { state := if d then .idle else .inLineFrame }, result := .none } ∧
      (d = true ↔ b = 0x0D ∨ b = 0x0A) ∧
      (isPrintable b = true → exec (.pdIdlePrintable b) s = .next t) ∧
      (b = 0x0D → exec .pdIdleCr s = .next t) ∧
      (b = 0x0A → exec .pdIdleLf s = .next t)

/-- In `Idle`, `HDR` and noise (R122, R123). On `HDR` the dispatcher is in `InBinaryFrame` and BF.STEP runs on the byte; its
completion is honoured; with the frame parser in `WaitHeader` it does not complete. On a noise byte no state changes, there is no
event and no counter. -/
def Obligations.PdHeaderAndNoiseRows : Prop :=
  ∀ s : State, Legal s → s.parsersInited → s.pd.state = .idle →
    (∃ u d, exec (.bfStep s.cfg.hdr) { s with pd := { state := .inBinaryFrame } } = .next u ∧ u.result = .done d ∧
      exec .pdIdleHeader s =
        .next { u with pd := { state := if d then .idle else .inBinaryFrame }, result := .none } ∧
      (s.bf.state = .waitHeader → d = false)) ∧
    ∀ b : Byte, isLineStart b = false → b ≠ s.cfg.hdr → exec (.pdIdleNoise b) s = .next { s with result := .none }

/-- Any byte in `InLineFrame` (R124) and in `InBinaryFrame` (R125): the state's parser runs on it, and the dispatcher is in `Idle`
iff it reports completion: the line parser on CR and LF, the frame parser on a length abort and on a checksum byte. -/
def Obligations.PdInFrameRows : Prop :=
  ∀ (s : State) (b : Byte), Legal s → s.parsersInited →
    (s.pd.state = .inLineFrame →
      ∃ u d, exec (.lpStep b) s = .next u ∧ u.result = .done d ∧ (d = true ↔ b = 0x0D ∨ b = 0x0A) ∧
        exec (.pdInLine b) s =
          .next { u with pd := { state := if d then .idle else .inLineFrame }, result := .none }) ∧
    (s.pd.state = .inBinaryFrame →
      ∃ u d, exec (.bfStep b) s = .next u ∧ u.result = .done d ∧
        (d = true ↔ (s.bf.state = .readLen ∧ s.cfg.maxp ≤ b.toNat) ∨ s.bf.state = .readChecksum) ∧
        exec (.pdInBin b) s =
          .next { u with pd := { state := if d then .idle else .inBinaryFrame }, result := .none })

/-! ### Frame parser -/

/-- BF.STEP in `WaitHeader` (R142) and in `ReadIds` (R143): the header marker starts the accumulator, any other byte is discarded;
the four ID bytes go to their registers in order, each added to the accumulator, the fourth leading to `ReadLen`. -/
def Obligations.BfHeaderAndIdRows : Prop :=
  ∀ (s : State) (b : Byte), s.cfg.valid = true → s.inited.bf = true →
    (s.bf.state = .waitHeader →
      exec .bfWaitHeaderHdr s =
        .next { s with bf := { s.bf with csum := s.cfg.hdr, idx := 0, state := .readIds }, result := .done false } ∧
      (b ≠ s.cfg.hdr → exec (.bfWaitHeaderOther b) s = .next { s with result := .done false })) ∧
    (s.bf.state = .readIds →
      (s.bf.idx = 0 → exec (.bfReadIdsDevice b) s =
        .next { s with bf := { s.bf with dev := b, csum := s.bf.csum + b, idx := 1 }, result := .done false }) ∧
      (s.bf.idx = 1 → exec (.bfReadIdsSystem b) s =
        .next { s with bf := { s.bf with sys := b, csum := s.bf.csum + b, idx := 2 }, result := .done false }) ∧
      (s.bf.idx = 2 → exec (.bfReadIdsMsg b) s =
        .next { s with bf := { s.bf with msg := b, csum := s.bf.csum + b, idx := 3 }, result := .done false }) ∧
      (s.bf.idx = 3 → exec (.bfReadIdsSeq b) s =
        .next { s with bf := { s.bf with seq := b, csum := s.bf.csum + b, state := .readLen }, result := .done false }))

/-- BF.STEP in `ReadLen` (R144, R203): at or above `MAXP` the frame is aborted with its event; 0 goes to the checksum; any other
length to the payload with the cursor at 0. -/
def Obligations.BfReadLenRows : Prop :=
  ∀ (s : State) (b : Byte), s.cfg.valid = true → s.inited.bf = true → s.bf.state = .readLen →
    (s.cfg.maxp ≤ b.toNat → exec (.bfReadLenTooLong b) s =
      .next { s with bf := { s.bf with len := b, csum := s.bf.csum + b, state := .waitHeader },
                     trace := s.trace ++ [.frameLenAbort b], result := .done true }) ∧
    exec .bfReadLenZero s =
      .next { s with bf := { s.bf with len := 0, csum := s.bf.csum, state := .readChecksum }, result := .done false } ∧
    (b.toNat < s.cfg.maxp → b ≠ 0 → exec (.bfReadLenValid b) s =
      .next { s with bf := { s.bf with len := b, csum := s.bf.csum + b, pcur := 0, state := .readPayload },
                     result := .done false })

/-- BF.STEP in `ReadPayload` (R145): the byte is stored at the cursor, added and counted; the last one leads to the checksum;
every other element of `PAYLOAD` and every other register is as before. -/
def Obligations.BfReadPayloadRows : Prop :=
  ∀ (s : State) (b : Byte), Legal s → s.inited.bf = true → s.bf.state = .readPayload →
    ∃ m, (∀ a, m.read a = if a = s.bf.pcur then b else s.bf.payload.read a) ∧
      (s.bf.pcur + 1 < s.bf.len.toNat → exec (.bfReadPayloadByte b) s =
        .next { s with bf := { s.bf with payload := m, csum := s.bf.csum + b, pcur := s.bf.pcur + 1 },
                       result := .done false }) ∧
      (s.bf.pcur + 1 = s.bf.len.toNat → exec (.bfReadPayloadLast b) s =
        .next { s with bf := { s.bf with payload := m, csum := s.bf.csum + b, pcur := s.bf.pcur + 1,
                                         state := .readChecksum },
                       result := .done false })

/-- BF.STEP in `ReadChecksum` (R146, R204): on equality the frame is delivered with its fields and `PAYLOAD[0 .. bf.len)`,
otherwise the mismatch is reported with both values; in either case the parser is in `WaitHeader` and `done` is true. -/
def Obligations.BfReadChecksumRows : Prop :=
  ∀ (s : State) (b : Byte), Legal s → s.inited.bf = true → s.bf.state = .readChecksum →
    (b = s.bf.csum → exec (.bfReadChecksumMatch b) s =
      .next { s with bf := { s.bf with state := .waitHeader },
                     trace := s.trace ++ [.frameOk s.bf.dev s.bf.sys s.bf.msg s.bf.seq s.bf.len
                       ((List.range s.bf.len.toNat).map (fun a => s.bf.payload.read a))],
                     result := .done true }) ∧
    (b ≠ s.bf.csum → exec (.bfReadChecksumMismatch b) s =
      .next { s with bf := { s.bf with state := .waitHeader },
                     trace := s.trace ++ [.frameCsumFail s.bf.csum b], result := .done true })

/-- The result law of BF.STEP (R141): it completes; true exactly on a length abort and on a checksum byte, then with the parser
in `WaitHeader` and exactly one event; false otherwise, with no event; nothing outside the frame parser and the trace changes. -/
def Obligations.BfStepResultLaw : Prop :=
  ∀ (s : State) (b : Byte), Legal s → s.inited.bf = true →
    ∃ t d es, exec (.bfStep b) s = .next t ∧
      t = { s with bf := t.bf, trace := s.trace ++ es, result := .done d } ∧
      (d = true ↔ (s.bf.state = .readLen ∧ s.cfg.maxp ≤ b.toNat) ∨ s.bf.state = .readChecksum) ∧
      (d = true → t.bf.state = .waitHeader ∧ es.length = 1) ∧ (d = false → es = [])

/-! ### Line parser -/

/-- A line terminator (R161): with an empty line nothing is executed; otherwise NUL is stored at the cursor and the line
`LINE[0 .. lp.cur)` is executed: its event is the found handler's or the unknown-command report; the cursor is 0; every other
element of `LINE` is as before. CR and LF are treated identically. -/
def Obligations.LpTerminatorRows : Prop :=
  ∀ (s : State) (i : Instr), Legal s → s.inited.lp = true → i = .lpTermCr ∨ i = .lpTermLf →
    (s.lp.cur = 0 → exec i s = .next { s with result := .done true }) ∧
    (0 < s.lp.cur →
      ∃ m cmd arg, tokenize s.cfg.isWs ((List.range s.lp.cur).map (fun a => s.lp.buf.read a)) = (cmd, arg) ∧
        exec i s =
          .next { s with lp := { cur := 0, buf := m },
                         trace := s.trace ++ [match lookup s.cfg.cmds cmd with
                           | some k => .lineCmd k cmd arg
                           | none => .lineUnknown cmd],
                         result := .done true } ∧
        ∀ a, m.read a = if a = s.lp.cur then 0x00 else s.lp.buf.read a)

/-- A byte that is no terminator (R162, R202): appended while space remains, whatever its value; on a full buffer the cursor is
0 and the byte is gone, without an event. -/
def Obligations.LpByteRows : Prop :=
  ∀ (s : State) (b : Byte), Legal s → s.inited.lp = true → b ≠ 0x0D → b ≠ 0x0A →
    (s.lp.cur < s.cfg.l - 1 →
      ∃ m, exec (.lpByteAppend b) s =
          .next { s with lp := { cur := s.lp.cur + 1, buf := m }, result := .done false } ∧
        ∀ a, m.read a = if a = s.lp.cur then b else s.lp.buf.read a) ∧
    (s.lp.cur = s.cfg.l - 1 →
      exec (.lpByteOverflow b) s = .next { s with lp := { s.lp with cur := 0 }, result := .done false })

/-- The result law of LP.STEP (R163, R167): it completes; `done` iff the byte is CR or LF; the cursor stays below `L`; at most one
event; nothing outside the line parser and the trace changes. -/
def Obligations.LpStepResultLaw : Prop :=
  ∀ (s : State) (b : Byte), Legal s → s.inited.lp = true →
    ∃ t d es, exec (.lpStep b) s = .next t ∧
      t = { s with lp := t.lp, trace := s.trace ++ es, result := .done d } ∧
      (d = true ↔ b = 0x0D ∨ b = 0x0A) ∧ t.lp.cur ≤ s.cfg.l - 1 ∧ es.length ≤ 1 ∧ (d = true → t.lp.cur = 0)

/-- Tokenize (R164): the command is the bytes before the first whitespace byte, the argument all bytes after it, absent without
one. -/
def Obligations.TokenizeSplitsAtFirstWhitespace : Prop :=
  ∀ (isWs : Byte → Bool) (s cmd : Bytes) (arg : Option Bytes), tokenize isWs s = (cmd, arg) ↔
    (∀ b ∈ cmd, isWs b = false) ∧
    match arg with
    | none => s = cmd
    | some a => ∃ w, isWs w = true ∧ s = cmd ++ w :: a

/-- Lookup (R165): the least position that holds exactly the command; absent if there is none; with unique names, the only
one. -/
def Obligations.LookupFindsExactName : Prop :=
  ∀ (table : List Bytes) (cmd : Bytes),
    (∀ k, lookup table cmd = some k ↔ table[k]? = some cmd ∧ ∀ j, j < k → table[j]? ≠ some cmd) ∧
    (lookup table cmd = none ↔ cmd ∉ table) ∧
    (namesUnique table = true → ∀ k, table[k]? = some cmd → lookup table cmd = some k)

/-- The cursor law (R166): after `m` bytes that are no terminators, from an empty line, the cursor is `m mod L` and the buffer
holds the last `m mod L` of them; a terminator then executes those as a line, and nothing if there are none. -/
def Obligations.LineCursorLaw : Prop :=
  ∀ (s : State) (bs : Bytes) (term : Byte), Legal s → s.inited.lp = true → s.lp.cur = 0 →
    (∀ b ∈ bs, isTerm b = false) → isTerm term = true →
    ∃ t u, feed .lpStep bs s = .next t ∧ t.lp.cur = bs.length % s.cfg.l ∧
      (List.range t.lp.cur).map (fun a => t.lp.buf.read a) = bs.drop (bs.length - bs.length % s.cfg.l) ∧
      t.trace = s.trace ∧ exec (.lpStep term) t = .next u ∧
      u.trace = s.trace ++ (if bs.length % s.cfg.l = 0 then []
        else [lineEvent s.cfg (bs.drop (bs.length - bs.length % s.cfg.l))])

/-! ### Wire formats -/

/-- FRAME and LINE: from every state of the invariant each completes, and is its bytes, as R71 and R75 lay them out, through PD.STEP
one by one. That exec of a wire row is its bytes through PD.STEP, from whatever state, is the model's choice (log 27): the table gives
these rows no operation of their own. -/
def Obligations.WireUnitsAreTheirBytes : Prop :=
  ∀ (s : State) (dev sys msg seq csum term : Byte) (payload text : Bytes), Legal s → s.parsersInited →
    (∃ t, exec (.frame dev sys msg seq payload csum) s = .next t ∧
      feed .pdStep ([s.cfg.hdr, dev, sys, msg, seq, BitVec.ofNat 8 payload.length] ++ payload ++ [csum]) s = .next t) ∧
    (∃ t, exec (.line text term) s = .next t ∧ feed .pdStep (text ++ [term]) s = .next t)

/-- The frame round trip (R72, R86, R150): from `Idle` and `WaitHeader`, a frame with a legal length and a correct checksum yields
exactly one FrameOk with its field values; with any other checksum exactly one FrameCsumFail with the computed and the received
value; afterwards dispatcher and parser are in `Idle` and `WaitHeader`; ring, extractor, line parser and the rest are as before;
`PAYLOAD` changes only below the payload's length. -/
def Obligations.FrameRoundTrip : Prop :=
  ∀ (s : State) (dev sys msg seq csum : Byte) (payload : Bytes), Legal s → s.parsersInited →
    s.pd.state = .idle → s.bf.state = .waitHeader → payload.length < s.cfg.maxp →
    ∃ t, exec (.frame dev sys msg seq payload csum) s = .next t ∧
      t = { s with bf := t.bf, result := .none,
                   trace := s.trace ++ [
                     if csum = csum8 ([s.cfg.hdr, dev, sys, msg, seq, BitVec.ofNat 8 payload.length] ++ payload)
                     then .frameOk dev sys msg seq (BitVec.ofNat 8 payload.length) payload
                     else .frameCsumFail
                       (csum8 ([s.cfg.hdr, dev, sys, msg, seq, BitVec.ofNat 8 payload.length] ++ payload)) csum] } ∧
      t.bf.state = .waitHeader ∧
      ∀ a, payload.length ≤ a → t.bf.payload.read a = s.bf.payload.read a

/-- The length guard on the wire (R74, R80 (c), R242): a frame with LEN at or above `MAXP` is aborted at its sixth byte, with its
event; the bytes after LEN are ordinary stream bytes, read afresh from `Idle`. -/
def Obligations.OverlongFrameIsCutAtLen : Prop :=
  ∀ (s : State) (dev sys msg seq csum : Byte) (payload : Bytes), Legal s → s.parsersInited →
    s.pd.state = .idle → s.bf.state = .waitHeader → s.cfg.maxp ≤ payload.length → payload.length ≤ 255 →
    ∃ u t, feed .pdStep [s.cfg.hdr, dev, sys, msg, seq, BitVec.ofNat 8 payload.length] s = .next u ∧
      u = { s with bf := u.bf, result := .none, trace := s.trace ++ [.frameLenAbort (BitVec.ofNat 8 payload.length)] } ∧
      u.bf.state = .waitHeader ∧ u.bf.payload = s.bf.payload ∧
      feed .pdStep (payload ++ [csum]) u = .next t ∧
      exec (.frame dev sys msg seq payload csum) s = .next t

/-- A line on the wire (R75, R85, R161): from `Idle` with an empty line, a text of 1 to `L - 1` bytes that begins with a printable
byte, closed by CR or LF, is executed whole: exactly one event, its handler's or the unknown-command report. An empty text yields
none. Everything but the line parser's buffer is as before. -/
def Obligations.LineIsExecutedWhole : Prop :=
  ∀ (s : State) (text : Bytes) (term : Byte), Legal s → s.parsersInited → s.pd.state = .idle → s.lp.cur = 0 →
    (∀ b ∈ text, isTerm b = false) → isTerm term = true → text.length ≤ s.cfg.l - 1 →
    (∀ b, text.head? = some b → isPrintable b = true) →
    ∃ t, exec (.line text term) s = .next t ∧ t.lp.cur = 0 ∧
      t = { s with lp := t.lp, result := .none,
                   trace := s.trace ++ (if text = [] then [] else [lineEvent s.cfg text]) }

/-! ### Consumer and system -/

/-- CONS.DRAIN (R180, R218), uninterrupted: blocked without the flag; otherwise the flag is cleared, every byte of the ring goes
through PD.STEP, oldest first, the ring is empty and the consumer waits; ring slots, write index, extractor position and drop
counter, receiver and producer are as before. -/
def Obligations.ConsDrainFeedsWholeRing : Prop :=
  ∀ s : State, Legal s → s.allInited → s.consumer = .waiting →
    (s.dx.wake = false → exec .consDrain s = .next s) ∧
    (s.dx.wake = true →
      ∃ t u, exec .consDrain s = .next t ∧ feed .pdStep s.ringContents s = .next u ∧
        t = { s with pd := u.pd, bf := u.bf, lp := u.lp, trace := u.trace, rb := { s.rb with rd := s.rb.wr },
                     dx := { s.dx with wake := false }, consumer := .waiting, result := .none })

/-- The consumer's operations step by step (R84, R94, R180): the drain takes one step to wake, entered or not, one RB.READ and one PD.STEP
per byte, and one RB.READ that fails; RB.READ_N started takes one step per byte read and one for the return. With nothing in
between each comes to what the row does uninterrupted. -/
def Obligations.ConsumerStepsMakeWholeRuns : Prop :=
  ∀ (s : State) (rest : List Act), Legal s → s.allInited → s.consumer = .waiting →
    (∀ first, first = Act.consumer ∨ first = Act.start .consumer (encode s.cfg .consDrain) → s.dx.wake = true →
      s.sched = first :: List.replicate (2 * s.ringContents.length + 1) Act.consumer ++ rest →
      ∃ t, runSteps (2 * s.ringContents.length + 2) s = .next t ∧
        exec .consDrain { s with sched := rest } = .next t) ∧
    ∀ n : Nat,
      s.sched = .start .consumer (.readN n) ::
        List.replicate (min n s.ringContents.length + 1) Act.consumer ++ rest →
      ∃ t, runSteps (min n s.ringContents.length + 2) s = .next t ∧
        exec (.rbReadN n) { s with sched := rest } = .next t

/-- End to end (R64, R183): with no report waiting, an empty ring and a window that fits, DX.EXTRACT(p) and then CONS.DRAIN give
the events, the dispatcher and the parsers of PD.STEP folded over the received bytes in order; nothing is dropped. -/
def Obligations.ReceivedBytesReachParsers : Prop :=
  ∀ (s : State) (p : Nat), Legal s → s.allInited → s.producerQuiet = true → s.consumer = .waiting → p ≤ s.cfg.h →
    p ≠ s.dx.last → s.rb.wr = s.rb.rd → (s.windowBytes p).length ≤ s.cfg.n - 1 →
    ∃ t v u, exec (.dxExtract p) s = .next t ∧ exec .consDrain t = .next v ∧
      feed .pdStep (s.windowBytes p) s = .next u ∧
      v.trace = u.trace ∧ v.pd = u.pd ∧ v.bf = u.bf ∧ v.lp = u.lp ∧ v.dx.drops = s.dx.drops ∧ v.rb.wr = v.rb.rd

/-- SYS.RESET (R42, R181): the reset column, and nothing else but the receiver's count of unreported bytes, the model's own field
(log 7), which then stands at what the receiver stored from position 0; the five INITs, in any order, come to the same. -/
def Obligations.SysResetLeavesResetColumn : Prop :=
  ∀ s : State, s.cfg.valid = true → s.producerQuiet = true → s.consumerQuiet = true →
    ∃ t, exec .sysReset s = .next t ∧
      t = { s with rb := { s.rb with wr := 0, rd := 0 }, dx := { last := 0, drops := 0, wake := false },
                   pd := { state := .idle }, bf := { s.bf with state := .waitHeader, idx := 0 },
                   lp := { s.lp with cur := 0 },
                   rx := { s.rx with unreported := (s.rx.pos + s.cfg.h) % s.cfg.h },
                   inited := { rb := true, dx := true, pd := true, bf := true, lp := true }, result := .none } ∧
      ∀ l : List Instr, l.Perm [.rbInit, .dxInit, .pdInit, .bfInit, .lpInit] → runInstrs l s = .next t

/-- Idempotence (R233): every INIT, SYS.RESET and DX.RESET is a constant function on what its rule says it writes, and
applied twice equals applied once. -/
def Obligations.InitialisationsAreIdempotent : Prop :=
  ∀ (i : Instr) (s s' t t' : State),
    i ∈ [Instr.rbInit, .dxInit, .pdInit, .bfInit, .lpInit, .sysReset, .dxReset] →
    exec i s = .next t → exec i s' = .next t' →
    exec i t = .next t ∧
    (i = .rbInit → t.rb.wr = t'.rb.wr ∧ t.rb.rd = t'.rb.rd ∧ t.inited.rb = t'.inited.rb) ∧
    (i = .dxInit → t.dx = t'.dx ∧ t.inited.dx = t'.inited.dx) ∧
    (i = .pdInit → t.pd = t'.pd ∧ t.inited.pd = t'.inited.pd) ∧
    (i = .bfInit → t.bf.state = t'.bf.state ∧ t.bf.idx = t'.bf.idx ∧ t.inited.bf = t'.inited.bf) ∧
    (i = .lpInit → t.lp.cur = t'.lp.cur ∧ t.inited.lp = t'.inited.lp) ∧
    (i = .dxReset → t.dx.last = t'.dx.last) ∧
    (i = .sysReset → t.rb.wr = t'.rb.wr ∧ t.rb.rd = t'.rb.rd ∧ t.dx = t'.dx ∧ t.pd = t'.pd ∧
      t.bf.state = t'.bf.state ∧ t.bf.idx = t'.bf.idx ∧ t.lp.cur = t'.lp.cur ∧ t.inited = t'.inited)

/-- The EVENT rows (R14, R200): each appends its record to the trace and changes nothing else. -/
def Obligations.EventRowsAppendToTrace : Prop :=
  ∀ (s : State) (dev sys msg seq len computed received : Byte) (payload name cmd : Bytes) (index : Nat)
    (arg : Option Bytes), s.cfg.valid = true →
    exec (.frameOk dev sys msg seq len payload) s =
      .next { s with trace := s.trace ++ [.frameOk dev sys msg seq len payload], result := .none } ∧
    exec (.frameLenAbort len) s = .next { s with trace := s.trace ++ [.frameLenAbort len], result := .none } ∧
    exec (.frameCsumFail computed received) s =
      .next { s with trace := s.trace ++ [.frameCsumFail computed received], result := .none } ∧
    exec (.lineCmd index name arg) s =
      .next { s with trace := s.trace ++ [.lineCmd index name arg], result := .none } ∧
    exec (.lineUnknown cmd) s = .next { s with trace := s.trace ++ [.lineUnknown cmd], result := .none }

/-! ### The step -/

/-- A scheduled transaction runs the decoded instruction: decoded under the state's configuration and let pass for its caller, it
is exec of that instruction, with the item taken off the schedule. Started instead, it is entered, and entering is exec but for
RB.WRITE_N, RB.READ_N, DX.EXTRACT and CONS.DRAIN; these four enter as ProducerStepEffect and ConsumerStepEffect say, DX.EXTRACT as a
position report does (behind reports that wait: log 29), and CONS.DRAIN as the consumer's own step at its wait. With an empty schedule nothing happens
(R231). -/
def Obligations.StepRunsDecodedTransaction : Prop :=
  (∀ s : State,
    (s.sched = [] → step s = .next s) ∧
    ∀ (who : Agent) (code : Code) (rest : List Act) (i : Instr), decode s.cfg code = .ok i →
      callerCheck who i { s with sched := rest } = none →
      (s.sched = .transact who code :: rest → step s = exec i { s with sched := rest }) ∧
      (s.sched = .start who code :: rest → step s = enter i { s with sched := rest })) ∧
  (∀ (i : Instr) (s : State),
    (∀ bs, i ≠ .rbWriteN bs) → (∀ n, i ≠ .rbReadN n) → (∀ p, i ≠ .dxExtract p) → i ≠ .consDrain →
    enter i s = exec i s) ∧
  (∀ (s : State) (p : Nat), s.producer = .quiescent → enter (.dxExtract p) s = exec (.positionReport p) s) ∧
  ∀ (s : State) (rest : List Act), s.consumer = .waiting → s.sched = .consumer :: rest →
    enter .consDrain { s with sched := rest } = step s

/-- A stream byte the consumer holds runs as the row it is in the dispatcher's state (R180, R128), with the item taken off the
schedule and the byte handed over; so does a word placed by withFetchWord, as the row decodeTableWord reads (log 17). -/
def Obligations.StepRunsStreamByte : Prop :=
  ∀ s : State, s.cfg.valid = true → s.allInited →
    (∀ (b : Byte) (rest : List Act), s.sched = .consumer :: rest → s.consumer = .draining (some b) →
      step s = exec (decodeStream s.cfg (.dispatcher s.pd.state) b)
        { s with sched := rest, consumer := .draining none }) ∧
    ∀ (nbits w : Nat) (i : Instr), s.cfg = Cfg.cfgT → decodeTableWord nbits w = some i →
      step (s.withFetchWord nbits w) = exec i { s with pd := { state := .idle }, consumer := .draining none }

/-- The environment's steps (R40, R62, R235, R237): a received byte is stored at the write position, which advances modulo `H`.
Where the store breaks R237's premise the slot holds a free value: it falls into a range being extracted, or it is the `H`-th byte
or a later one since the last position event or reset, but for exactly `H` from position 0. What counts as being extracted and how
the bytes are counted is the model's choice (log 7). A restart without DX.RESET leaves `dx.last` as it is. Nothing else of the
block changes. -/
def Obligations.EnvironmentSteps : Prop :=
  ∀ (s : State) (rest : List Act), Legal s →
    (∀ b : Byte, s.sched = .receive b :: rest →
      ∃ m, step s = .next { s with
          rx := { hwbuf := m, pos := (s.rx.pos + 1) % s.cfg.h, unreported := s.rx.unreported + 1 },
          draws := if s.overruns = true then s.draws + 1 else s.draws, result := .none, sched := rest } ∧
        ∀ a, m.read a = if a = s.rx.pos then (if s.overruns = true then Config.freeByte s.draws else b)
          else s.rx.hwbuf.read a) ∧
    (s.overruns = true ↔ s.rx.pos ∈ s.beingExtracted ∨
      (s.cfg.h ≤ s.rx.unreported + 1 ∧
        ¬ (s.rx.unreported + 1 = s.cfg.h ∧ s.lastReported = 0 ∧ s.rx.pos + 1 = s.cfg.h))) ∧
    (∀ p todo, s.producer = .extracting p todo → ∀ i ∈ window s.cfg.h s.dx.last p, i ∈ s.beingExtracted) ∧
    (s.producerQuiet = true → s.beingExtracted = [] ∧ s.lastReported = s.dx.last) ∧
    (s.sched = .restart :: rest →
      step s = .next { s with rx := { s.rx with pos := 0, unreported := 0 }, result := .none, sched := rest })

/-! ### The discipline -/

/-- R219 (6) and (1): no instruction runs under a configuration R4 to R11 do not allow, nor on a sub-block that is not
initialised. Which sub-blocks a row needs is read from R42, R101 and R128 and inferred for the rest (`needs`, log 15). -/
def Obligations.UnreadyIsRefused : Prop :=
  ∀ (i : Instr) (s : State),
    (s.cfg.valid = false → exec i s = .refused .badConfiguration) ∧
    (s.cfg.valid = true → (∃ b ∈ needs i, s.inited.has b = false) →
      ∃ b ∈ needs i, s.inited.has b = false ∧ exec i s = .refused (.uninitialised b))

/-- R219 (4), R236: a driver operation is refused while an agent it must exclude is inside an operation. -/
def Obligations.UnquietIsRefused : Prop :=
  ∀ s : State, s.cfg.valid = true → s.inited.dx = true →
    (s.producerQuiet = false →
      ∀ i ∈ [Instr.rbInit, .dxInit, .dxReset, .sysReset, .sysRxReinit],
        exec i s = .refused (.notQuiescent .producer)) ∧
    (s.producerQuiet = true → s.consumerQuiet = false →
      ∀ i ∈ [Instr.rbInit, .sysReset], exec i s = .refused (.notQuiescent .consumer)) ∧
    (s.consumerQuiet = false →
      ∀ i ∈ [Instr.pdInit, .bfInit, .lpInit], exec i s = .refused (.notQuiescent .consumer))

/-- R219 (2), (7), R41, R213: a handler, a second producer or consumer, and an agent that may not perform a row are refused,
whatever the row, performed or started; an EVENT row is no input (log 13). The producer inside an operation of its own is refused every
other row of its own, and the consumer inside its drain or RB.READ_N every row of its own, as a second context (log 14). RB.IS_EMPTY is a row of both
agents and is not refused there: the model's choice (log 30). -/
def Obligations.ForbiddenCallersAreRefused : Prop :=
  ∀ (s : State) (who : Agent) (code : Code) (rest : List Act) (i : Instr),
    s.sched = .transact who code :: rest ∨ s.sched = .start who code :: rest → decode s.cfg code = .ok i →
    (who = .handler → step s = .refused .handlerReentry) ∧
    (who = .stranger → step s = .refused (.secondContext .stranger)) ∧
    (who ≠ .handler → who ≠ .stranger → callers i = [] → step s = .refused .outputRecord) ∧
    (who ≠ .handler → who ≠ .stranger → callers i ≠ [] → who ∉ callers i → step s = .refused (.wrongAgent who)) ∧
    (who = .producer → s.producer ≠ .quiescent → callers i = [.producer] → (∀ p, i ≠ .dxExtract p) →
      step s = .refused (.secondContext .producer)) ∧
    (who = .consumer → s.consumer ≠ .waiting → callers i = [.consumer] → i ≠ .consDrain →
      step s = .refused (.secondContext .consumer)) ∧
    (who = .consumer → s.consumer ≠ .waiting → i = .consDrain → s.cfg.valid = true → s.allInited →
      step s = .refused (.secondContext .consumer))

/-- A byte row is refused where its condition in opcode_table.json is false (the model's choice, log 12): wherever the byte's class at
the dispatcher, or its role at the frame parser or the line parser, in the present state is another row's; so above all in another state
of the dispatcher or the parser, whatever the byte. A row whose byte the table fixes has that byte. -/
def Obligations.RowsOutsideTheirCondition : Prop :=
  ∀ (s : State) (b : Byte), s.cfg.valid = true → s.parsersInited →
    (s.pd.state ≠ .idle →
      ∀ i ∈ [Instr.pdIdlePrintable b, .pdIdleCr, .pdIdleLf, .pdIdleHeader, .pdIdleNoise b],
        exec i s = .refused .rowNotApplicable) ∧
    (s.pd.state ≠ .inLineFrame → exec (.pdInLine b) s = .refused .rowNotApplicable) ∧
    (s.pd.state ≠ .inBinaryFrame → exec (.pdInBin b) s = .refused .rowNotApplicable) ∧
    (s.bf.state ≠ .waitHeader → ∀ i ∈ [Instr.bfWaitHeaderHdr, .bfWaitHeaderOther b],
      exec i s = .refused .rowNotApplicable) ∧
    (s.bf.state ≠ .readIds →
      ∀ i ∈ [Instr.bfReadIdsDevice b, .bfReadIdsSystem b, .bfReadIdsMsg b, .bfReadIdsSeq b],
        exec i s = .refused .rowNotApplicable) ∧
    (s.bf.state ≠ .readLen → ∀ i ∈ [Instr.bfReadLenTooLong b, .bfReadLenZero, .bfReadLenValid b],
      exec i s = .refused .rowNotApplicable) ∧
    (s.bf.state ≠ .readPayload → ∀ i ∈ [Instr.bfReadPayloadByte b, .bfReadPayloadLast b],
      exec i s = .refused .rowNotApplicable) ∧
    (s.bf.state ≠ .readChecksum → ∀ i ∈ [Instr.bfReadChecksumMatch b, .bfReadChecksumMismatch b],
      exec i s = .refused .rowNotApplicable) ∧
    (isTerm b = true → ∀ i ∈ [Instr.lpByteAppend b, .lpByteOverflow b], exec i s = .refused .rowNotApplicable) ∧
    (∀ r : PdClass, pdClass s.cfg s.pd.state b ≠ r → (r = .cr → b = 0x0D) → (r = .lf → b = 0x0A) →
      (r = .header → b = s.cfg.hdr) → exec (r.instr b) s = .refused .rowNotApplicable) ∧
    (∀ r : BfRole, bfRole s.cfg s.bf.state s.bf.idx s.bf.pcur s.bf.len s.bf.csum b ≠ r →
      (r = .header → b = s.cfg.hdr) → (r = .zero → b = 0x00) → exec (r.instr b) s = .refused .rowNotApplicable) ∧
    (∀ r : LpRole, lpRole s.cfg s.lp.cur b ≠ r → (r = .cr → b = 0x0D) → (r = .lf → b = 0x0A) →
      exec (r.instr b) s = .refused .rowNotApplicable)

/-! ### Invariants and whole-machine rules -/

/-- The invariant holds after reset and at power-on. (The values reset gives the unspecified registers are the model's, log 3.) -/
def Obligations.ResetMeetsInvariant : Prop :=
  Legal State.reset ∧ State.reset.allInited ∧ Joint State.reset ∧ Legal State.powerOn ∧
  exec .sysReset State.powerOn = .next State.reset

/-- Every step from a state of the invariant gives a state of the invariant or is refused by name; none faults (R55, R200:
"The block never traps, never halts"). -/
def Obligations.EveryStepIsSafe : Prop :=
  ∀ s : State, Legal s →
    (∀ f, step s ≠ .fault f) ∧ ∀ t, step s = .next t → Legal t

/-- Dispatcher and parsers agree (R43): after SYS.RESET, or the three INITs in any order with nothing between, every run of PD.STEPs
gives a state in which `Idle` means an idle frame parser and an empty line, and so on; `Joint` is what PD.STEP keeps; one INIT
without the others can break it (R241). -/
def Obligations.DispatcherAndParsersAgree : Prop :=
  (∀ (l : List Instr) (s t u : State) (bs : Bytes),
    (l = [.sysReset] ∨ l.Perm [Instr.pdInit, .bfInit, .lpInit]) → runInstrs l s = .next t → feed .pdStep bs t = .next u →
    (u.pd.state = .idle → u.bf.state = .waitHeader ∧ u.lp.cur = 0) ∧
    (u.pd.state = .inBinaryFrame → u.bf.state ≠ .waitHeader) ∧
    (u.pd.state = .inLineFrame → u.bf.state = .waitHeader)) ∧
  (∀ (s t : State) (b : Byte), Joint s → exec (.pdStep b) s = .next t → Joint t) ∧
  ∃ s t, Joint s ∧ exec .pdInit s = .next t ∧ ¬ Agree t

/-- No lost wake-up (R180): every step keeps that bytes in the ring with a quiescent producer mean a set flag or a consumer inside
its drain, unless the step is a direct RB.WRITE or RB.WRITE_N, whole or one step inside it (R234 leaves writing to DX.EXTRACT), or
DX.INIT, which clears the flag. -/
def Obligations.NoWakeUpIsLost : Prop :=
  ∀ s t : State, Legal s → WakeKept s → step s = .next t →
    (∀ who code rest i, s.sched = .transact who code :: rest ∨ s.sched = .start who code :: rest →
      decode s.cfg code = .ok i → (∀ b, i ≠ .rbWrite b) ∧ (∀ bs, i ≠ .rbWriteN bs) ∧ i ≠ .dxInit) →
    (∀ rest todo k, s.sched = .producer :: rest → s.producer ≠ .writing todo k) →
    WakeKept t

/-- The configuration is immutable (R63), the trace only grows (R14), and a single PD.STEP, BF.STEP, LP.STEP or EVENT row adds at most
one event (R210). -/
def Obligations.ConfigurationFixedTraceGrows : Prop :=
  ∀ s t : State,
    (step s = .next t → t.cfg = s.cfg ∧ ∃ es, t.trace = s.trace ++ es) ∧
    ∀ i : Instr, exec i s = .next t →
      t.cfg = s.cfg ∧ t.sched = s.sched ∧
      ∃ es, t.trace = s.trace ++ es ∧
        ((∀ dev sys msg seq payload csum, i ≠ .frame dev sys msg seq payload csum) →
          (∀ text term, i ≠ .line text term) → i ≠ .consDrain → es.length ≤ 1)

/-- The drop counter (R26, R108): no step lowers it but one that runs DX.INIT or SYS.RESET; it never exceeds `2^W - 1`. -/
def Obligations.DropCounterIsMonotonic : Prop :=
  ∀ s t : State, Legal s → step s = .next t →
    t.dx.drops ≤ 2 ^ t.cfg.w - 1 ∧
    ((∀ who code rest i, s.sched = .transact who code :: rest ∨ s.sched = .start who code :: rest →
      decode s.cfg code = .ok i →
      i ≠ .dxInit ∧ i ≠ .sysReset) → s.dx.drops ≤ t.dx.drops)

/-- Ownership (R41, R213): a consumer's row never writes `rb.wr`, the ring's slots, `dx.last`, `dx.drops` or the receiver; a
producer's row never writes `rb.rd`, the dispatcher, the parsers, the trace or `HWBUF`; no row but the INITs and SYS.RESET writes an `inited`
flag. -/
def Obligations.OwnersAloneWrite : Prop :=
  ∀ (i : Instr) (s t : State), exec i s = .next t →
    (callers i = [.consumer] → t.rb.wr = s.rb.wr ∧ t.rb.data = s.rb.data ∧ t.dx.last = s.dx.last ∧
      t.dx.drops = s.dx.drops ∧ t.rx = s.rx ∧ t.producer = s.producer) ∧
    (callers i = [.producer] → t.rb.rd = s.rb.rd ∧ t.pd = s.pd ∧ t.bf = s.bf ∧ t.lp = s.lp ∧ t.trace = s.trace ∧
      t.rx.hwbuf = s.rx.hwbuf ∧ t.rx.pos = s.rx.pos ∧ t.consumer = s.consumer) ∧
    (i ∉ [Instr.rbInit, .dxInit, .pdInit, .bfInit, .lpInit, .sysReset] → t.inited = s.inited)
end

