-- ==== Sys2Proof/Laws/Memory.lean ====
section
/-! SUPPORT. The laws of the byte arrays: a read after a write, and that every operation keeps the canonical form and the
bounds. -/

namespace Sys2Proof.Machine

@[simp] theorem Memory.read_nil (a : Nat) : Memory.read [] a = unlistedByte := rfl

theorem Memory.read_cons (i : Nat) (b : Byte) (m : Memory) (a : Nat) :
    Memory.read ((i, b) :: m) a = if a = i then b else m.read a := rfl

/-- An index below every listed one reads as unlisted. -/
theorem Memory.read_of_wfFrom {lo : Nat} {m : Memory} (h : m.wfFrom lo = true) {a : Nat} (ha : a < lo) :
    m.read a = unlistedByte := by
  induction m generalizing lo with
  | nil => rfl
  | cons cell rest ih =>
    obtain ⟨i, b⟩ := cell
    simp only [Memory.wfFrom, Bool.and_eq_true, decide_eq_true_eq] at h
    rw [Memory.read_cons, if_neg (by omega)]
    exact ih h.2 (by omega)

theorem Memory.wfFrom_mono {lo lo' : Nat} (hle : lo' ≤ lo) {m : Memory} (h : m.wfFrom lo = true) :
    m.wfFrom lo' = true := by
  cases m with
  | nil => rfl
  | cons cell rest =>
    obtain ⟨i, b⟩ := cell
    simp only [Memory.wfFrom, Bool.and_eq_true, decide_eq_true_eq] at h ⊢
    exact ⟨⟨by omega, h.1.2⟩, h.2⟩

theorem Memory.read_entry (a c : Nat) (b : Byte) {rest : Memory} (h : rest.wfFrom (a + 1) = true) :
    (Memory.entry a b rest).read c = if c = a then b else rest.read c := by
  unfold Memory.entry
  split
  · next hb =>
    split
    · next hc => rw [hc, Memory.read_of_wfFrom h (by omega), hb]
    · rfl
  · exact Memory.read_cons a b rest c

theorem Memory.wfFrom_entry {lo a : Nat} {b : Byte} {rest : Memory} (hlo : lo ≤ a) (h : rest.wfFrom (a + 1) = true) :
    (Memory.entry a b rest).wfFrom lo = true := by
  unfold Memory.entry
  split
  · exact Memory.wfFrom_mono (by omega) h
  · next hb => simp [Memory.wfFrom, hlo, h, hb]

theorem Memory.wfFrom_write {lo a : Nat} {b : Byte} {m : Memory} (hlo : lo ≤ a) (h : m.wfFrom lo = true) :
    (m.write a b).wfFrom lo = true := by
  induction m generalizing lo with
  | nil => exact Memory.wfFrom_entry hlo rfl
  | cons cell rest ih =>
    obtain ⟨i, c⟩ := cell
    simp only [Memory.wfFrom, Bool.and_eq_true, decide_eq_true_eq] at h
    simp only [Memory.write]
    split
    · exact Memory.wfFrom_entry hlo (by simp only [Memory.wfFrom, Bool.and_eq_true, decide_eq_true_eq]; exact ⟨⟨by omega, h.1.2⟩, h.2⟩)
    · split
      · next hai => subst hai; exact Memory.wfFrom_entry hlo h.2
      · simp only [Memory.wfFrom, Bool.and_eq_true, decide_eq_true_eq]
        exact ⟨h.1, ih (by omega) h.2⟩

theorem Memory.read_write_from {lo : Nat} {m : Memory} (h : m.wfFrom lo = true) {a : Nat} (ha : lo ≤ a) (b : Byte)
    (c : Nat) : (m.write a b).read c = if c = a then b else m.read c := by
  induction m generalizing lo with
  | nil => exact Memory.read_entry a c b rfl
  | cons cell rest ih =>
    obtain ⟨i, v⟩ := cell
    simp only [Memory.wfFrom, Bool.and_eq_true, decide_eq_true_eq] at h
    simp only [Memory.write]
    split
    · next hai =>
      exact Memory.read_entry a c b
        (by simp only [Memory.wfFrom, Bool.and_eq_true, decide_eq_true_eq]; exact ⟨⟨by omega, h.1.2⟩, h.2⟩)
    · split
      · next hai =>
        subst hai
        rw [Memory.read_entry a c b h.2, Memory.read_cons]
        split <;> rfl
      · rw [Memory.read_cons, ih h.2 (by omega), Memory.read_cons]
        split
        · next hc => rw [if_neg (by omega)]
        · rfl

/-- A read after a write: the byte at that index, every other index as before. -/
theorem Memory.read_write {m : Memory} (h : m.wf = true) (a : Nat) (b : Byte) (c : Nat) :
    (m.write a b).read c = if c = a then b else m.read c :=
  Memory.read_write_from h (Nat.zero_le a) b c

/-- A write keeps the canonical form. -/
theorem Memory.wf_write {m : Memory} (h : m.wf = true) (a : Nat) (b : Byte) : (m.write a b).wf = true :=
  Memory.wfFrom_write (Nat.zero_le a) h

theorem Memory.within_entry {size a : Nat} {b : Byte} {rest : Memory} (ha : a < size) (h : rest.within size = true) :
    (Memory.entry a b rest).within size = true := by
  unfold Memory.entry
  split
  · exact h
  · simpa [Memory.within, ha] using h

/-- A write inside the array keeps the bounds. -/
theorem Memory.within_write {size a : Nat} (ha : a < size) (b : Byte) {m : Memory} (h : m.within size = true) :
    (m.write a b).within size = true := by
  induction m with
  | nil => exact Memory.within_entry ha rfl
  | cons cell rest ih =>
    obtain ⟨i, c⟩ := cell
    have h' : i < size ∧ Memory.within size rest = true := by simpa [Memory.within] using h
    simp only [Memory.write]
    split
    · exact Memory.within_entry ha h
    · split
      · exact Memory.within_entry ha h'.2
      · simpa [Memory.within, h'.1] using ih h'.2

/-- Canonical memories that read alike are the same list. -/
theorem Memory.eq_of_read_eq {lo : Nat} {m m' : Memory} (h : m.wfFrom lo = true) (h' : m'.wfFrom lo = true)
    (heq : ∀ a, m.read a = m'.read a) : m = m' := by
  induction m generalizing lo m' with
  | nil =>
    cases m' with
    | nil => rfl
    | cons cell rest =>
      obtain ⟨i, b⟩ := cell
      simp only [Memory.wfFrom, Bool.and_eq_true, decide_eq_true_eq, bne_iff_ne, ne_eq] at h'
      have := heq i
      rw [Memory.read_nil, Memory.read_cons, if_pos rfl] at this
      exact absurd this.symm h'.1.2
  | cons cell rest ih =>
    obtain ⟨i, b⟩ := cell
    simp only [Memory.wfFrom, Bool.and_eq_true, decide_eq_true_eq, bne_iff_ne, ne_eq] at h
    cases m' with
    | nil =>
      have := heq i
      rw [Memory.read_nil, Memory.read_cons, if_pos rfl] at this
      exact absurd this h.1.2
    | cons cell' rest' =>
      obtain ⟨j, c⟩ := cell'
      simp only [Memory.wfFrom, Bool.and_eq_true, decide_eq_true_eq, bne_iff_ne, ne_eq] at h'
      have hij : i = j := by
        rcases Nat.lt_trichotomy i j with hlt | heq' | hgt
        · have := heq i
          rw [Memory.read_cons, if_pos rfl, Memory.read_cons, if_neg (by omega),
            Memory.read_of_wfFrom h'.2 (by omega)] at this
          exact absurd this h.1.2
        · exact heq'
        · have := heq j
          rw [Memory.read_cons, if_neg (by omega), Memory.read_of_wfFrom h.2 (by omega), Memory.read_cons, if_pos rfl] at this
          exact absurd this.symm h'.1.2
      subst hij
      have hbc : b = c := by
        have := heq i
        rwa [Memory.read_cons, if_pos rfl, Memory.read_cons, if_pos rfl] at this
      subst hbc
      have hrest : rest = rest' := ih h.2 h'.2 (fun a => by
        have := heq a
        rw [Memory.read_cons, Memory.read_cons] at this
        by_cases ha : a = i
        · rw [ha, Memory.read_of_wfFrom h.2 (by omega), Memory.read_of_wfFrom h'.2 (by omega)]
        · rwa [if_neg ha, if_neg ha] at this)
      rw [hrest]

end Sys2Proof.Machine
end

