-- ==== Sys2Proof/Laws/State.lean ====
section
/-! SUPPORT. One lemma per field per update of State, true by definition, so that
no later proof unfolds a record update. -/

namespace Sys2Proof.Machine

section
variable (s : State) (v : RingBuffer)
@[simp] theorem State.setRb_cfg : (s.setRb v).cfg = s.cfg := rfl
@[simp] theorem State.setRb_rb : (s.setRb v).rb = v := rfl
@[simp] theorem State.setRb_dx : (s.setRb v).dx = s.dx := rfl
@[simp] theorem State.setRb_pd : (s.setRb v).pd = s.pd := rfl
@[simp] theorem State.setRb_bf : (s.setRb v).bf = s.bf := rfl
@[simp] theorem State.setRb_lp : (s.setRb v).lp = s.lp := rfl
@[simp] theorem State.setRb_inited : (s.setRb v).inited = s.inited := rfl
@[simp] theorem State.setRb_rx : (s.setRb v).rx = s.rx := rfl
@[simp] theorem State.setRb_producer : (s.setRb v).producer = s.producer := rfl
@[simp] theorem State.setRb_reports : (s.setRb v).reports = s.reports := rfl
@[simp] theorem State.setRb_consumer : (s.setRb v).consumer = s.consumer := rfl
@[simp] theorem State.setRb_trace : (s.setRb v).trace = s.trace := rfl
@[simp] theorem State.setRb_result : (s.setRb v).result = s.result := rfl
@[simp] theorem State.setRb_draws : (s.setRb v).draws = s.draws := rfl
@[simp] theorem State.setRb_sched : (s.setRb v).sched = s.sched := rfl
end

section
variable (s : State) (v : Extractor)
@[simp] theorem State.setDx_cfg : (s.setDx v).cfg = s.cfg := rfl
@[simp] theorem State.setDx_rb : (s.setDx v).rb = s.rb := rfl
@[simp] theorem State.setDx_dx : (s.setDx v).dx = v := rfl
@[simp] theorem State.setDx_pd : (s.setDx v).pd = s.pd := rfl
@[simp] theorem State.setDx_bf : (s.setDx v).bf = s.bf := rfl
@[simp] theorem State.setDx_lp : (s.setDx v).lp = s.lp := rfl
@[simp] theorem State.setDx_inited : (s.setDx v).inited = s.inited := rfl
@[simp] theorem State.setDx_rx : (s.setDx v).rx = s.rx := rfl
@[simp] theorem State.setDx_producer : (s.setDx v).producer = s.producer := rfl
@[simp] theorem State.setDx_reports : (s.setDx v).reports = s.reports := rfl
@[simp] theorem State.setDx_consumer : (s.setDx v).consumer = s.consumer := rfl
@[simp] theorem State.setDx_trace : (s.setDx v).trace = s.trace := rfl
@[simp] theorem State.setDx_result : (s.setDx v).result = s.result := rfl
@[simp] theorem State.setDx_draws : (s.setDx v).draws = s.draws := rfl
@[simp] theorem State.setDx_sched : (s.setDx v).sched = s.sched := rfl
end

section
variable (s : State) (v : PdState)
@[simp] theorem State.setPd_cfg : (s.setPd v).cfg = s.cfg := rfl
@[simp] theorem State.setPd_rb : (s.setPd v).rb = s.rb := rfl
@[simp] theorem State.setPd_dx : (s.setPd v).dx = s.dx := rfl
@[simp] theorem State.setPd_pd : (s.setPd v).pd = { state := v } := rfl
@[simp] theorem State.setPd_bf : (s.setPd v).bf = s.bf := rfl
@[simp] theorem State.setPd_lp : (s.setPd v).lp = s.lp := rfl
@[simp] theorem State.setPd_inited : (s.setPd v).inited = s.inited := rfl
@[simp] theorem State.setPd_rx : (s.setPd v).rx = s.rx := rfl
@[simp] theorem State.setPd_producer : (s.setPd v).producer = s.producer := rfl
@[simp] theorem State.setPd_reports : (s.setPd v).reports = s.reports := rfl
@[simp] theorem State.setPd_consumer : (s.setPd v).consumer = s.consumer := rfl
@[simp] theorem State.setPd_trace : (s.setPd v).trace = s.trace := rfl
@[simp] theorem State.setPd_result : (s.setPd v).result = s.result := rfl
@[simp] theorem State.setPd_draws : (s.setPd v).draws = s.draws := rfl
@[simp] theorem State.setPd_sched : (s.setPd v).sched = s.sched := rfl
end

section
variable (s : State) (v : FrameParser)
@[simp] theorem State.setBf_cfg : (s.setBf v).cfg = s.cfg := rfl
@[simp] theorem State.setBf_rb : (s.setBf v).rb = s.rb := rfl
@[simp] theorem State.setBf_dx : (s.setBf v).dx = s.dx := rfl
@[simp] theorem State.setBf_pd : (s.setBf v).pd = s.pd := rfl
@[simp] theorem State.setBf_bf : (s.setBf v).bf = v := rfl
@[simp] theorem State.setBf_lp : (s.setBf v).lp = s.lp := rfl
@[simp] theorem State.setBf_inited : (s.setBf v).inited = s.inited := rfl
@[simp] theorem State.setBf_rx : (s.setBf v).rx = s.rx := rfl
@[simp] theorem State.setBf_producer : (s.setBf v).producer = s.producer := rfl
@[simp] theorem State.setBf_reports : (s.setBf v).reports = s.reports := rfl
@[simp] theorem State.setBf_consumer : (s.setBf v).consumer = s.consumer := rfl
@[simp] theorem State.setBf_trace : (s.setBf v).trace = s.trace := rfl
@[simp] theorem State.setBf_result : (s.setBf v).result = s.result := rfl
@[simp] theorem State.setBf_draws : (s.setBf v).draws = s.draws := rfl
@[simp] theorem State.setBf_sched : (s.setBf v).sched = s.sched := rfl
end

section
variable (s : State) (v : LineParser)
@[simp] theorem State.setLp_cfg : (s.setLp v).cfg = s.cfg := rfl
@[simp] theorem State.setLp_rb : (s.setLp v).rb = s.rb := rfl
@[simp] theorem State.setLp_dx : (s.setLp v).dx = s.dx := rfl
@[simp] theorem State.setLp_pd : (s.setLp v).pd = s.pd := rfl
@[simp] theorem State.setLp_bf : (s.setLp v).bf = s.bf := rfl
@[simp] theorem State.setLp_lp : (s.setLp v).lp = v := rfl
@[simp] theorem State.setLp_inited : (s.setLp v).inited = s.inited := rfl
@[simp] theorem State.setLp_rx : (s.setLp v).rx = s.rx := rfl
@[simp] theorem State.setLp_producer : (s.setLp v).producer = s.producer := rfl
@[simp] theorem State.setLp_reports : (s.setLp v).reports = s.reports := rfl
@[simp] theorem State.setLp_consumer : (s.setLp v).consumer = s.consumer := rfl
@[simp] theorem State.setLp_trace : (s.setLp v).trace = s.trace := rfl
@[simp] theorem State.setLp_result : (s.setLp v).result = s.result := rfl
@[simp] theorem State.setLp_draws : (s.setLp v).draws = s.draws := rfl
@[simp] theorem State.setLp_sched : (s.setLp v).sched = s.sched := rfl
end

section
variable (s : State) (v : Inited)
@[simp] theorem State.setInited_cfg : (s.setInited v).cfg = s.cfg := rfl
@[simp] theorem State.setInited_rb : (s.setInited v).rb = s.rb := rfl
@[simp] theorem State.setInited_dx : (s.setInited v).dx = s.dx := rfl
@[simp] theorem State.setInited_pd : (s.setInited v).pd = s.pd := rfl
@[simp] theorem State.setInited_bf : (s.setInited v).bf = s.bf := rfl
@[simp] theorem State.setInited_lp : (s.setInited v).lp = s.lp := rfl
@[simp] theorem State.setInited_inited : (s.setInited v).inited = v := rfl
@[simp] theorem State.setInited_rx : (s.setInited v).rx = s.rx := rfl
@[simp] theorem State.setInited_producer : (s.setInited v).producer = s.producer := rfl
@[simp] theorem State.setInited_reports : (s.setInited v).reports = s.reports := rfl
@[simp] theorem State.setInited_consumer : (s.setInited v).consumer = s.consumer := rfl
@[simp] theorem State.setInited_trace : (s.setInited v).trace = s.trace := rfl
@[simp] theorem State.setInited_result : (s.setInited v).result = s.result := rfl
@[simp] theorem State.setInited_draws : (s.setInited v).draws = s.draws := rfl
@[simp] theorem State.setInited_sched : (s.setInited v).sched = s.sched := rfl
end

section
variable (s : State) (v : Receiver)
@[simp] theorem State.setRx_cfg : (s.setRx v).cfg = s.cfg := rfl
@[simp] theorem State.setRx_rb : (s.setRx v).rb = s.rb := rfl
@[simp] theorem State.setRx_dx : (s.setRx v).dx = s.dx := rfl
@[simp] theorem State.setRx_pd : (s.setRx v).pd = s.pd := rfl
@[simp] theorem State.setRx_bf : (s.setRx v).bf = s.bf := rfl
@[simp] theorem State.setRx_lp : (s.setRx v).lp = s.lp := rfl
@[simp] theorem State.setRx_inited : (s.setRx v).inited = s.inited := rfl
@[simp] theorem State.setRx_rx : (s.setRx v).rx = v := rfl
@[simp] theorem State.setRx_producer : (s.setRx v).producer = s.producer := rfl
@[simp] theorem State.setRx_reports : (s.setRx v).reports = s.reports := rfl
@[simp] theorem State.setRx_consumer : (s.setRx v).consumer = s.consumer := rfl
@[simp] theorem State.setRx_trace : (s.setRx v).trace = s.trace := rfl
@[simp] theorem State.setRx_result : (s.setRx v).result = s.result := rfl
@[simp] theorem State.setRx_draws : (s.setRx v).draws = s.draws := rfl
@[simp] theorem State.setRx_sched : (s.setRx v).sched = s.sched := rfl
end

section
variable (s : State) (v : ProducerPhase)
@[simp] theorem State.setProducer_cfg : (s.setProducer v).cfg = s.cfg := rfl
@[simp] theorem State.setProducer_rb : (s.setProducer v).rb = s.rb := rfl
@[simp] theorem State.setProducer_dx : (s.setProducer v).dx = s.dx := rfl
@[simp] theorem State.setProducer_pd : (s.setProducer v).pd = s.pd := rfl
@[simp] theorem State.setProducer_bf : (s.setProducer v).bf = s.bf := rfl
@[simp] theorem State.setProducer_lp : (s.setProducer v).lp = s.lp := rfl
@[simp] theorem State.setProducer_inited : (s.setProducer v).inited = s.inited := rfl
@[simp] theorem State.setProducer_rx : (s.setProducer v).rx = s.rx := rfl
@[simp] theorem State.setProducer_producer : (s.setProducer v).producer = v := rfl
@[simp] theorem State.setProducer_reports : (s.setProducer v).reports = s.reports := rfl
@[simp] theorem State.setProducer_consumer : (s.setProducer v).consumer = s.consumer := rfl
@[simp] theorem State.setProducer_trace : (s.setProducer v).trace = s.trace := rfl
@[simp] theorem State.setProducer_result : (s.setProducer v).result = s.result := rfl
@[simp] theorem State.setProducer_draws : (s.setProducer v).draws = s.draws := rfl
@[simp] theorem State.setProducer_sched : (s.setProducer v).sched = s.sched := rfl
end

section
variable (s : State) (v : List Nat)
@[simp] theorem State.setReports_cfg : (s.setReports v).cfg = s.cfg := rfl
@[simp] theorem State.setReports_rb : (s.setReports v).rb = s.rb := rfl
@[simp] theorem State.setReports_dx : (s.setReports v).dx = s.dx := rfl
@[simp] theorem State.setReports_pd : (s.setReports v).pd = s.pd := rfl
@[simp] theorem State.setReports_bf : (s.setReports v).bf = s.bf := rfl
@[simp] theorem State.setReports_lp : (s.setReports v).lp = s.lp := rfl
@[simp] theorem State.setReports_inited : (s.setReports v).inited = s.inited := rfl
@[simp] theorem State.setReports_rx : (s.setReports v).rx = s.rx := rfl
@[simp] theorem State.setReports_producer : (s.setReports v).producer = s.producer := rfl
@[simp] theorem State.setReports_reports : (s.setReports v).reports = v := rfl
@[simp] theorem State.setReports_consumer : (s.setReports v).consumer = s.consumer := rfl
@[simp] theorem State.setReports_trace : (s.setReports v).trace = s.trace := rfl
@[simp] theorem State.setReports_result : (s.setReports v).result = s.result := rfl
@[simp] theorem State.setReports_draws : (s.setReports v).draws = s.draws := rfl
@[simp] theorem State.setReports_sched : (s.setReports v).sched = s.sched := rfl
end

section
variable (s : State) (v : ConsumerPhase)
@[simp] theorem State.setConsumer_cfg : (s.setConsumer v).cfg = s.cfg := rfl
@[simp] theorem State.setConsumer_rb : (s.setConsumer v).rb = s.rb := rfl
@[simp] theorem State.setConsumer_dx : (s.setConsumer v).dx = s.dx := rfl
@[simp] theorem State.setConsumer_pd : (s.setConsumer v).pd = s.pd := rfl
@[simp] theorem State.setConsumer_bf : (s.setConsumer v).bf = s.bf := rfl
@[simp] theorem State.setConsumer_lp : (s.setConsumer v).lp = s.lp := rfl
@[simp] theorem State.setConsumer_inited : (s.setConsumer v).inited = s.inited := rfl
@[simp] theorem State.setConsumer_rx : (s.setConsumer v).rx = s.rx := rfl
@[simp] theorem State.setConsumer_producer : (s.setConsumer v).producer = s.producer := rfl
@[simp] theorem State.setConsumer_reports : (s.setConsumer v).reports = s.reports := rfl
@[simp] theorem State.setConsumer_consumer : (s.setConsumer v).consumer = v := rfl
@[simp] theorem State.setConsumer_trace : (s.setConsumer v).trace = s.trace := rfl
@[simp] theorem State.setConsumer_result : (s.setConsumer v).result = s.result := rfl
@[simp] theorem State.setConsumer_draws : (s.setConsumer v).draws = s.draws := rfl
@[simp] theorem State.setConsumer_sched : (s.setConsumer v).sched = s.sched := rfl
end

section
variable (s : State) (v : Result)
@[simp] theorem State.setResult_cfg : (s.setResult v).cfg = s.cfg := rfl
@[simp] theorem State.setResult_rb : (s.setResult v).rb = s.rb := rfl
@[simp] theorem State.setResult_dx : (s.setResult v).dx = s.dx := rfl
@[simp] theorem State.setResult_pd : (s.setResult v).pd = s.pd := rfl
@[simp] theorem State.setResult_bf : (s.setResult v).bf = s.bf := rfl
@[simp] theorem State.setResult_lp : (s.setResult v).lp = s.lp := rfl
@[simp] theorem State.setResult_inited : (s.setResult v).inited = s.inited := rfl
@[simp] theorem State.setResult_rx : (s.setResult v).rx = s.rx := rfl
@[simp] theorem State.setResult_producer : (s.setResult v).producer = s.producer := rfl
@[simp] theorem State.setResult_reports : (s.setResult v).reports = s.reports := rfl
@[simp] theorem State.setResult_consumer : (s.setResult v).consumer = s.consumer := rfl
@[simp] theorem State.setResult_trace : (s.setResult v).trace = s.trace := rfl
@[simp] theorem State.setResult_result : (s.setResult v).result = v := rfl
@[simp] theorem State.setResult_draws : (s.setResult v).draws = s.draws := rfl
@[simp] theorem State.setResult_sched : (s.setResult v).sched = s.sched := rfl
end

section
variable (s : State) (v : Nat)
@[simp] theorem State.setDraws_cfg : (s.setDraws v).cfg = s.cfg := rfl
@[simp] theorem State.setDraws_rb : (s.setDraws v).rb = s.rb := rfl
@[simp] theorem State.setDraws_dx : (s.setDraws v).dx = s.dx := rfl
@[simp] theorem State.setDraws_pd : (s.setDraws v).pd = s.pd := rfl
@[simp] theorem State.setDraws_bf : (s.setDraws v).bf = s.bf := rfl
@[simp] theorem State.setDraws_lp : (s.setDraws v).lp = s.lp := rfl
@[simp] theorem State.setDraws_inited : (s.setDraws v).inited = s.inited := rfl
@[simp] theorem State.setDraws_rx : (s.setDraws v).rx = s.rx := rfl
@[simp] theorem State.setDraws_producer : (s.setDraws v).producer = s.producer := rfl
@[simp] theorem State.setDraws_reports : (s.setDraws v).reports = s.reports := rfl
@[simp] theorem State.setDraws_consumer : (s.setDraws v).consumer = s.consumer := rfl
@[simp] theorem State.setDraws_trace : (s.setDraws v).trace = s.trace := rfl
@[simp] theorem State.setDraws_result : (s.setDraws v).result = s.result := rfl
@[simp] theorem State.setDraws_draws : (s.setDraws v).draws = v := rfl
@[simp] theorem State.setDraws_sched : (s.setDraws v).sched = s.sched := rfl
end

section
variable (s : State) (v : List Act)
@[simp] theorem State.setSched_cfg : (s.setSched v).cfg = s.cfg := rfl
@[simp] theorem State.setSched_rb : (s.setSched v).rb = s.rb := rfl
@[simp] theorem State.setSched_dx : (s.setSched v).dx = s.dx := rfl
@[simp] theorem State.setSched_pd : (s.setSched v).pd = s.pd := rfl
@[simp] theorem State.setSched_bf : (s.setSched v).bf = s.bf := rfl
@[simp] theorem State.setSched_lp : (s.setSched v).lp = s.lp := rfl
@[simp] theorem State.setSched_inited : (s.setSched v).inited = s.inited := rfl
@[simp] theorem State.setSched_rx : (s.setSched v).rx = s.rx := rfl
@[simp] theorem State.setSched_producer : (s.setSched v).producer = s.producer := rfl
@[simp] theorem State.setSched_reports : (s.setSched v).reports = s.reports := rfl
@[simp] theorem State.setSched_consumer : (s.setSched v).consumer = s.consumer := rfl
@[simp] theorem State.setSched_trace : (s.setSched v).trace = s.trace := rfl
@[simp] theorem State.setSched_result : (s.setSched v).result = s.result := rfl
@[simp] theorem State.setSched_draws : (s.setSched v).draws = s.draws := rfl
@[simp] theorem State.setSched_sched : (s.setSched v).sched = v := rfl
end

section
variable (s : State) (e : Event)
@[simp] theorem State.emit_cfg : (s.emit e).cfg = s.cfg := rfl
@[simp] theorem State.emit_rb : (s.emit e).rb = s.rb := rfl
@[simp] theorem State.emit_dx : (s.emit e).dx = s.dx := rfl
@[simp] theorem State.emit_pd : (s.emit e).pd = s.pd := rfl
@[simp] theorem State.emit_bf : (s.emit e).bf = s.bf := rfl
@[simp] theorem State.emit_lp : (s.emit e).lp = s.lp := rfl
@[simp] theorem State.emit_inited : (s.emit e).inited = s.inited := rfl
@[simp] theorem State.emit_rx : (s.emit e).rx = s.rx := rfl
@[simp] theorem State.emit_producer : (s.emit e).producer = s.producer := rfl
@[simp] theorem State.emit_reports : (s.emit e).reports = s.reports := rfl
@[simp] theorem State.emit_consumer : (s.emit e).consumer = s.consumer := rfl
@[simp] theorem State.emit_trace : (s.emit e).trace = s.trace ++ [e] := rfl
@[simp] theorem State.emit_result : (s.emit e).result = s.result := rfl
@[simp] theorem State.emit_draws : (s.emit e).draws = s.draws := rfl
@[simp] theorem State.emit_sched : (s.emit e).sched = s.sched := rfl
end

/-- Two states with the same fields are the same state. -/
theorem State.ext_fields {s t : State} (cfg : s.cfg = t.cfg) (rb : s.rb = t.rb) (dx : s.dx = t.dx) (pd : s.pd = t.pd)
    (bf : s.bf = t.bf) (lp : s.lp = t.lp) (inited : s.inited = t.inited) (rx : s.rx = t.rx)
    (producer : s.producer = t.producer) (reports : s.reports = t.reports) (consumer : s.consumer = t.consumer)
    (trace : s.trace = t.trace) (result : s.result = t.result) (draws : s.draws = t.draws) (sched : s.sched = t.sched) :
    s = t := by
  cases s; cases t; simp_all

end Sys2Proof.Machine
end

