-- ==== Sys2Proof/Laws/Ring.lean ====
section
/-! SUPPORT. The checks, the invariant's transport, the ring's operations and what they do to the ring's contents. -/

namespace Sys2Proof.Machine

/-! ### Checks -/

@[simp] theorem guarded_none (k : Out) : guarded none k = k := rfl

@[simp] theorem guarded_some (r : Refusal) (k : Out) : guarded (some r) k = .refused r := rfl

@[simp] theorem finish_ok (r : Result) (s : State) : finish r (.ok s) = .next (s.setResult r) := rfl

@[simp] theorem finish_error (r : Result) (f : Fault) : finish r (.error f) = .fault f := rfl

@[simp] theorem finishWith_ok {α : Type} (g : α → Result) (a : α) (s : State) :
    finishWith g (.ok (a, s)) = .next (s.setResult (g a)) := rfl

@[simp] theorem finishWith_error {α : Type} (g : α → Result) (f : Fault) :
    finishWith g (.error f : Except Fault (α × State)) = .fault f := rfl

/-- The checks pass exactly when the configuration is admitted and what is needed is initialised. -/
theorem ready_eq_none {needs : List SubBlock} {s : State} :
    ready needs s = none ↔ s.cfg.valid = true ∧ ∀ b ∈ needs, s.inited.has b = true := by
  unfold ready
  split
  · next h => simp [h]
  · next h => simp [h]

/-- The first refusal of the checks, when there is one. -/
theorem ready_eq_some {needs : List SubBlock} {s : State} {r : Refusal} (h : ready needs s = some r) :
    (s.cfg.valid = false ∧ r = .badConfiguration) ∨
      (s.cfg.valid = true ∧ ∃ b ∈ needs, s.inited.has b = false ∧ r = .uninitialised b) := by
  unfold ready at h
  split at h
  · next hv =>
    right
    refine ⟨hv, ?_⟩
    rw [Option.map_eq_some_iff] at h
    obtain ⟨b, hb, rfl⟩ := h
    exact ⟨b, List.mem_of_find?_eq_some hb, by simpa using List.find?_some hb, rfl⟩
  · next hv =>
    left
    exact ⟨by simpa using hv, by simpa using h.symm⟩

/-- An initialised machine passes every check of the first kind. -/
theorem ready_of_allInited {s : State} (hv : s.cfg.valid = true) (h : s.allInited) (needs : List SubBlock) :
    ready needs s = none := by
  rw [ready_eq_none]
  refine ⟨hv, fun b _ => ?_⟩
  rw [State.allInited] at h
  cases b <;> simp [Inited.has, h]

/-! ### Configurations -/

/-- What R4 to R11 say of the sizes. -/
theorem Cfg.valid_sizes {c : Cfg} (h : c.valid = true) :
    2 ≤ c.n ∧ 1 ≤ c.h ∧ 1 ≤ c.maxp ∧ c.maxp ≤ 255 ∧ 2 ≤ c.l ∧ 1 ≤ c.w := by
  simp only [Cfg.valid, Bool.and_eq_true, decide_eq_true_eq] at h
  omega

/-- `HDR` is no line-start byte (R6). -/
theorem Cfg.valid_hdr {c : Cfg} (h : c.valid = true) : isLineStart c.hdr = false := by
  simp only [Cfg.valid, Bool.and_eq_true, Bool.not_eq_true'] at h
  exact h.1.1.1.1.1.1.2

/-! ### Indices modulo a capacity -/

/-- The remainder of a sum that is below twice the modulus. -/
theorem mod_of_lt_double {n x : Nat} (h : x < 2 * n) : x % n = if x < n then x else x - n := by
  split
  · next hx => exact Nat.mod_eq_of_lt hx
  · next hx => rw [Nat.mod_eq_sub_mod (by omega), Nat.mod_eq_of_lt (by omega)]

theorem nextIndex_lt {n : Nat} (x : Nat) (h : 0 < n) : nextIndex n x < n := Nat.mod_lt _ h

theorem nextIndex_eq {n x : Nat} (h : x < n) : nextIndex n x = if x + 1 = n then 0 else x + 1 := by
  unfold nextIndex
  rw [mod_of_lt_double (by omega)]
  split <;> split <;> omega

theorem occupancy_eq {n wr rd : Nat} (hw : wr < n) (hr : rd < n) :
    occupancy n wr rd = if rd ≤ wr then wr - rd else wr + n - rd := by
  unfold occupancy
  rw [mod_of_lt_double (by omega)]
  split <;> split <;> omega

@[simp] theorem ringEmpty_iff {wr rd : Nat} : ringEmpty wr rd = true ↔ wr = rd := by simp [ringEmpty]

@[simp] theorem ringFull_iff {n wr rd : Nat} : ringFull n wr rd = true ↔ nextIndex n wr = rd := by simp [ringFull]

/-- A full ring holds `N - 1` bytes, and only a full one (R24). -/
theorem full_iff_occupancy {n wr rd : Nat} (hw : wr < n) (hr : rd < n) :
    nextIndex n wr = rd ↔ occupancy n wr rd = n - 1 := by
  rw [nextIndex_eq hw, occupancy_eq hw hr]
  split <;> split <;> omega

theorem occupancy_lt {n wr rd : Nat} (hw : wr < n) (hr : rd < n) : occupancy n wr rd < n := by
  rw [occupancy_eq hw hr]; split <;> omega

/-! ### The ring's contents -/

@[simp] theorem State.length_ringContents (s : State) :
    s.ringContents.length = occupancy s.cfg.n s.rb.wr s.rb.rd := by
  simp [State.ringContents]

/-- The contents depend on the ring and the capacity alone. -/
theorem State.ringContents_congr {s t : State} (hc : t.cfg = s.cfg) (hr : t.rb = s.rb) :
    t.ringContents = s.ringContents := by
  simp [State.ringContents, hc, hr]

@[simp] theorem State.ringContents_setDx (s : State) (v) : (s.setDx v).ringContents = s.ringContents := rfl

@[simp] theorem State.ringContents_setPd (s : State) (v) : (s.setPd v).ringContents = s.ringContents := rfl

@[simp] theorem State.ringContents_setBf (s : State) (v) : (s.setBf v).ringContents = s.ringContents := rfl

@[simp] theorem State.ringContents_setLp (s : State) (v) : (s.setLp v).ringContents = s.ringContents := rfl

@[simp] theorem State.ringContents_setInited (s : State) (v) : (s.setInited v).ringContents = s.ringContents := rfl

@[simp] theorem State.ringContents_setRx (s : State) (v) : (s.setRx v).ringContents = s.ringContents := rfl

@[simp] theorem State.ringContents_setProducer (s : State) (v) : (s.setProducer v).ringContents = s.ringContents := rfl

@[simp] theorem State.ringContents_setReports (s : State) (v) : (s.setReports v).ringContents = s.ringContents := rfl

@[simp] theorem State.ringContents_setConsumer (s : State) (v) : (s.setConsumer v).ringContents = s.ringContents := rfl

@[simp] theorem State.ringContents_setResult (s : State) (v) : (s.setResult v).ringContents = s.ringContents := rfl

@[simp] theorem State.ringContents_setDraws (s : State) (v) : (s.setDraws v).ringContents = s.ringContents := rfl

@[simp] theorem State.ringContents_setSched (s : State) (v) : (s.setSched v).ringContents = s.ringContents := rfl

@[simp] theorem State.ringContents_emit (s : State) (e : Event) : (s.emit e).ringContents = s.ringContents := rfl

/-- Storing at the write index and publishing appends the byte. -/
theorem ringContents_store {s : State} {b : Byte} {m : Memory} (hw : s.rb.wr < s.cfg.n) (hr : s.rb.rd < s.cfg.n)
    (hfull : nextIndex s.cfg.n s.rb.wr ≠ s.rb.rd)
    (hm : ∀ a, m.read a = if a = s.rb.wr then b else s.rb.data.read a) {t : State} (hc : t.cfg = s.cfg)
    (ht : t.rb = { s.rb with data := m, wr := nextIndex s.cfg.n s.rb.wr }) :
    t.ringContents = s.ringContents ++ [b] := by
  have hocc : occupancy s.cfg.n (nextIndex s.cfg.n s.rb.wr) s.rb.rd = occupancy s.cfg.n s.rb.wr s.rb.rd + 1 := by
    have hn := nextIndex_lt s.rb.wr (n := s.cfg.n) (by omega)
    rw [occupancy_eq hn hr, occupancy_eq hw hr]
    rw [nextIndex_eq hw] at hfull ⊢
    split <;> split <;> split <;> simp_all <;> omega
  have hlt := occupancy_lt hw hr
  have heq := occupancy_eq hw hr
  unfold State.ringContents
  rw [hc, ht]
  simp only [hocc, List.range_succ, List.map_append, List.map_cons, List.map_nil]
  congr 1
  · apply List.map_congr_left
    intro j hj
    rw [List.mem_range] at hj
    rw [hm, if_neg]
    rw [mod_of_lt_double (by omega)]
    split at heq <;> split <;> omega
  · rw [hm, if_pos]
    rw [mod_of_lt_double (by omega)]
    split at heq <;> split <;> omega

/-- Releasing the slot at the read index removes the oldest byte. -/
theorem ringContents_release {s : State} (hw : s.rb.wr < s.cfg.n) (hr : s.rb.rd < s.cfg.n)
    (hne : s.rb.wr ≠ s.rb.rd) {t : State} (hc : t.cfg = s.cfg)
    (ht : t.rb = { s.rb with rd := nextIndex s.cfg.n s.rb.rd }) :
    s.ringContents = s.rb.data.read s.rb.rd :: t.ringContents := by
  have hocc : occupancy s.cfg.n s.rb.wr s.rb.rd = occupancy s.cfg.n s.rb.wr (nextIndex s.cfg.n s.rb.rd) + 1 := by
    have hn := nextIndex_lt s.rb.rd (n := s.cfg.n) (by omega)
    rw [occupancy_eq hw hn, occupancy_eq hw hr, nextIndex_eq hr]
    split <;> split <;> split <;> omega
  have hlt := occupancy_lt hw hr
  unfold State.ringContents
  rw [hc, ht]
  simp only [hocc, List.range_succ_eq_map, List.map_cons, List.map_map, Nat.add_zero]
  congr 1
  · rw [Nat.mod_eq_of_lt hr]
  · apply List.map_congr_left
    intro j hj
    rw [List.mem_range] at hj
    simp only [Function.comp_apply, nextIndex]
    congr 1
    rw [Nat.mod_add_mod]
    congr 1
    omega

theorem ringContents_eq_nil {s : State} (hw : s.rb.wr < s.cfg.n) (hr : s.rb.rd < s.cfg.n) :
    s.ringContents = [] ↔ s.rb.wr = s.rb.rd := by
  rw [← List.length_eq_zero_iff, State.length_ringContents, occupancy_eq hw hr]
  split <;> omega

/-! ### Memory accesses in bounds -/

theorem memRead_ok {sp : Space} {size a : Nat} (h : a < size) (m : Memory) : memRead sp size a m = .ok (m.read a) := by
  simp [memRead, h]

theorem memWrite_ok {sp : Space} {size a : Nat} (h : a < size) (v : Byte) (m : Memory) :
    memWrite sp size a v m = .ok (m.write a v) := by
  simp [memWrite, h]

theorem memReadUpTo_ok {sp : Space} {size k : Nat} (h : k ≤ size) (m : Memory) :
    memReadUpTo sp size k m = .ok ((List.range k).map (fun a => m.read a)) := by
  simp [memReadUpTo, h]

/-! ### The invariant's transport -/

/-- The invariant reads these fields only. -/
theorem Legal.of_eq {s t : State} (h : Legal s) (cfg : t.cfg = s.cfg) (rb : t.rb = s.rb) (dx : t.dx = s.dx) (bf : t.bf = s.bf)
    (lp : t.lp = s.lp) (rx : t.rx = s.rx) (producer : t.producer = s.producer) (reports : t.reports = s.reports) :
    Legal t := by
  obtain ⟨h1, h2, h3, h4, h5, h6, h7, h8, h9, h10, h11, h12, h13, h14, h15, h16, h17, h18, h19⟩ := h
  constructor <;> simp_all

theorem Legal.setResult {s : State} (h : Legal s) (r : Result) : Legal (s.setResult r) :=
  h.of_eq rfl rfl rfl rfl rfl rfl rfl rfl

theorem Legal.setConsumer {s : State} (h : Legal s) (c : ConsumerPhase) : Legal (s.setConsumer c) :=
  h.of_eq rfl rfl rfl rfl rfl rfl rfl rfl

theorem Legal.setPd {s : State} (h : Legal s) (p : PdState) : Legal (s.setPd p) :=
  h.of_eq rfl rfl rfl rfl rfl rfl rfl rfl

theorem Legal.setInited {s : State} (h : Legal s) (f : Inited) : Legal (s.setInited f) :=
  h.of_eq rfl rfl rfl rfl rfl rfl rfl rfl

theorem Legal.setDraws {s : State} (h : Legal s) (k : Nat) : Legal (s.setDraws k) :=
  h.of_eq rfl rfl rfl rfl rfl rfl rfl rfl

theorem Legal.setSched {s : State} (h : Legal s) (l : List Act) : Legal (s.setSched l) :=
  h.of_eq rfl rfl rfl rfl rfl rfl rfl rfl

theorem Legal.emit {s : State} (h : Legal s) (e : Event) : Legal (s.emit e) :=
  h.of_eq rfl rfl rfl rfl rfl rfl rfl rfl

theorem Legal.setRb {s : State} (h : Legal s) {r : RingBuffer} (hw : r.wr < s.cfg.n) (hr : r.rd < s.cfg.n) (hf : r.data.wf = true)
    (hb : r.data.within s.cfg.n = true) : Legal (s.setRb r) :=
  { h with wr_lt := hw, rd_lt := hr, rb_wf := hf, rb_within := hb }

theorem Legal.setDx {s : State} (h : Legal s) {x : Extractor} (hl : x.last < s.cfg.h) (hd : x.drops < 2 ^ s.cfg.w) :
    Legal (s.setDx x) :=
  { h with last_lt := hl, drops_lt := hd }

theorem Legal.setBf {s : State} (h : Legal s) {p : FrameParser} (hc : p.pcur < s.cfg.maxp) (hr : p.rangesOk s.cfg.maxp)
    (hf : p.payload.wf = true) (hb : p.payload.within s.cfg.maxp = true) : Legal (s.setBf p) :=
  { h with pcur_lt := hc, bf_ranges := hr, payload_wf := hf, payload_within := hb }

theorem Legal.setLp {s : State} (h : Legal s) {p : LineParser} (hc : p.cur < s.cfg.l) (hf : p.buf.wf = true)
    (hb : p.buf.within s.cfg.l = true) : Legal (s.setLp p) :=
  { h with cur_lt := hc, line_wf := hf, line_within := hb }

theorem Legal.setRx {s : State} (h : Legal s) {r : Receiver} (hp : r.pos < s.cfg.h) (hf : r.hwbuf.wf = true)
    (hb : r.hwbuf.within s.cfg.h = true) : Legal (s.setRx r) :=
  { h with pos_lt := hp, hwbuf_wf := hf, hwbuf_within := hb }

theorem Legal.setProducer {s : State} (h : Legal s) {p : ProducerPhase} (hp : p.rangesOk s.cfg.h) : Legal (s.setProducer p) :=
  { h with producer_ranges := hp }

theorem Legal.setReports {s : State} (h : Legal s) {l : List Nat} (hl : ∀ p ∈ l, p ≤ s.cfg.h) : Legal (s.setReports l) :=
  { h with reports_le := hl }

/-! ### RB.WRITE and RB.READ -/

/-- Everything RB.WRITE can do from a state of the invariant. -/
theorem ringWrite_cases {s : State} (h : Legal s) (b : Byte) :
    (nextIndex s.cfg.n s.rb.wr = s.rb.rd ∧ ringWrite b s = .ok (false, s)) ∨
      (nextIndex s.cfg.n s.rb.wr ≠ s.rb.rd ∧
        ringWrite b s = .ok (true, s.setRb { s.rb with data := s.rb.data.write s.rb.wr b,
                                                       wr := nextIndex s.cfg.n s.rb.wr })) := by
  by_cases hf : nextIndex s.cfg.n s.rb.wr = s.rb.rd
  · left; exact ⟨hf, by simp [ringWrite, hf]⟩
  · right; exact ⟨hf, by simp [ringWrite, hf, memWrite_ok h.wr_lt]⟩

theorem Legal.stored {s : State} (h : Legal s) (b : Byte) :
    Legal (s.setRb { s.rb with data := s.rb.data.write s.rb.wr b, wr := nextIndex s.cfg.n s.rb.wr }) :=
  h.setRb (nextIndex_lt _ (by have := h.wr_lt; omega)) h.rd_lt (Memory.wf_write h.rb_wf _ _)
    (Memory.within_write h.wr_lt _ h.rb_within)

/-- Everything RB.READ can do from a state of the invariant. -/
theorem ringRead_cases {s : State} (h : Legal s) :
    (s.rb.wr = s.rb.rd ∧ ringRead s = .ok (none, s)) ∨
      (s.rb.wr ≠ s.rb.rd ∧
        ringRead s = .ok (some (s.rb.data.read s.rb.rd), s.setRb { s.rb with rd := nextIndex s.cfg.n s.rb.rd })) := by
  by_cases he : s.rb.wr = s.rb.rd
  · left; exact ⟨he, by simp [ringRead, he]⟩
  · right; exact ⟨he, by simp [ringRead, he, memRead_ok h.rd_lt]⟩

theorem Legal.released {s : State} (h : Legal s) : Legal (s.setRb { s.rb with rd := nextIndex s.cfg.n s.rb.rd }) :=
  h.setRb h.wr_lt (nextIndex_lt _ (by have := h.rd_lt; omega)) h.rb_wf h.rb_within

/-- RB.WRITE on the contents: the byte is appended when there is room; the rest of the state is the ring's alone. -/
theorem ringWrite_contents {s : State} (h : Legal s) (b : Byte) :
    ∃ t ok, ringWrite b s = .ok (ok, t) ∧ Legal t ∧ t = s.setRb t.rb ∧ t.rb.rd = s.rb.rd ∧
      ok = decide (s.ringContents.length < s.cfg.n - 1) ∧
      t.ringContents = (if ok then s.ringContents ++ [b] else s.ringContents) ∧
      t.rb.wr = (if ok then nextIndex s.cfg.n s.rb.wr else s.rb.wr) ∧
      ∀ a, t.rb.data.read a = if ok = true ∧ a = s.rb.wr then b else s.rb.data.read a := by
  have hocc := occupancy_lt h.wr_lt h.rd_lt
  rcases ringWrite_cases h b with ⟨hf, hr⟩ | ⟨hf, hr⟩
  · refine ⟨s, false, hr, h, rfl, rfl, ?_, by simp, by simp, by simp⟩
    rw [full_iff_occupancy h.wr_lt h.rd_lt] at hf
    simp [hf]
  · refine ⟨_, true, hr, h.stored b, rfl, rfl, ?_, ?_, by simp, ?_⟩
    · have hf' := hf
      rw [ne_eq, full_iff_occupancy h.wr_lt h.rd_lt] at hf'
      simp; omega
    · simpa using ringContents_store
        (t := s.setRb { s.rb with data := s.rb.data.write s.rb.wr b, wr := nextIndex s.cfg.n s.rb.wr })
        h.wr_lt h.rd_lt hf (fun a => Memory.read_write h.rb_wf s.rb.wr b a) rfl rfl
    · intro a; simpa using Memory.read_write h.rb_wf s.rb.wr b a

/-- RB.READ on the contents: the oldest byte is taken; only the read index changes. -/
theorem ringRead_contents {s : State} (h : Legal s) :
    ∃ t, ringRead s = .ok (s.ringContents.head?, t) ∧ Legal t ∧ t = s.setRb { s.rb with rd := t.rb.rd } ∧
      t.ringContents = s.ringContents.tail ∧
      t.rb.rd = (if s.ringContents = [] then s.rb.rd else nextIndex s.cfg.n s.rb.rd) := by
  rcases ringRead_cases h with ⟨he, hr⟩ | ⟨he, hr⟩
  · have hnil := (ringContents_eq_nil h.wr_lt h.rd_lt).2 he
    exact ⟨s, by rw [hr, hnil]; rfl, h, rfl, by rw [hnil]; rfl, by rw [if_pos hnil]⟩
  · have hcons := ringContents_release (t := s.setRb { s.rb with rd := nextIndex s.cfg.n s.rb.rd })
      h.wr_lt h.rd_lt he rfl rfl
    exact ⟨_, by rw [hr, hcons]; rfl, h.released, rfl, by rw [hcons]; rfl, by rw [hcons]; simp⟩

/-! ### Runs of RB.WRITE and RB.READ -/

/-- Advancing an index `k` times after one advance (R97). -/
theorem nextIndex_add_mod (n x k : Nat) : (nextIndex n x + k) % n = (x + (k + 1)) % n := by
  rw [nextIndex, Nat.mod_add_mod]; congr 1; omega

/-- RB.WRITE_N on the contents (R94): the bytes that fit, in order; every slot outside the stored ones keeps its byte. -/
theorem ringWriteN_contents {s : State} (h : Legal s) (bs : Bytes) :
    ∃ t k, ringWriteN bs s = .ok (k, t) ∧ Legal t ∧ t = s.setRb t.rb ∧ t.rb.rd = s.rb.rd ∧
      k = min bs.length (s.cfg.n - 1 - s.ringContents.length) ∧
      t.ringContents = s.ringContents ++ bs.take k ∧ t.rb.wr = (s.rb.wr + k) % s.cfg.n ∧
      ∀ a, (∀ j, j < k → a ≠ (s.rb.wr + j) % s.cfg.n) → t.rb.data.read a = s.rb.data.read a := by
  induction bs generalizing s with
  | nil => exact ⟨s, 0, rfl, h, rfl, rfl, by simp, by simp, by simp [Nat.mod_eq_of_lt h.wr_lt], by simp⟩
  | cons b rest ih =>
    obtain ⟨t, ok, hw, hi, ht, hrd, hok, hcont, hwr, hread⟩ := ringWrite_contents h b
    have hcfg : t.cfg = s.cfg := by rw [ht]; rfl
    cases ok with
    | false =>
      have hfull := of_decide_eq_false hok.symm
      have hk : min (rest.length + 1) (s.cfg.n - 1 - s.ringContents.length) = 0 := by omega
      refine ⟨t, 0, by simp [ringWriteN, hw], hi, ht, hrd, by simpa using hk.symm, by simpa using hcont, ?_, ?_⟩
      · simpa [Nat.mod_eq_of_lt h.wr_lt] using hwr
      · intro a _; simpa using hread a
    | true =>
      have hroom := of_decide_eq_true hok.symm
      obtain ⟨u, k, hw', hi', hu, hrd', hk, hcont', hwr', hread'⟩ := ih hi
      rw [hcont, if_pos rfl] at hcont' hk
      rw [hwr, if_pos rfl, hcfg] at hwr' hread'
      rw [hcfg] at hk
      refine ⟨u, k + 1, by simp [ringWriteN, hw, hw'], hi', by rw [hu, ht]; rfl, by rw [hrd', hrd], ?_, ?_, ?_, ?_⟩
      · simp only [List.length_append, List.length_cons, List.length_nil] at hk ⊢; omega
      · rw [hcont']; simp
      · rw [hwr', nextIndex_add_mod]
      · intro a ha
        rw [hread' a (fun j hj => by rw [nextIndex_add_mod]; exact ha (j + 1) (by omega)), hread a, if_neg]
        rintro ⟨-, rfl⟩
        exact ha 0 (by omega) (by simp [Nat.mod_eq_of_lt h.wr_lt])

/-- Everything one step inside RB.WRITE_N can do from a state of the invariant (R94). -/
theorem writeNStep_cases {s : State} (h : Legal s) (todo : Bytes) (k : Nat) :
    ((todo = [] ∨ nextIndex s.cfg.n s.rb.wr = s.rb.rd) ∧
      writeNStep todo k s = .ok (.stored k, s.setProducer .quiescent)) ∨
    ∃ b rest, todo = b :: rest ∧ nextIndex s.cfg.n s.rb.wr ≠ s.rb.rd ∧
      writeNStep todo k s = .ok (.ok true,
        (s.setRb { s.rb with data := s.rb.data.write s.rb.wr b, wr := nextIndex s.cfg.n s.rb.wr }).setProducer
          (.writing rest (k + 1))) := by
  cases todo with
  | nil => left; exact ⟨Or.inl rfl, rfl⟩
  | cons b rest =>
    rcases ringWrite_cases h b with ⟨hf, hw⟩ | ⟨hf, hw⟩
    · left; exact ⟨Or.inr hf, by simp [writeNStep, hw]⟩
    · right; exact ⟨b, rest, rfl, hf, by simp [writeNStep, hw]⟩

/-- A step inside RB.WRITE_N keeps the invariant. -/
theorem writeNStep_legal {s : State} (h : Legal s) (todo : Bytes) (k : Nat) :
    ∃ r t, writeNStep todo k s = .ok (r, t) ∧ Legal t := by
  rcases writeNStep_cases h todo k with ⟨-, hs⟩ | ⟨b, rest, -, -, hs⟩
  · exact ⟨_, _, hs, h.setProducer trivial⟩
  · exact ⟨_, _, hs, (h.stored b).setProducer trivial⟩

/-- Everything one step inside RB.READ_N can do from a state of the invariant (R94). -/
theorem readNStep_cases {s : State} (h : Legal s) (left : Nat) (got : Bytes) :
    ((left = 0 ∨ s.rb.wr = s.rb.rd) ∧ readNStep left got s = .ok (.bytes got, s.setConsumer .waiting)) ∨
    ∃ n, left = n + 1 ∧ s.rb.wr ≠ s.rb.rd ∧
      readNStep left got s = .ok (.read (some (s.rb.data.read s.rb.rd)),
        (s.setRb { s.rb with rd := nextIndex s.cfg.n s.rb.rd }).setConsumer
          (.reading n (got ++ [s.rb.data.read s.rb.rd]))) := by
  cases left with
  | zero => left; exact ⟨Or.inl rfl, rfl⟩
  | succ n =>
    rcases ringRead_cases h with ⟨he, hr⟩ | ⟨he, hr⟩
    · left; exact ⟨Or.inr he, by simp [readNStep, hr]⟩
    · right; exact ⟨n, rfl, he, by simp [readNStep, hr]⟩

/-- A step inside RB.READ_N keeps the invariant. -/
theorem readNStep_legal {s : State} (h : Legal s) (left : Nat) (got : Bytes) :
    ∃ r t, readNStep left got s = .ok (r, t) ∧ Legal t := by
  rcases readNStep_cases h left got with ⟨-, hs⟩ | ⟨n, -, -, hs⟩
  · exact ⟨_, _, hs, h.setConsumer _⟩
  · exact ⟨_, _, hs, h.released.setConsumer _⟩

/-- RB.READ_N on the contents (R94): up to `k` bytes, oldest first; only the read index changes. -/
theorem ringReadN_contents {s : State} (h : Legal s) (k : Nat) :
    ∃ t, ringReadN k s = .ok (s.ringContents.take k, t) ∧ Legal t ∧ t = s.setRb { s.rb with rd := t.rb.rd } ∧
      t.ringContents = s.ringContents.drop k ∧
      t.rb.rd = (s.rb.rd + min k s.ringContents.length) % s.cfg.n := by
  induction k generalizing s with
  | zero => exact ⟨s, rfl, h, rfl, rfl, by simp [Nat.mod_eq_of_lt h.rd_lt]⟩
  | succ k ih =>
    obtain ⟨t, hr, hi, ht, hcont, hrd⟩ := ringRead_contents h
    have hcfg : t.cfg = s.cfg := by rw [ht]; rfl
    cases hc : s.ringContents with
    | nil =>
      rw [hc] at hr hcont
      rw [if_pos hc] at hrd
      exact ⟨t, by simp [ringReadN, hr], hi, ht, by simpa using hcont, by simpa [Nat.mod_eq_of_lt h.rd_lt] using hrd⟩
    | cons b rest =>
      rw [hc] at hr hcont
      rw [if_neg (by simp [hc])] at hrd
      obtain ⟨u, hr', hi', hu, hcont', hrd'⟩ := ih hi
      rw [hcont, List.tail_cons] at hr' hcont' hrd'
      refine ⟨u, by simp [ringReadN, hr, hr'], hi', ?_, by rw [hcont']; rfl, ?_⟩
      · rw [hu, ht]; rfl
      · rw [hrd', hcfg, hrd, nextIndex_add_mod, List.length_cons, Nat.succ_min_succ]

end Sys2Proof.Machine
end

