-- ==== Sys2Proof/Laws/Parsers.lean ====
section
/-! SUPPORT. What LP.STEP, BF.STEP and PD.STEP can do, said once: their cases, their frame, and that they keep the
invariant. -/

namespace Sys2Proof.Machine

/-! ### Byte classes -/

theorem isTerm_iff {b : Byte} : isTerm b = true ↔ b = byteCr ∨ b = byteLf := by simp [isTerm]

theorem isTerm_false_iff {b : Byte} : isTerm b = false ↔ b ≠ byteCr ∧ b ≠ byteLf := by simp [isTerm]

theorem not_isTerm_of_isPrintable {b : Byte} (h : isPrintable b = true) : isTerm b = false := by
  rw [isTerm_false_iff]
  constructor <;> rintro rfl <;> revert h <;> decide

theorem isLineStart_iff {b : Byte} : isLineStart b = true ↔ isPrintable b = true ∨ b = byteCr ∨ b = byteLf := by
  simp [isLineStart, isTerm_iff]

theorem isLineStart_false_iff {b : Byte} :
    isLineStart b = false ↔ isPrintable b = false ∧ b ≠ byteCr ∧ b ≠ byteLf := by
  simp [isLineStart, isTerm]

/-- The class of a byte in `Idle`, one condition a class (R76). -/
theorem pdClass_idle (c : Cfg) (b : Byte) :
    (isPrintable b = true ∧ pdClass c .idle b = .printable) ∨ (b = byteCr ∧ pdClass c .idle b = .cr) ∨
      (b = byteLf ∧ pdClass c .idle b = .lf) ∨
      (isLineStart b = false ∧ b = c.hdr ∧ pdClass c .idle b = .header) ∨
      (isLineStart b = false ∧ b ≠ c.hdr ∧ pdClass c .idle b = .noise) := by
  by_cases hp : isPrintable b = true
  · left; exact ⟨hp, by simp [pdClass, hp]⟩
  · by_cases hc : b = byteCr
    · right; left; exact ⟨hc, by subst hc; simp [pdClass, hp]⟩
    · by_cases hl : b = byteLf
      · right; right; left; exact ⟨hl, by subst hl; simp [pdClass, hp, show byteLf ≠ byteCr by decide]⟩
      · have hls : isLineStart b = false := isLineStart_false_iff.2 ⟨by simpa using hp, hc, hl⟩
        by_cases hh : b = c.hdr
        · right; right; right; left; exact ⟨hls, hh, by simp [pdClass, hp, hc, hl, ← hh]⟩
        · right; right; right; right; exact ⟨hls, hh, by simp [pdClass, hp, hc, hl, hh]⟩

/-! ### The line parser -/

/-- The bytes of the line so far. -/
def State.lineText (s : State) : Bytes := (List.range s.lp.cur).map (fun a => s.lp.buf.read a)

/-- A terminator on an empty line (R161). -/
theorem lineTerminate_empty {s : State} (h : s.lp.cur = 0) : lineTerminate s = .ok (s.setLp { s.lp with cur := 0 }) := by
  simp [lineTerminate, h]

/-- A terminator on a line that holds bytes (R161): the line is what stood before the NUL. -/
theorem lineTerminate_exec {s : State} (h : Legal s) (hc : 0 < s.lp.cur) :
    lineTerminate s = .ok ((s.setLp { cur := 0, buf := s.lp.buf.write s.lp.cur byteNul }).emit
      (lineEvent s.cfg s.lineText)) := by
  have htext : (List.range s.lp.cur).map (fun a => (s.lp.buf.write s.lp.cur byteNul).read a) = s.lineText := by
    apply List.map_congr_left
    intro a ha
    rw [List.mem_range] at ha
    rw [Memory.read_write h.line_wf, if_neg (by omega)]
  simp [lineTerminate, Nat.pos_iff_ne_zero.1 hc, memWrite_ok h.cur_lt, memReadUpTo_ok (Nat.le_of_lt h.cur_lt), htext]

theorem lpRole_term {c : Cfg} {cur : Nat} {b : Byte} (hb : isTerm b = true) : lpRole c cur b = .cr ∨ lpRole c cur b = .lf := by
  rcases isTerm_iff.1 hb with rfl | rfl
  · left; simp [lpRole]
  · right; simp [lpRole, show byteLf ≠ byteCr by decide]

/-- LP.STEP on a terminator (R161). -/
theorem lineStep_term {s : State} {b : Byte} (hb : isTerm b = true) :
    lineStep b s = (lineTerminate s).map (fun s' => (true, s')) := by
  unfold lineStep lpRoleAt
  rcases lpRole_term hb (c := s.cfg) (cur := s.lp.cur) with h | h <;> rw [h] <;> rfl

/-- LP.STEP on another byte with room (R162). -/
theorem lineStep_append {s : State} {b : Byte} (h : Legal s) (hb : isTerm b = false) (hc : s.lp.cur < s.cfg.l - 1) :
    lineStep b s = .ok (false, s.setLp { cur := s.lp.cur + 1, buf := s.lp.buf.write s.lp.cur b }) := by
  rw [isTerm_false_iff] at hb
  simp [lineStep, lpRoleAt, lpRole, hb.1, hb.2, hc, lpAct, lineAppend, memWrite_ok h.cur_lt, Except.map]

/-- LP.STEP on another byte with the buffer full (R162). -/
theorem lineStep_overflow {s : State} {b : Byte} (hb : isTerm b = false) (hc : ¬ s.lp.cur < s.cfg.l - 1) :
    lineStep b s = .ok (false, s.setLp { s.lp with cur := 0 }) := by
  rw [isTerm_false_iff] at hb
  simp [lineStep, lpRoleAt, lpRole, hb.1, hb.2, hc, lpAct]

/-- Everything LP.STEP can do from a state of the invariant. -/
theorem lineStep_spec {s : State} (h : Legal s) (b : Byte) :
    ∃ t es, lineStep b s = .ok (isTerm b, t) ∧ t = { s with lp := t.lp, trace := s.trace ++ es } ∧ es.length ≤ 1 ∧
      Legal t ∧ (isTerm b = true → t.lp.cur = 0) ∧ (isTerm b = false → es = []) := by
  have hl := Cfg.valid_sizes h.cfg_valid
  have hcl := h.cur_lt
  cases hb : isTerm b with
  | true =>
    by_cases hc : s.lp.cur = 0
    · refine ⟨s.setLp { s.lp with cur := 0 }, [], ?_, by simp [State.setLp], by simp,
        h.setLp (by simp; omega) h.line_wf h.line_within, by simp, by simp⟩
      rw [lineStep_term hb, lineTerminate_empty hc]; rfl
    · refine ⟨(s.setLp { cur := 0, buf := s.lp.buf.write s.lp.cur byteNul }).emit (lineEvent s.cfg s.lineText),
        [lineEvent s.cfg s.lineText], ?_, by simp [State.setLp, State.emit], by simp,
        (h.setLp (by simp; omega) (Memory.wf_write h.line_wf _ _) (Memory.within_write h.cur_lt _ h.line_within)).emit _,
        by simp, by simp⟩
      rw [lineStep_term hb, lineTerminate_exec h (by omega)]; rfl
  | false =>
    by_cases hc : s.lp.cur < s.cfg.l - 1
    · exact ⟨_, [], lineStep_append h hb hc, by simp [State.setLp], by simp,
        h.setLp (by simp; omega) (Memory.wf_write h.line_wf _ _) (Memory.within_write h.cur_lt _ h.line_within),
        by simp, by simp⟩
    · exact ⟨_, [], lineStep_overflow hb hc, by simp [State.setLp], by simp,
        h.setLp (by simp; omega) h.line_wf h.line_within, by simp, by simp⟩

/-! ### The frame parser -/

/-- The bytes of `PAYLOAD[0 .. bf.len)`. -/
def State.payloadBytes (s : State) : Bytes := (List.range s.bf.len.toNat).map (fun a => s.bf.payload.read a)

/-- A byte completes or aborts a frame (R141): a length at or above `MAXP`, or any checksum byte. -/
def frameEnds (s : State) (b : Byte) : Bool :=
  (s.bf.state == .readLen && lenTooLong s.cfg.maxp b) || s.bf.state == .readChecksum

theorem payloadStore_ok {s : State} (h : s.bf.pcur < s.cfg.maxp) (st : BfState) (b : Byte) :
    payloadStore st b s = .ok (false, s.setBf { s.bf with
      payload := s.bf.payload.write s.bf.pcur b, csum := csumAdd s.bf.csum b, pcur := s.bf.pcur + 1, state := st }) := by
  simp [payloadStore, memWrite_ok h]

theorem frameDeliver_ok {s : State} (h : s.bf.len.toNat ≤ s.cfg.maxp) :
    frameDeliver s = .ok (true, (s.setBf { s.bf with state := .waitHeader }).emit
      (.frameOk s.bf.dev s.bf.sys s.bf.msg s.bf.seq s.bf.len s.payloadBytes)) := by
  simp [frameDeliver, memReadUpTo_ok h, State.payloadBytes]

/-- What a byte's row does to the frame parser, with the events and the result (R142 to R146). -/
def frameAfter (s : State) (b : Byte) : FrameParser × List Event :=
  match bfRoleAt s b with
  | .header => ({ s.bf with csum := b, idx := 0, state := .readIds }, [])
  | .other => (s.bf, [])
  | .device => ({ s.bf with dev := b, csum := csumAdd s.bf.csum b, idx := 1 }, [])
  | .system => ({ s.bf with sys := b, csum := csumAdd s.bf.csum b, idx := 2 }, [])
  | .msg => ({ s.bf with msg := b, csum := csumAdd s.bf.csum b, idx := 3 }, [])
  | .seq => ({ s.bf with seq := b, csum := csumAdd s.bf.csum b, state := .readLen }, [])
  | .tooLong => ({ s.bf with len := b, csum := csumAdd s.bf.csum b, state := .waitHeader }, [.frameLenAbort b])
  | .zero => ({ s.bf with len := b, csum := csumAdd s.bf.csum b, state := .readChecksum }, [])
  | .valid => ({ s.bf with len := b, csum := csumAdd s.bf.csum b, pcur := 0, state := .readPayload }, [])
  | .payload => ({ s.bf with payload := s.bf.payload.write s.bf.pcur b, csum := csumAdd s.bf.csum b,
                             pcur := s.bf.pcur + 1, state := .readPayload }, [])
  | .payloadLast => ({ s.bf with payload := s.bf.payload.write s.bf.pcur b, csum := csumAdd s.bf.csum b,
                                 pcur := s.bf.pcur + 1, state := .readChecksum }, [])
  | .csumMatch => ({ s.bf with state := .waitHeader },
      [.frameOk s.bf.dev s.bf.sys s.bf.msg s.bf.seq s.bf.len s.payloadBytes])
  | .csumMismatch => ({ s.bf with state := .waitHeader }, [.frameCsumFail s.bf.csum b])

theorem byte_pos {b : Byte} (hb : b ≠ 0) : 0 < b.toNat := by
  rcases Nat.eq_zero_or_pos b.toNat with h0 | h0
  · exact absurd (BitVec.eq_of_toNat_eq (by simpa using h0)) hb
  · exact h0

theorem idRole_cases (i : Fin 4) : idRole i = .device ∨ idRole i = .system ∨ idRole i = .msg ∨ idRole i = .seq := by
  revert i; decide

/-- BF.STEP from a state of the invariant, in closed form. -/
theorem frameStep_eq {s : State} (h : Legal s) (b : Byte) :
    frameStep b s = .ok (frameEnds s b,
      { s with bf := (frameAfter s b).1, trace := s.trace ++ (frameAfter s b).2 }) := by
  have hrng := h.bf_ranges
  unfold FrameParser.rangesOk at hrng
  unfold frameStep frameAfter frameEnds
  unfold bfRoleAt bfRole
  cases hst : s.bf.state with
  | waitHeader =>
    by_cases hb : b = s.cfg.hdr <;> simp [hb, bfAct, State.setBf]
  | readIds =>
    rcases idRole_cases s.bf.idx with hi | hi | hi | hi <;> simp [hst, hi, bfAct, State.setBf]
  | readLen =>
    cases hlen : lenTooLong s.cfg.maxp b
    · by_cases hb : b = 0#8
      · subst hb; simp [bfAct, State.setBf]
      · simp [hb, bfAct, State.setBf]
    · simp [bfAct, State.setBf, State.emit]
  | readPayload =>
    rw [hst] at hrng
    have hpc : s.bf.pcur < s.cfg.maxp := by omega
    by_cases hl : s.bf.pcur + 1 = s.bf.len.toNat <;> simp [hl, bfAct, payloadStore_ok hpc, State.setBf]
  | readChecksum =>
    rw [hst] at hrng
    cases hc : csumOk s.bf.csum b <;>
      simp [bfAct, frameDeliver_ok (Nat.le_of_lt hrng), State.setBf, State.emit]

/-- The frame parser stays in its ranges. -/
theorem frameAfter_inv {s : State} (h : Legal s) (b : Byte) :
    Legal { s with bf := (frameAfter s b).1, trace := s.trace ++ (frameAfter s b).2 } := by
  have hrng := h.bf_ranges
  unfold FrameParser.rangesOk at hrng
  have hmx := Cfg.valid_sizes h.cfg_valid
  suffices hs : (frameAfter s b).1.pcur < s.cfg.maxp ∧ (frameAfter s b).1.rangesOk s.cfg.maxp ∧
      (frameAfter s b).1.payload.wf = true ∧ (frameAfter s b).1.payload.within s.cfg.maxp = true from
    (h.setBf hs.1 hs.2.1 hs.2.2.1 hs.2.2.2).of_eq rfl rfl rfl rfl rfl rfl rfl rfl
  have hp := h.pcur_lt
  have hw := h.payload_wf
  have hi := h.payload_within
  unfold frameAfter bfRoleAt bfRole
  cases hst : s.bf.state with
  | waitHeader =>
    by_cases hb : b = s.cfg.hdr <;> simp [hb, hp, hw, hi, FrameParser.rangesOk, hst]
  | readIds =>
    rcases idRole_cases s.bf.idx with hj | hj | hj | hj <;> simp [hj, hp, hw, hi, FrameParser.rangesOk, hst]
  | readLen =>
    cases hlen : lenTooLong s.cfg.maxp b
    · have hlt : b.toNat < s.cfg.maxp := by simpa [lenTooLong] using hlen
      by_cases hb : b = 0#8
      · subst hb; simp [hp, hw, hi, FrameParser.rangesOk]; omega
      · have := byte_pos hb
        simp [hb, hw, hi, FrameParser.rangesOk]; omega
    · simp [hp, hw, hi, FrameParser.rangesOk]
  | readPayload =>
    rw [hst] at hrng
    have hw' := Memory.wf_write hw s.bf.pcur b
    have hi' := Memory.within_write hp b hi
    by_cases hl : s.bf.pcur + 1 = s.bf.len.toNat
    · simp [hl, hw', hi', FrameParser.rangesOk]; omega
    · simp [hl, hw', hi', FrameParser.rangesOk]; omega
  | readChecksum =>
    rw [hst] at hrng
    cases hc : csumOk s.bf.csum b <;> simp [hp, hw, hi, FrameParser.rangesOk]

/-- Everything BF.STEP can do from a state of the invariant. -/
theorem frameStep_spec {s : State} (h : Legal s) (b : Byte) :
    ∃ t es, frameStep b s = .ok (frameEnds s b, t) ∧ t = { s with bf := t.bf, trace := s.trace ++ es } ∧ Legal t ∧
      (frameEnds s b = true → t.bf.state = .waitHeader ∧ es.length = 1) ∧ (frameEnds s b = false → es = []) ∧
      (frameEnds s b = false → s.bf.state ≠ .waitHeader → t.bf.state ≠ .waitHeader) := by
  refine ⟨_, (frameAfter s b).2, frameStep_eq h b, rfl, frameAfter_inv h b, ?_, ?_, ?_⟩ <;>
  · unfold frameEnds frameAfter bfRoleAt bfRole
    cases hst : s.bf.state with
    | waitHeader => by_cases hb : b = s.cfg.hdr <;> simp [hb]
    | readIds => rcases idRole_cases s.bf.idx with hj | hj | hj | hj <;> simp [hj, hst]
    | readLen =>
      cases hlen : lenTooLong s.cfg.maxp b
      · by_cases hb : b = 0#8 <;> simp [hb]
      · simp
    | readPayload => by_cases hl : s.bf.pcur + 1 = s.bf.len.toNat <;> simp [hl]
    | readChecksum => cases hc : csumOk s.bf.csum b <;> simp

/-! ### The dispatcher -/

theorem backToIdle_ok (d : Bool) (s : State) : backToIdle (.ok (d, s)) = .ok (if d then s.setPd .idle else s) := by
  cases d <;> rfl

/-- Everything PD.STEP can do from a state of the invariant. -/
theorem dispatchStep_spec {s : State} (h : Legal s) (b : Byte) :
    ∃ t es, dispatchStep b s = .ok t ∧ es.length ≤ 1 ∧
      t = { s with pd := t.pd, bf := t.bf, lp := t.lp, trace := s.trace ++ es } ∧ Legal t ∧
      (t.bf = s.bf ∨ t.lp = s.lp) := by
  have hline : ∀ s₀ : State, Legal s₀ → s₀ = { s with pd := s₀.pd } →
      ∃ t es, backToIdle (lineStep b s₀) = .ok t ∧ es.length ≤ 1 ∧
        t = { s with pd := t.pd, bf := t.bf, lp := t.lp, trace := s.trace ++ es } ∧ Legal t ∧ (t.bf = s.bf ∨ t.lp = s.lp) := by
    intro s₀ h₀ hs₀
    obtain ⟨t, es, hstep, ht, hes, hi, -, -⟩ := lineStep_spec h₀ b
    refine ⟨if isTerm b then t.setPd .idle else t, es, by rw [hstep, backToIdle_ok], hes, ?_, ?_, Or.inl ?_⟩
    · rw [ht, hs₀]; split <;> simp [State.setPd]
    · split
      · exact hi.setPd _
      · exact hi
    · rw [ht, hs₀]; split <;> simp
  have hframe : ∀ s₀ : State, Legal s₀ → s₀ = { s with pd := s₀.pd } →
      ∃ t es, backToIdle (frameStep b s₀) = .ok t ∧ es.length ≤ 1 ∧
        t = { s with pd := t.pd, bf := t.bf, lp := t.lp, trace := s.trace ++ es } ∧ Legal t ∧ (t.bf = s.bf ∨ t.lp = s.lp) := by
    intro s₀ h₀ hs₀
    obtain ⟨t, es, hstep, ht, hi, he1, he0, -⟩ := frameStep_spec h₀ b
    refine ⟨if frameEnds s₀ b then t.setPd .idle else t, es, by rw [hstep, backToIdle_ok], ?_, ?_, ?_, Or.inr ?_⟩
    · cases he : frameEnds s₀ b with
      | true => exact Nat.le_of_eq (he1 he).2
      | false => simp [he0 he]
    · rw [ht, hs₀]; split <;> simp [State.setPd]
    · split
      · exact hi.setPd _
      · exact hi
    · rw [ht, hs₀]; split <;> simp
  unfold dispatchStep
  cases pdClassAt s b with
  | printable => exact hline _ (h.setPd _) rfl
  | cr => exact hline _ (h.setPd _) rfl
  | lf => exact hline _ (h.setPd _) rfl
  | header => exact hframe _ (h.setPd _) rfl
  | noise => exact ⟨s, [], rfl, by simp, by simp, h, Or.inl rfl⟩
  | inLine => exact hline s h rfl
  | inBin => exact hframe s h rfl

/-- A run of stream bytes from a state of the invariant. -/
theorem dispatchAll_spec {s : State} (h : Legal s) (bs : Bytes) :
    ∃ t es, dispatchAll bs s = .ok t ∧
      t = { s with pd := t.pd, bf := t.bf, lp := t.lp, trace := s.trace ++ es } ∧ Legal t := by
  induction bs generalizing s with
  | nil => exact ⟨s, [], rfl, by simp, h⟩
  | cons b rest ih =>
    obtain ⟨t, es, ht, -, hf, hi, -⟩ := dispatchStep_spec h b
    obtain ⟨u, es', hu, hf', hi'⟩ := ih hi
    refine ⟨u, es ++ es', by simp [dispatchAll, ht, hu], ?_, hi'⟩
    rw [hf', hf]; simp

theorem dispatchAll_append (xs ys : Bytes) (s : State) :
    dispatchAll (xs ++ ys) s =
      match dispatchAll xs s with
      | .error f => .error f
      | .ok t => dispatchAll ys t := by
  induction xs generalizing s with
  | nil => rfl
  | cons x rest ih =>
    simp only [List.cons_append, dispatchAll]
    cases dispatchStep x s with
    | error f => rfl
    | ok t => exact ih t

/-! ### What PD.STEP reads -/

/-- A state with other contents in the parts PD.STEP neither reads nor writes. -/
def State.over (s : State) (r : RingBuffer) (x : Extractor) (f : Inited) (c : ConsumerPhase) (v : Result) (sc : List Act) :
    State :=
  { s with rb := r, dx := x, inited := f, consumer := c, result := v, sched := sc }

theorem lineStep_over (b : Byte) (s : State) (r : RingBuffer) (x : Extractor) (f : Inited) (c : ConsumerPhase) (v : Result)
    (sc : List Act) :
    lineStep b (s.over r x f c v sc) = (lineStep b s).map (fun p => (p.1, p.2.over r x f c v sc)) := by
  have ht : lineTerminate (s.over r x f c v sc) = (lineTerminate s).map (fun t => t.over r x f c v sc) := by
    unfold lineTerminate State.over
    by_cases hc : s.lp.cur = 0
    · simp [hc, Except.map, State.setLp]
    · simp only [hc, if_false]
      cases hm : memWrite .line s.cfg.l s.lp.cur byteNul s.lp.buf with
      | error e => rfl
      | ok m =>
        simp only
        cases hr : memReadUpTo .line s.cfg.l s.lp.cur m <;> rfl
  unfold lineStep lpRoleAt
  rw [show (s.over r x f c v sc).cfg = s.cfg from rfl, show (s.over r x f c v sc).lp = s.lp from rfl]
  cases lpRole s.cfg s.lp.cur b with
  | cr => simp only [lpAct, ht]; cases lineTerminate s <;> rfl
  | lf => simp only [lpAct, ht]; cases lineTerminate s <;> rfl
  | append =>
    simp only [lpAct, lineAppend, State.over]
    cases memWrite .line s.cfg.l s.lp.cur b s.lp.buf <;> rfl
  | overflow => rfl

theorem frameStep_over (b : Byte) (s : State) (r : RingBuffer) (x : Extractor) (f : Inited) (c : ConsumerPhase) (v : Result)
    (sc : List Act) :
    frameStep b (s.over r x f c v sc) = (frameStep b s).map (fun p => (p.1, p.2.over r x f c v sc)) := by
  have hs : ∀ st, payloadStore st b (s.over r x f c v sc) =
      (payloadStore st b s).map (fun p => (p.1, p.2.over r x f c v sc)) := by
    intro st
    simp only [payloadStore, State.over]
    cases memWrite .payload s.cfg.maxp s.bf.pcur b s.bf.payload <;> rfl
  unfold frameStep
  rw [show bfRoleAt (s.over r x f c v sc) b = bfRoleAt s b from rfl]
  cases bfRoleAt s b with
  | payload => exact hs _
  | payloadLast => exact hs _
  | csumMatch =>
    simp only [bfAct, frameDeliver, State.over]
    cases memReadUpTo .payload s.cfg.maxp s.bf.len.toNat s.bf.payload <;> rfl
  | _ => rfl

/-- PD.STEP reads and writes configuration, dispatcher, parsers and trace only. -/
theorem dispatchStep_over (b : Byte) (s : State) (r : RingBuffer) (x : Extractor) (f : Inited) (c : ConsumerPhase) (v : Result)
    (sc : List Act) :
    dispatchStep b (s.over r x f c v sc) = (dispatchStep b s).map (fun t => t.over r x f c v sc) := by
  have hb : ∀ e : Except Fault (Bool × State), backToIdle (e.map (fun p => (p.1, p.2.over r x f c v sc))) =
      (backToIdle e).map (fun t => t.over r x f c v sc) := by
    intro e
    match e with
    | .error _ => rfl
    | .ok (true, _) => rfl
    | .ok (false, _) => rfl
  have hp : ∀ p, (s.over r x f c v sc).setPd p = (s.setPd p).over r x f c v sc := fun _ => rfl
  unfold dispatchStep
  rw [show pdClassAt (s.over r x f c v sc) b = pdClassAt s b from rfl]
  cases pdClassAt s b with
  | noise => rfl
  | header => simp only [pdAct, hp, frameStep_over, hb]
  | inBin => simp only [pdAct, frameStep_over, hb]
  | _ => simp only [pdAct, hp, lineStep_over, hb]

theorem dispatchAll_over (bs : Bytes) (s : State) (r : RingBuffer) (x : Extractor) (f : Inited) (c : ConsumerPhase) (v : Result)
    (sc : List Act) :
    dispatchAll bs (s.over r x f c v sc) = (dispatchAll bs s).map (fun t => t.over r x f c v sc) := by
  induction bs generalizing s with
  | nil => rfl
  | cons b rest ih =>
    simp only [dispatchAll, dispatchStep_over]
    cases dispatchStep b s with
    | error e => rfl
    | ok t => exact ih t

end Sys2Proof.Machine
end

