-- ==== Sys2Proof/Laws/Consumer.lean ====
section
/-! SUPPORT. The drain loop: what it comes to. -/

namespace Sys2Proof.Machine

/-- The drain loop with reads enough (R180): every byte of the ring goes through PD.STEP, oldest first; the read index ends at the
write index and the consumer waits. -/
theorem drainLoop_spec {s : State} (h : Legal s) {k : Nat} (hk : s.ringContents.length < k) :
    ∃ t, dispatchAll s.ringContents s = .ok t ∧
      drainLoop k s = .ok { t with rb := { s.rb with rd := s.rb.wr }, consumer := .waiting } := by
  induction k generalizing s with
  | zero => omega
  | succ k ih =>
    obtain ⟨u, hr, hi, hu, hcont, hrd⟩ := ringRead_contents h
    cases hc : s.ringContents with
    | nil =>
      have he := (ringContents_eq_nil h.wr_lt h.rd_lt).1 hc
      rw [hc] at hr
      rw [if_pos hc] at hrd
      refine ⟨s, rfl, ?_⟩
      rw [drainLoop, hr, hu, hrd, he]
      rfl
    | cons b rest =>
      rw [hc] at hr hcont hk
      rw [List.tail_cons] at hcont
      obtain ⟨v, es, hv, -, hvf, hvi, -⟩ := dispatchStep_spec hi b
      have hvc : v.ringContents = rest := by
        rw [← hcont]; exact State.ringContents_congr (by rw [hvf]) (by rw [hvf])
      obtain ⟨t, ht, hd⟩ := ih hvi (by rw [hvc]; simpa using hk)
      have hover : u = s.over u.rb s.dx s.inited s.consumer s.result s.sched := by rw [hu]; rfl
      have hback : s = u.over s.rb s.dx s.inited s.consumer s.result s.sched := by rw [hu]; rfl
      have hs : dispatchStep b s = .ok (v.over s.rb s.dx s.inited s.consumer s.result s.sched) := by
        have := dispatchStep_over b u s.rb s.dx s.inited s.consumer s.result s.sched
        rw [← hback, hv] at this
        exact this
      have hall := dispatchAll_over rest v s.rb s.dx s.inited s.consumer s.result s.sched
      rw [hvc] at ht
      rw [ht] at hall
      refine ⟨t.over s.rb s.dx s.inited s.consumer s.result s.sched, ?_, ?_⟩
      · simp only [dispatchAll, hs]; exact hall
      · have hreads : drainLoop (k + 1) s = drainLoop k v := by
          rw [drainLoop, hr, List.head?_cons]; simp only [hv]
        obtain ⟨w, es', hw, hwf, -⟩ := dispatchAll_spec hvi rest
        rw [ht] at hw
        cases hw
        rw [hreads, hd, hwf, hvf, hu]
        rfl

end Sys2Proof.Machine
end

