-- ==== Sys2Proof/Laws/Extract.lean ====
section
/-! SUPPORT. The extraction: the window, the pushes, what DX.EXTRACT leaves; and the environment's store. -/

namespace Sys2Proof.Machine

/-! ### The window (R101, R103) -/

theorem length_window {h q p : Nat} :
    (window h q p).length = if p = q then 0 else if q < p then p - q else h - q + p := by
  unfold window; split
  · rfl
  · split <;> simp

/-- Every index of the window is inside `HWBUF`. -/
theorem window_lt {h q p i : Nat} (hq : q < h) (hp : p ≤ h) (hi : i ∈ window h q p) : i < h := by
  unfold window at hi
  split at hi
  · simp at hi
  · split at hi
    · simp [List.mem_range'_1] at hi; omega
    · simp [List.mem_range'_1] at hi; omega

theorem satInc_eq {w v : Nat} (h : v < 2 ^ w) : satInc w v = min (v + 1) (2 ^ w - 1) := by
  unfold satInc; split <;> omega

/-! ### Pushes (R101, R102) -/

/-- One push (R101, R102): the byte of the slot is stored when there is room, counted as dropped otherwise. -/
theorem pushIndex_spec {s : State} (h : Legal s) {i : Nat} (hi : i < s.cfg.h) :
    ∃ t, pushIndex i s = .ok t ∧ Legal t ∧
      t = { s with rb := t.rb, dx := { s.dx with drops := t.dx.drops } } ∧
      t.rb.rd = s.rb.rd ∧
      (if s.ringContents.length < s.cfg.n - 1 then
        t.ringContents = s.ringContents ++ [s.rx.hwbuf.read i] ∧ t.rb.wr = nextIndex s.cfg.n s.rb.wr ∧
          t.dx.drops = s.dx.drops ∧ ∀ a, a ≠ s.rb.wr → t.rb.data.read a = s.rb.data.read a
      else t.rb = s.rb ∧ t.dx.drops = satInc s.cfg.w s.dx.drops) := by
  obtain ⟨t, ok, hw, hti, ht, hrd, hok, hcont, hwr, hread⟩ :=
    ringWrite_contents h (s.rx.hwbuf.read i)
  have hpush : pushIndex i s = push (s.rx.hwbuf.read i) s := by
    simp [pushIndex, memRead_ok hi]
  rw [hpush, push, hw]
  cases ok with
  | true =>
    have hroom : s.ringContents.length < s.cfg.n - 1 := of_decide_eq_true hok.symm
    refine ⟨t, rfl, hti, by rw [ht]; rfl, hrd, ?_⟩
    rw [if_pos hroom]
    refine ⟨by simpa using hcont, hwr, by rw [ht]; rfl, fun a ha => ?_⟩
    rw [hread a, if_neg (fun hh => ha hh.2)]
  | false =>
    have hfull : ¬ s.ringContents.length < s.cfg.n - 1 := of_decide_eq_false hok.symm
    have hrb : t.rb = s.rb := by
      rcases ringWrite_cases h (s.rx.hwbuf.read i) with ⟨-, hr⟩ | ⟨-, hr⟩
      · rw [hr] at hw; cases hw; rfl
      · rw [hr] at hw; cases hw
    have hdx : t.dx = s.dx := by rw [ht]; rfl
    have hcfg : t.cfg = s.cfg := by rw [ht]; rfl
    refine ⟨t.setDx { t.dx with drops := satInc t.cfg.w t.dx.drops }, rfl, ?_, ?_, hrd, ?_⟩
    · refine hti.setDx hti.last_lt ?_
      have := hti.drops_lt
      unfold satInc; simp only; split <;> omega
    · rw [ht]; rfl
    · rw [if_neg hfull]
      exact ⟨hrb, by rw [hdx, hcfg]; rfl⟩

/-- The pushes of a list of indices (R101, R102): the bytes that fit are stored in order, the others counted. -/
theorem pushAll_spec {s : State} (h : Legal s) {todo : List Nat} (hi : ∀ i ∈ todo, i < s.cfg.h) :
    ∃ t k d, pushAll todo s = .ok t ∧ Legal t ∧ k + d = todo.length ∧
      k = min todo.length (s.cfg.n - 1 - s.ringContents.length) ∧
      t = { s with rb := t.rb, dx := { s.dx with drops := min (s.dx.drops + d) (2 ^ s.cfg.w - 1) } } ∧
      t.rb.rd = s.rb.rd ∧ t.rb.wr = (s.rb.wr + k) % s.cfg.n ∧
      t.ringContents = s.ringContents ++ (todo.map (fun i => s.rx.hwbuf.read i)).take k ∧
      ∀ a, (∀ j, j < k → a ≠ (s.rb.wr + j) % s.cfg.n) → t.rb.data.read a = s.rb.data.read a := by
  induction todo generalizing s with
  | nil =>
    have hd := h.drops_lt
    refine ⟨s, 0, 0, rfl, h, rfl, by simp, ?_, rfl, by simp [Nat.mod_eq_of_lt h.wr_lt], by simp, by simp⟩
    rw [Nat.add_zero, Nat.min_eq_left (by omega)]
  | cons i rest ih =>
    obtain ⟨t, hp, hti, ht, hrd, hcase⟩ := pushIndex_spec h (hi i (by simp))
    have hcfg : t.cfg = s.cfg := by rw [ht]
    have hbuf : t.rx.hwbuf = s.rx.hwbuf := by rw [ht]
    obtain ⟨u, k, d, hu, hui, hkd, hk, huf, hurd, huwr, hucont, huread⟩ :=
      ih hti (by rw [hcfg]; intro j hj; exact hi j (by simp [hj]))
    have hd := h.drops_lt
    have hall : pushAll (i :: rest) s = .ok u := by simp [pushAll, hp, hu]
    have hfr : u = { s with rb := u.rb, dx := { s.dx with drops := min (t.dx.drops + d) (2 ^ s.cfg.w - 1) } } := by
      rw [huf, hcfg]; rw [ht]
    rw [hcfg] at hk huwr huread
    rw [hbuf] at hucont
    split at hcase
    · next hroom =>
      obtain ⟨hcont, hwr, hdr, hread⟩ := hcase
      rw [hcont] at hk hucont
      rw [hwr] at huwr huread
      refine ⟨u, k + 1, d, hall, hui, by simp; omega, ?_, by rw [← hdr]; exact hfr, by rw [hurd, hrd],
        by rw [huwr, nextIndex_add_mod], ?_, ?_⟩
      · simp only [List.length_append, List.length_cons, List.length_nil] at hk ⊢; omega
      · rw [hucont]; simp
      · intro a ha
        rw [huread a (fun j hj => by rw [nextIndex_add_mod]; exact ha (j + 1) (by omega)), hread]
        rintro rfl
        exact ha 0 (by omega) (by simp [Nat.mod_eq_of_lt h.wr_lt])
    · next hfull =>
      obtain ⟨hrb, hdr⟩ := hcase
      have hcc : t.ringContents = s.ringContents := State.ringContents_congr hcfg hrb
      rw [hcc] at hk hucont
      rw [hrb] at huwr huread
      have hk0 : k = 0 := by omega
      refine ⟨u, k, d + 1, hall, hui, by simp only [List.length_cons]; omega, by simp only [List.length_cons]; omega, ?_,
        by rw [hurd, hrb], huwr, ?_, huread⟩
      · have hmin : min (min (s.dx.drops + 1) (2 ^ s.cfg.w - 1) + d) (2 ^ s.cfg.w - 1) =
            min (s.dx.drops + (d + 1)) (2 ^ s.cfg.w - 1) := by omega
        rw [← hmin, ← satInc_eq hd, ← hdr]; exact hfr
      · rw [hucont, hk0]; simp

/-- DX.EXTRACT(p) that is not a no-op (R101, R102, R107). -/
theorem extract_spec {s : State} (h : Legal s) {p : Nat} (hp : p ≤ s.cfg.h) (hne : p ≠ s.dx.last) :
    ∃ t k d, extract p s = .ok t ∧ Legal t ∧ k + d = (window s.cfg.h s.dx.last p).length ∧
      k = min (s.windowBytes p).length (s.cfg.n - 1 - s.ringContents.length) ∧
      t = { s with rb := t.rb,
                   dx := { last := normalise s.cfg.h p, drops := min (s.dx.drops + d) (2 ^ s.cfg.w - 1), wake := true } } ∧
      t.rb.rd = s.rb.rd ∧ t.rb.wr = (s.rb.wr + k) % s.cfg.n ∧
      t.ringContents = s.ringContents ++ (s.windowBytes p).take k ∧
      ∀ a, (∀ j, j < k → a ≠ (s.rb.wr + j) % s.cfg.n) → t.rb.data.read a = s.rb.data.read a := by
  obtain ⟨t, k, d, hall, hti, hkd, hk, ht, hrd, hwr, hcont, hread⟩ :=
    pushAll_spec h (fun i hi => window_lt h.last_lt hp hi)
  have hcfg : t.cfg = s.cfg := by rw [ht]
  refine ⟨extractEnd p t, k, d, by simp [extract, hne, hall], ?_, hkd, ?_, ?_, hrd, hwr, ?_, hread⟩
  · refine hti.setDx ?_ hti.drops_lt
    have := hti.last_lt
    unfold normalise; split
    · simp only; omega
    · simp only; rw [hcfg] at *; omega
  · simpa [State.windowBytes] using hk
  · rw [ht]; rfl
  · rw [show (extractEnd p t).ringContents = t.ringContents from State.ringContents_congr rfl rfl]; exact hcont

/-- Several DX.EXTRACTs from a state of the invariant complete and keep it (R101, R109). -/
theorem extractAll_spec {s : State} (h : Legal s) {l : List Nat} (hl : ∀ p ∈ l, p ≤ s.cfg.h) :
    ∃ t, extractAll l s = .ok t ∧ Legal t ∧ t = { s with rb := t.rb, dx := t.dx } ∧ t.rb.rd = s.rb.rd := by
  induction l generalizing s with
  | nil => exact ⟨s, rfl, h, rfl, rfl⟩
  | cons p rest ih =>
    by_cases hp : p = s.dx.last
    · obtain ⟨t, ht, hrest⟩ := ih h (fun q hq => hl q (by simp [hq]))
      exact ⟨t, by simp only [extractAll, extract, if_pos hp, ht], hrest⟩
    · obtain ⟨u, k, d, hu, hui, -, -, huf, hurd, -⟩ := extract_spec h (hl p (by simp)) hp
      obtain ⟨t, ht, hti, htf, htrd⟩ := ih hui (by rw [huf]; exact fun q hq => hl q (by simp [hq]))
      exact ⟨t, by simp only [extractAll, hu, ht], hti, by rw [htf, huf], by rw [htrd, hurd]⟩

/-! ### What an extraction neither reads nor writes (R101) -/

/-- The state with other values in the fields an extraction neither reads nor writes. -/
def State.aside (n : Nat) (q : List Nat) (r : Result) (c : List Act) (s : State) : State :=
  { s with rx := { s.rx with unreported := n }, reports := q, result := r, sched := c }

/-- RB.WRITE commutes with those fields (R91). -/
theorem ringWrite_aside (b : Byte) (s : State) (n q r c) :
    ringWrite b (s.aside n q r c) = (ringWrite b s).map (fun x => (x.1, x.2.aside n q r c)) := by
  rw [ringWrite, ringWrite, show (s.aside n q r c).rb = s.rb from rfl, show (s.aside n q r c).cfg = s.cfg from rfl]
  cases ringFull s.cfg.n s.rb.wr s.rb.rd
  · cases memWrite .rb s.cfg.n s.rb.wr b s.rb.data <;> rfl
  · rfl

/-- So does a push (R102). -/
theorem push_aside (b : Byte) (s : State) (n q r c) :
    push b (s.aside n q r c) = (push b s).map (State.aside n q r c) := by
  simp only [push, ringWrite_aside]
  rcases ringWrite b s with f | ⟨_ | _, t⟩ <;> rfl

/-- So do the pushes of an extraction (R101). -/
theorem pushAll_aside (l : List Nat) (s : State) (n q r c) :
    pushAll l (s.aside n q r c) = (pushAll l s).map (State.aside n q r c) := by
  induction l generalizing s with
  | nil => rfl
  | cons i rest ih =>
    have : pushIndex i (s.aside n q r c) = (pushIndex i s).map (State.aside n q r c) := by
      simp only [pushIndex]
      rw [show memRead .hwbuf (s.aside n q r c).cfg.h i (s.aside n q r c).rx.hwbuf = memRead .hwbuf s.cfg.h i s.rx.hwbuf from rfl]
      cases memRead .hwbuf s.cfg.h i s.rx.hwbuf with
      | error f => rfl
      | ok b => exact push_aside b s n q r c
    simp only [pushAll, this]
    cases pushIndex i s with
    | error f => rfl
    | ok t => exact ih t

/-- So does DX.EXTRACT (R101). -/
theorem extract_aside (p : Nat) (s : State) (n q r c) :
    extract p (s.aside n q r c) = (extract p s).map (State.aside n q r c) := by
  rw [extract, extract, show (s.aside n q r c).dx = s.dx from rfl, show (s.aside n q r c).cfg = s.cfg from rfl, pushAll_aside]
  by_cases h : p = s.dx.last
  · rw [if_pos h, if_pos h]; rfl
  · rw [if_neg h, if_neg h]
    cases pushAll (window s.cfg.h s.dx.last p) s <;> rfl

/-- So do several of them. -/
theorem extractAll_aside (l : List Nat) (s : State) (n q r c) :
    extractAll l (s.aside n q r c) = (extractAll l s).map (State.aside n q r c) := by
  induction l generalizing s with
  | nil => rfl
  | cons p rest ih =>
    simp only [extractAll, extract_aside]
    cases extract p s with
    | error f => rfl
    | ok t => exact ih t
/-! ### Position events and the environment's store (R62, R237) -/

/-- A tracked position writes the count of unreported bytes only (log 7). -/
theorem Legal.positionSeen {s : State} (h : Legal s) (p : Nat) : Legal (positionSeen p s) :=
  h.setRx h.pos_lt h.hwbuf_wf h.hwbuf_within

@[simp] theorem positionSeen_ringContents (p : Nat) (s : State) : (positionSeen p s).ringContents = s.ringContents := rfl

@[simp] theorem positionSeen_windowBytes (p q : Nat) (s : State) : (positionSeen q s).windowBytes p = s.windowBytes p := rfl

/-- Entering DX.EXTRACT(p) at a legal position keeps the invariant. -/
theorem Legal.extractBegin {s : State} (h : Legal s) {p : Nat} (hp : p ≤ s.cfg.h) : Legal (extractBegin p s) := by
  unfold Sys2Proof.Machine.extractBegin
  split
  · exact h
  · exact h.setProducer ⟨hp, fun i hi => window_lt h.last_lt hp hi⟩

/-- The end of an extraction keeps the invariant. -/
theorem Legal.extractEnd {s : State} (h : Legal s) {p : Nat} (hp : p ≤ s.cfg.h) : Legal (extractEnd p s) := by
  refine h.setDx ?_ h.drops_lt
  have := h.last_lt
  unfold normalise
  split <;> simp only <;> omega

/-- A free producer with no report waiting is being asked for no slot (R237). -/
theorem State.beingExtracted_quiet {s : State} (hq : s.producerQuiet = true) :
    s.beingExtracted = [] ∧ s.lastReported = s.dx.last := by
  simp only [State.producerQuiet, Bool.and_eq_true, beq_iff_eq, List.isEmpty_iff] at hq
  simp [State.beingExtracted, State.lastReported, State.served, hq.1, hq.2, slotsOf]

/-- The environment's store keeps the invariant and never faults (R40, R62). -/
theorem environmentStore_spec {s : State} (h : Legal s) (b : Byte) :
    ∃ t, environmentStore b s = .ok t ∧ Legal t ∧ t = { s with rx := t.rx, draws := t.draws } := by
  refine ⟨(s.setRx { hwbuf := s.rx.hwbuf.write s.rx.pos (if s.overruns then Config.freeByte s.draws else b),
                     pos := nextIndex s.cfg.h s.rx.pos, unreported := s.rx.unreported + 1 }).setDraws
    (if s.overruns then s.draws + 1 else s.draws),
    by simp only [environmentStore, memWrite_ok h.pos_lt], ?_, rfl⟩
  exact Legal.setDraws (h.setRx (nextIndex_lt _ (by have := h.pos_lt; omega)) (Memory.wf_write h.hwbuf_wf _ _)
    (Memory.within_write h.pos_lt _ h.hwbuf_within)) _

end Sys2Proof.Machine
end

