-- ==== Sys2Proof/Laws/PerInstr.lean ====
section
/-! SUPPORT. A statement made of every instruction, one lemma a constructor: `Sized`, the word the encoder gives a well-formed
instruction fits its place. -/

namespace Sys2Proof

/-- The word fits its place: an operand below two to the number of its bits (R81, R82), a frame of at least seven bytes (R74), a line
of at least one (R75), an event record with legal fields (R146, R203 to R205). -/
def Code.sized (c : Cfg) : Code → Bool
  | .port _ nbits w => decide (w < 2 ^ nbits)
  | .wirePosition nbits w => decide (w < 2 ^ nbits)
  | .wireFrame bytes => decide (7 ≤ bytes.length)
  | .wireLine bytes => decide (1 ≤ bytes.length)
  | .event e => e.legal c
  | .writeN _ | .readN _ | .stream _ _ => true

/-- A position up to `H` fits POSW bits (R5). -/
theorem Cfg.lt_posw {c : Cfg} {p : Nat} (h : p ≤ c.h) : p < 2 ^ c.posw := by
  unfold Cfg.posw
  split
  · omega
  · have := Nat.lt_log2_self (n := c.h); omega

end Sys2Proof

namespace Sys2Proof.Laws.Sized

set_option Elab.async false

/-- The encoding of a well-formed instruction fits its place, under every configuration. -/
def Statement (i : Instr) : Prop := ∀ c : Cfg, c.valid = true → i.wf c = true → (encode c i).sized c = true

theorem rbInit : Statement (.rbInit) := fun _ _ _ => rfl

theorem rbWrite (b : Byte) : Statement (.rbWrite b) := by
  intro c _ _
  simpa [encode, Code.sized] using b.isLt

theorem rbRead : Statement (.rbRead) := fun _ _ _ => rfl

theorem rbIsEmpty : Statement (.rbIsEmpty) := fun _ _ _ => rfl

theorem dxInit : Statement (.dxInit) := fun _ _ _ => rfl

theorem dxExtract (p : Nat) : Statement (.dxExtract p) := by
  intro c _ hw
  simpa [encode, Code.sized] using Cfg.lt_posw (of_decide_eq_true hw)

theorem dxReset : Statement (.dxReset) := fun _ _ _ => rfl

theorem pdInit : Statement (.pdInit) := fun _ _ _ => rfl

theorem pdStep (b : Byte) : Statement (.pdStep b) := by
  intro c _ _
  simpa [encode, Code.sized] using b.isLt

theorem bfInit : Statement (.bfInit) := fun _ _ _ => rfl

theorem bfStep (b : Byte) : Statement (.bfStep b) := by
  intro c _ _
  simpa [encode, Code.sized] using b.isLt

theorem lpInit : Statement (.lpInit) := fun _ _ _ => rfl

theorem lpStep (b : Byte) : Statement (.lpStep b) := by
  intro c _ _
  simpa [encode, Code.sized] using b.isLt

theorem consDrain : Statement (.consDrain) := fun _ _ _ => rfl

theorem sysReset : Statement (.sysReset) := fun _ _ _ => rfl

theorem sysRxReinit : Statement (.sysRxReinit) := fun _ _ _ => rfl

theorem rbWriteN (s : Bytes) : Statement (.rbWriteN s) := fun _ _ _ => rfl

theorem rbReadN (n : Nat) : Statement (.rbReadN n) := fun _ _ _ => rfl

theorem pdIdlePrintable (b : Byte) : Statement (.pdIdlePrintable b) := fun _ _ _ => rfl

theorem pdIdleCr : Statement (.pdIdleCr) := fun _ _ _ => rfl

theorem pdIdleLf : Statement (.pdIdleLf) := fun _ _ _ => rfl

theorem pdIdleHeader : Statement (.pdIdleHeader) := fun _ _ _ => rfl

theorem pdIdleNoise (b : Byte) : Statement (.pdIdleNoise b) := fun _ _ _ => rfl

theorem pdInLine (b : Byte) : Statement (.pdInLine b) := fun _ _ _ => rfl

theorem pdInBin (b : Byte) : Statement (.pdInBin b) := fun _ _ _ => rfl

theorem bfWaitHeaderHdr : Statement (.bfWaitHeaderHdr) := fun _ _ _ => rfl

theorem bfWaitHeaderOther (b : Byte) : Statement (.bfWaitHeaderOther b) := fun _ _ _ => rfl

theorem bfReadIdsDevice (b : Byte) : Statement (.bfReadIdsDevice b) := fun _ _ _ => rfl

theorem bfReadIdsSystem (b : Byte) : Statement (.bfReadIdsSystem b) := fun _ _ _ => rfl

theorem bfReadIdsMsg (b : Byte) : Statement (.bfReadIdsMsg b) := fun _ _ _ => rfl

theorem bfReadIdsSeq (b : Byte) : Statement (.bfReadIdsSeq b) := fun _ _ _ => rfl

theorem bfReadLenTooLong (b : Byte) : Statement (.bfReadLenTooLong b) := fun _ _ _ => rfl

theorem bfReadLenZero : Statement (.bfReadLenZero) := fun _ _ _ => rfl

theorem bfReadLenValid (b : Byte) : Statement (.bfReadLenValid b) := fun _ _ _ => rfl

theorem bfReadPayloadByte (b : Byte) : Statement (.bfReadPayloadByte b) := fun _ _ _ => rfl

theorem bfReadPayloadLast (b : Byte) : Statement (.bfReadPayloadLast b) := fun _ _ _ => rfl

theorem bfReadChecksumMatch (b : Byte) : Statement (.bfReadChecksumMatch b) := fun _ _ _ => rfl

theorem bfReadChecksumMismatch (b : Byte) : Statement (.bfReadChecksumMismatch b) := fun _ _ _ => rfl

theorem lpTermCr : Statement (.lpTermCr) := fun _ _ _ => rfl

theorem lpTermLf : Statement (.lpTermLf) := fun _ _ _ => rfl

theorem lpByteAppend (b : Byte) : Statement (.lpByteAppend b) := fun _ _ _ => rfl

theorem lpByteOverflow (b : Byte) : Statement (.lpByteOverflow b) := fun _ _ _ => rfl

theorem frame (dev sys msg seq : Byte) (payload : Bytes) (csum : Byte) : Statement (.frame dev sys msg seq payload csum) := by
  intro c _ _
  simp [encode, Code.sized, frameBytes, frameBody]

theorem line (text : Bytes) (term : Byte) : Statement (.line text term) := by
  intro c _ _
  simp [encode, Code.sized, encodeLine]

theorem positionReport (p : Nat) : Statement (.positionReport p) := by
  intro c _ hw
  simpa [encode, Code.sized] using Cfg.lt_posw (of_decide_eq_true hw)

theorem frameOk (dev sys msg seq len : Byte) (payload : Bytes)
    : Statement (.frameOk dev sys msg seq len payload) := fun _ _ hw => hw

theorem frameLenAbort (len : Byte) : Statement (.frameLenAbort len) := fun _ _ hw => hw

theorem frameCsumFail (computed received : Byte) : Statement (.frameCsumFail computed received) := fun _ _ hw => hw

theorem lineCmd (index : Nat) (name : Bytes) (arg : Option Bytes) : Statement (.lineCmd index name arg) := fun _ _ hw => hw

theorem lineUnknown (cmd : Bytes) : Statement (.lineUnknown cmd) := fun _ _ hw => hw

end Sys2Proof.Laws.Sized
end

