-- ==== Sys2Proof/Tests/Slice0.lean ====
section
/-! SUPPORT. Tests: well-formedness refuses, words written out decode, each row's effect on one step (expected values from
spec/95_test_vectors.md and the rules' examples), and a witness for each statement's hypotheses. -/

namespace Sys2Proof.Tests

set_option Elab.async false

open Sys2Proof.Machine

/-! ### Helpers -/

/-- The outcome is a next state with the property. -/
def nextIs (o : Out) (p : State → Bool) : Bool :=
  match o with
  | .next t => p t
  | _ => false

/-- The outcome is this refusal. -/
def refusedBy (o : Out) (r : Refusal) : Bool :=
  match o with
  | .refused q => decide (q = r)
  | _ => false

/-- The state after reset, with another ring capacity. -/
def withN (n : Nat) : State := { State.reset with cfg := { Cfg.cfgT with n := n } }

/-- A frame parser with the given state, cursor, length and accumulator. -/
def bfAt (st : BfState) (pcur : Nat) (len csum : Byte) : FrameParser :=
  { State.reset.bf with state := st, idx := 3, pcur := pcur, len := len, csum := csum, dev := 1, sys := 2, msg := 0x51, seq := 7 }

/-- "LED ON". -/
def ledOn : Bytes := [0x4C, 0x45, 0x44, 0x20, 0x4F, 0x4E]

/-- `LINE` holding "LED ON". -/
def ledOnBuf : Memory := [(0, 0x4C), (1, 0x45), (2, 0x44), (3, 0x20), (4, 0x4F), (5, 0x4E)]

/-! ### Well-formedness refuses -/

theorem test_wf_refuses_positions : (Instr.dxExtract 17).wf Cfg.cfgT = false ∧ (Instr.positionReport 17).wf Cfg.cfgT = false := by
  decide

theorem test_wf_refuses_classes :
    (Instr.pdIdlePrintable 0x7F).wf Cfg.cfgT = false ∧ (Instr.pdIdleNoise 0x41).wf Cfg.cfgT = false ∧
    (Instr.pdIdleNoise 0xA5).wf Cfg.cfgT = false := by decide

theorem test_wf_refuses_roles :
    (Instr.bfWaitHeaderOther 0xA5).wf Cfg.cfgT = false ∧ (Instr.bfReadLenTooLong 63).wf Cfg.cfgT = false ∧
    (Instr.bfReadLenValid 64).wf Cfg.cfgT = false ∧ (Instr.bfReadLenValid 0).wf Cfg.cfgT = false ∧
    (Instr.lpByteAppend 0x0D).wf Cfg.cfgT = false ∧ (Instr.lpByteOverflow 0x0A).wf Cfg.cfgT = false := by decide

theorem test_wf_refuses_long_frame : (Instr.frame 1 2 3 4 (List.replicate 256 0) 0).wf Cfg.cfgT = false := by
  simp only [Instr.wf, List.length_replicate]; decide

theorem test_wf_refuses_lines :
    (Instr.line [0x41, 0x0D] 0x0D).wf Cfg.cfgT = false ∧ (Instr.line [0x41] 0x41).wf Cfg.cfgT = false := by decide

theorem test_wf_refuses_events :
    (Instr.frameOk 1 2 3 4 2 [0xAA]).wf Cfg.cfgT = false ∧
    (Instr.frameLenAbort 63).wf Cfg.cfgT = false ∧ (Instr.frameCsumFail 5 5).wf Cfg.cfgT = false ∧
    (Instr.lineCmd 1 [0x4C, 0x45, 0x44] none).wf Cfg.cfgT = false ∧
    (Instr.lineUnknown [0x4C, 0x45, 0x44]).wf Cfg.cfgT = false ∧ (Instr.lineUnknown [0x41, 0x20]).wf Cfg.cfgT = false := by
  decide

/-- A FrameOk at or above `MAXP` is not one the block can emit (R144); with `MAXP = 2` two bytes are too many. -/
theorem test_wf_refuses_long_record :
    (Instr.frameOk 1 2 3 4 2 [0xAA, 0xBB]).wf { Cfg.cfgT with maxp := 2 } = false := by decide

theorem test_cfg_refuses :
    ({ Cfg.cfgT with n := 1 } : Cfg).valid = false ∧ ({ Cfg.cfgT with h := 0 } : Cfg).valid = false ∧
    ({ Cfg.cfgT with hdr := 0x3E } : Cfg).valid = false ∧ ({ Cfg.cfgT with maxp := 0 } : Cfg).valid = false ∧
    ({ Cfg.cfgT with maxp := 256 } : Cfg).valid = false ∧ ({ Cfg.cfgT with l := 1 } : Cfg).valid = false ∧
    ({ Cfg.cfgT with w := 0 } : Cfg).valid = false ∧ ({ Cfg.cfgT with ws := [0x09] } : Cfg).valid = false ∧
    ({ Cfg.cfgT with ws := [0x20, 0x41] } : Cfg).valid = false ∧
    ({ Cfg.cfgT with cmds := [[0x41], [0x41]] } : Cfg).valid = false := by decide

/-! ### Decoding: a word for every constructor, from the encodings of 30_encoding.md -/

/-- PORT rows (R82): a strobe has no operand bits, a byte is bits 7..0, a position POSW = 5 bits. -/
theorem test_decode_ports :
    decode Cfg.cfgT (.port .rbInit 0 0) = .ok .rbInit ∧
    decode Cfg.cfgT (.port .rbWr 8 0b01000100) = .ok (.rbWrite 0x44) ∧
    decode Cfg.cfgT (.port .rbRd 0 0) = .ok .rbRead ∧
    decode Cfg.cfgT (.port .rbEmpty 0 0) = .ok .rbIsEmpty ∧
    decode Cfg.cfgT (.port .dxInit 0 0) = .ok .dxInit ∧
    decode Cfg.cfgT (.port .dxEvt 5 0b10000) = .ok (.dxExtract 16) ∧
    decode Cfg.cfgT (.port .dxReset 0 0) = .ok .dxReset ∧
    decode Cfg.cfgT (.port .pdInit 0 0) = .ok .pdInit ∧
    decode Cfg.cfgT (.port .pdByte 8 0b10100101) = .ok (.pdStep 0xA5) ∧
    decode Cfg.cfgT (.port .bfInit 0 0) = .ok .bfInit ∧
    decode Cfg.cfgT (.port .bfByte 8 0b11111111) = .ok (.bfStep 0xFF) ∧
    decode Cfg.cfgT (.port .lpInit 0 0) = .ok .lpInit ∧
    decode Cfg.cfgT (.port .lpByte 8 0b00001101) = .ok (.lpStep 0x0D) ∧
    decode Cfg.cfgT (.port .drain 0 0) = .ok .consDrain ∧
    decode Cfg.cfgT (.port .sysReset 0 0) = .ok .sysReset ∧
    decode Cfg.cfgT (.port .rxReinit 0 0) = .ok .sysRxReinit := by decide

/-- PSEUDO rows (R84, R94). -/
theorem test_decode_pseudo :
    decode Cfg.cfgT (.writeN [0x01, 0x02]) = .ok (.rbWriteN [0x01, 0x02]) ∧ decode Cfg.cfgT (.readN 5) = .ok (.rbReadN 5) := by
  decide

/-- BYTE_CLASS rows (R76). -/
theorem test_decode_classes :
    decode Cfg.cfgT (.stream (.dispatcher .idle) 0b01111110) = .ok (.pdIdlePrintable 0x7E) ∧
    decode Cfg.cfgT (.stream (.dispatcher .idle) 0b00001101) = .ok .pdIdleCr ∧
    decode Cfg.cfgT (.stream (.dispatcher .idle) 0b00001010) = .ok .pdIdleLf ∧
    decode Cfg.cfgT (.stream (.dispatcher .idle) 0b10100101) = .ok .pdIdleHeader ∧
    decode Cfg.cfgT (.stream (.dispatcher .idle) 0b01111111) = .ok (.pdIdleNoise 0x7F) ∧
    decode Cfg.cfgT (.stream (.dispatcher .inLineFrame) 0b10100101) = .ok (.pdInLine 0xA5) ∧
    decode Cfg.cfgT (.stream (.dispatcher .inBinaryFrame) 0b00001101) = .ok (.pdInBin 0x0D) := by decide

/-- BYTE_ROLE rows `BF.*` (R78). -/
theorem test_decode_frame_roles :
    decode Cfg.cfgT (.stream (.frameParser .waitHeader 0 0 0 0) 0b10100101) = .ok .bfWaitHeaderHdr ∧
    decode Cfg.cfgT (.stream (.frameParser .waitHeader 0 0 0 0) 0b01000001) = .ok (.bfWaitHeaderOther 0x41) ∧
    decode Cfg.cfgT (.stream (.frameParser .readIds 0 0 0 0xA5) 0b00000001) = .ok (.bfReadIdsDevice 1) ∧
    decode Cfg.cfgT (.stream (.frameParser .readIds 1 0 0 0xA6) 0b00000010) = .ok (.bfReadIdsSystem 2) ∧
    decode Cfg.cfgT (.stream (.frameParser .readIds 2 0 0 0xA8) 0b01010001) = .ok (.bfReadIdsMsg 0x51) ∧
    decode Cfg.cfgT (.stream (.frameParser .readIds 3 0 0 0xF9) 0b00000111) = .ok (.bfReadIdsSeq 7) ∧
    decode Cfg.cfgT (.stream (.frameParser .readLen 3 0 0 0) 0b01000000) = .ok (.bfReadLenTooLong 0x40) ∧
    decode Cfg.cfgT (.stream (.frameParser .readLen 3 0 0 0) 0b00000000) = .ok .bfReadLenZero ∧
    decode Cfg.cfgT (.stream (.frameParser .readLen 3 0 0 0) 0b00111111) = .ok (.bfReadLenValid 0x3F) ∧
    decode Cfg.cfgT (.stream (.frameParser .readPayload 3 0 2 2) 0b10101010) = .ok (.bfReadPayloadByte 0xAA) ∧
    decode Cfg.cfgT (.stream (.frameParser .readPayload 3 1 2 0xAC) 0b10111011) = .ok (.bfReadPayloadLast 0xBB) ∧
    decode Cfg.cfgT (.stream (.frameParser .readChecksum 3 2 2 0x67) 0b01100111) = .ok (.bfReadChecksumMatch 0x67) ∧
    decode Cfg.cfgT (.stream (.frameParser .readChecksum 3 2 2 0x67) 0b01100110) = .ok (.bfReadChecksumMismatch 0x66) := by
  decide

/-- BYTE_ROLE rows `LP.*` (R79). -/
theorem test_decode_line_roles :
    decode Cfg.cfgT (.stream (.lineParser 3) 0b00001101) = .ok .lpTermCr ∧
    decode Cfg.cfgT (.stream (.lineParser 3) 0b00001010) = .ok .lpTermLf ∧
    decode Cfg.cfgT (.stream (.lineParser 6) 0b01000111) = .ok (.lpByteAppend 0x47) ∧
    decode Cfg.cfgT (.stream (.lineParser 7) 0b01001000) = .ok (.lpByteOverflow 0x48) := by decide

/-- WIRE rows (R71, R75, R81; V-EN-1, V-LP-1). -/
theorem test_decode_wire :
    decode Cfg.cfgT (.wireFrame [0xA5, 0x01, 0x02, 0x51, 0x07, 0x02, 0xAA, 0xBB, 0x67]) =
      .ok (.frame 0x01 0x02 0x51 0x07 [0xAA, 0xBB] 0x67) ∧
    decode Cfg.cfgT (.wireLine [0x4C, 0x45, 0x44, 0x20, 0x4F, 0x4E, 0x0D]) = .ok (.line ledOn 0x0D) ∧
    decode Cfg.cfgT (.wirePosition 5 0b00111) = .ok (.positionReport 7) := by decide

/-- EVENT rows (R146, R203 to R205, R161). -/
theorem test_decode_events :
    decode Cfg.cfgT (.event (.frameOk 1 2 0x51 7 1 [0xAA])) = .ok (.frameOk 1 2 0x51 7 1 [0xAA]) ∧
    decode Cfg.cfgT (.event (.frameLenAbort 0x40)) = .ok (.frameLenAbort 0x40) ∧
    decode Cfg.cfgT (.event (.frameCsumFail 0x67 0x66)) = .ok (.frameCsumFail 0x67 0x66) ∧
    decode Cfg.cfgT (.event (.lineCmd 0 [0x4C, 0x45, 0x44] (some [0x4F, 0x4E]))) =
      .ok (.lineCmd 0 [0x4C, 0x45, 0x44] (some [0x4F, 0x4E])) ∧
    decode Cfg.cfgT (.event (.lineUnknown [0x4F, 0x4B])) = .ok (.lineUnknown [0x4F, 0x4B]) := by decide

/-- Codes that are no instruction, each by its name. -/
theorem test_decode_rejects :
    decode Cfg.cfgT (.port .rbRd 8 0) = .error .operandWidth ∧ decode Cfg.cfgT (.port .rbWr 8 256) = .error .operandTooWide ∧
    decode Cfg.cfgT (.port .dxEvt 5 17) = .error .positionAboveCapacity ∧
    decode Cfg.cfgT (.wireFrame [0xA5, 1, 2]) = .error .frameTooShort ∧
    decode Cfg.cfgT (.wireFrame [0xA4, 1, 2, 3, 4, 0, 0]) = .error .frameNoHeader ∧
    decode Cfg.cfgT (.wireFrame [0xA5, 1, 2, 3, 4, 2, 0]) = .error .frameLengthMismatch ∧
    decode Cfg.cfgT (.wireLine [0x41]) = .error .lineNoTerminator ∧
    decode Cfg.cfgT (.wireLine [0x0A, 0x41, 0x0D]) = .error .lineTerminatorInside ∧
    decode Cfg.cfgT (.event (.frameLenAbort 3)) = .error .eventIllegal := by decide

/-- The table's fixed words, read where the block stands after reset (log 17). -/
theorem test_decode_table_words :
    decodeTableWord 8 0x0D = some .pdIdleCr ∧ decodeTableWord 8 0x0A = some .pdIdleLf ∧
    decodeTableWord 8 0x00 = some (.pdIdleNoise 0) ∧ decodeTableWord 16 0x0D = none := by decide

/-- The encoder against V-EN-1, V-EN-2, V-EN-3. -/
theorem test_encode_frames :
    encodeFrame Cfg.cfgT 1 2 0x51 7 [0xAA, 0xBB] = [0xA5, 0x01, 0x02, 0x51, 0x07, 0x02, 0xAA, 0xBB, 0x67] ∧
    encodeFrame Cfg.cfgT 1 2 0x51 7 [] = [0xA5, 0x01, 0x02, 0x51, 0x07, 0x00, 0x00] ∧
    encodeFrame Cfg.cfgT 0xFF 0xFF 0xFF 0xFF [0xFF] = [0xA5, 0xFF, 0xFF, 0xFF, 0xFF, 0x01, 0xFF, 0xA1] := by decide

/-! ### Ring Buffer (V-RB) -/

/-- V-RB-14. -/
theorem test_rb_init :
    nextIs (exec .rbInit { withN 4 with rb := { wr := 3, rd := 1, data := [(0, 0x11), (1, 0x22)] } })
      (fun t => t.rb == { wr := 0, rd := 0, data := [(0, 0x11), (1, 0x22)] }) = true := by decide

/-- V-RB-8: the index wraps. -/
theorem test_rb_write_wraps :
    nextIs (exec (.rbWrite 0x44) { withN 4 with rb := { wr := 3, rd := 1, data := [] } })
      (fun t => t.rb == { wr := 0, rd := 1, data := [(3, 0x44)] } && t.result == .ok true) = true := by decide

/-- V-RB-6: full. -/
theorem test_rb_write_full :
    nextIs (exec (.rbWrite 0x44) { withN 4 with rb := { wr := 3, rd := 0, data := [] } })
      (fun t => t.rb == { wr := 3, rd := 0, data := [] } && t.result == .ok false) = true := by decide

/-- V-RB-12: the index wraps. -/
theorem test_rb_read_wraps :
    nextIs (exec .rbRead { withN 4 with rb := { wr := 0, rd := 3, data := [(3, 0x44)] } })
      (fun t => t.rb == { wr := 0, rd := 0, data := [(3, 0x44)] } && t.result == .read (some 0x44)) = true := by decide

/-- V-RB-13: empty. -/
theorem test_rb_read_empty :
    nextIs (exec .rbRead (withN 4)) (fun t => t.rb == (withN 4).rb && t.result == .read none) = true := by decide

/-- V-RB-1. -/
theorem test_rb_is_empty : nextIs (exec .rbIsEmpty (withN 4)) (fun t => t.result == .empty true) = true := by decide

/-- V-RB-16. -/
theorem test_rb_write_n :
    nextIs (exec (.rbWriteN [1, 2, 3, 4]) (withN 4))
      (fun t => t.rb == { wr := 3, rd := 0, data := [(0, 1), (1, 2), (2, 3)] } && t.result == .stored 3) = true := by decide

/-- V-RB-17. -/
theorem test_rb_read_n :
    nextIs (exec (.rbReadN 5) { withN 4 with rb := { wr := 3, rd := 0, data := [(0, 1), (1, 2), (2, 3)] } })
      (fun t => t.rb.rd == 3 && t.result == .bytes [1, 2, 3]) = true := by decide

/-- V-RB-18: a stale full. The producer takes its snapshot, the consumer's RB.READ completes, the producer goes on. -/
theorem test_micro_stale_full :
    microRun 4 0x55 [true, false, false, false, true] .start .start { wr := 3, rd := 0, data := [(0, 0x11)] } =
      (.finished false, .finished (some 0x11), { wr := 3, rd := 1, data := [(0, 0x11)] }) := by decide

/-- V-RB-19: a stale empty. -/
theorem test_micro_stale_empty :
    microRun 4 0x66 [false, true, true, true, false] .start .start { wr := 1, rd := 1, data := [] } =
      (.finished true, .finished none, { wr := 2, rd := 1, data := [(1, 0x66)] }) := by decide

/-! ### Extractor (V-DX) -/

/-- V-DX-16. -/
theorem test_dx_init :
    nextIs (exec .dxInit { State.reset with dx := { last := 7, drops := 5, wake := true } })
      (fun t => t.dx == { last := 0, drops := 0, wake := false }) = true := by decide

/-- V-DX-10: what does not fit is counted. -/
theorem test_dx_extract_drops :
    nextIs (exec (.dxExtract 5) { withN 4 with rx := { hwbuf := [(0, 0xA0), (1, 0xA1), (2, 0xA2), (3, 0xA3)], pos := 5, unreported := 5 } })
      (fun t => t.rb == { wr := 3, rd := 0, data := [(0, 0xA0), (1, 0xA1), (2, 0xA2)] } &&
        t.dx == { last := 5, drops := 2, wake := true }) = true := by decide

/-- R109, R183: a report that waits was raised earlier and is served first, so the bytes keep their order. -/
theorem test_dx_extract_behind_reports :
    nextIs (exec (.dxExtract 3) { State.reset with
        reports := [2], rx := { hwbuf := [(0, 0xA0), (1, 0xA1), (2, 0xA2)], pos := 3, unreported := 1 } })
      (fun t => t.rb == { wr := 3, rd := 0, data := [(0, 0xA0), (1, 0xA1), (2, 0xA2)] } && t.dx.last == 3 && t.reports == [] &&
        t.rx.unreported == 0) = true ∧
    nextIs (step { State.reset with reports := [2], sched := [.start .producer (.port .dxEvt 5 3)] })
      (fun t => t.reports == [2, 3] && t.producer == .quiescent) = true := by decide

/-- V-DX-7: the wraparound's order. -/
theorem test_dx_extract_wraps :
    nextIs (exec (.dxExtract 2) { State.reset with
        dx := { last := 14, drops := 0, wake := false },
        rx := { hwbuf := [(0, 3), (1, 4), (14, 1), (15, 2)], pos := 2, unreported := 4 } })
      (fun t => t.rb.data == [(0, 1), (1, 2), (2, 3), (3, 4)] && t.dx.last == 2) = true := by decide

/-- V-DX-12. -/
theorem test_dx_reset :
    nextIs (exec .dxReset { State.reset with dx := { last := 9, drops := 2, wake := true } })
      (fun t => t.dx == { last := 0, drops := 2, wake := true }) = true := by decide

/-- V-DX-11, on the wire row. -/
theorem test_position_refused : refusedBy (exec (.positionReport 17) State.reset) .positionAboveCapacity = true := by decide

/-- R109, R101: the report enters the extraction with the window of V-DX-5. -/
theorem test_position_report_enters :
    nextIs (exec (.positionReport 16) { State.reset with dx := { last := 14, drops := 0, wake := false } })
      (fun t => t.producer == .extracting 16 [14, 15] && t.dx.last == 14) = true := by decide

/-- V-DX-13: the counter stays at its top. -/
theorem test_drop_counter_saturates : satInc 32 0xFFFFFFFF = 0xFFFFFFFF ∧ satInc 32 0xFFFFFFFE = 0xFFFFFFFF := by decide

/-- V-DX-15, after the consumer's RB.READ behind the third push: the fourth byte is stored, the fifth finds the ring full. -/
theorem test_producer_pushes_between_reads :
    nextIs (step { withN 4 with
        rb := { wr := 3, rd := 1, data := [(0, 0xA0), (1, 0xA1), (2, 0xA2)] }, producer := .extracting 5 [3, 4],
        rx := { hwbuf := [(3, 0xA3), (4, 0xA4)], pos := 5, unreported := 0 }, sched := [.producer] })
      (fun t => t.rb == { wr := 0, rd := 1, data := [(0, 0xA0), (1, 0xA1), (2, 0xA2), (3, 0xA3)] } &&
        t.producer == .extracting 5 [4] && t.dx.drops == 0) = true ∧
    nextIs (step { withN 4 with
        rb := { wr := 0, rd := 1, data := [(1, 0xA1)] }, producer := .extracting 5 [4],
        rx := { hwbuf := [(4, 0xA4)], pos := 5, unreported := 0 }, sched := [.producer] })
      (fun t => t.rb.wr == 0 && t.dx == { last := 0, drops := 1, wake := false } && t.producer == .extracting 5 []) = true := by
  decide

/-- R109: the oldest waiting report is entered. -/
theorem test_producer_serves_oldest_report :
    nextIs (step { State.reset with reports := [3, 5], sched := [.producer] })
      (fun t => t.producer == .extracting 3 [0, 1, 2] && t.reports == [5]) = true := by decide

/-- R94, "the other agent may step between two of them": with `N = 4` and a read between, a fourth byte is stored. -/
theorem test_write_n_interleaved :
    nextIs (step { withN 4 with rb := { wr := 3, rd := 1, data := [] }, producer := .writing [0x44] 3, sched := [.producer] })
      (fun t => t.rb == { wr := 0, rd := 1, data := [(3, 0x44)] } && t.producer == .writing [] 4) = true ∧
    nextIs (step { withN 4 with rb := { wr := 0, rd := 1, data := [] }, producer := .writing [] 4, sched := [.producer] })
      (fun t => t.result == .stored 4 && t.producer == .quiescent) = true := by decide

/-- RB.IS_EMPTY inside an extraction and inside the drain answers from the ring (R93) and leaves the operation where it was (log 30). -/
theorem test_rb_is_empty_inside_an_operation :
    nextIs (step { withN 4 with producer := .extracting 5 [4], sched := [.transact .producer (.port .rbEmpty 0 0)] })
      (fun t => t.result == .empty true && t.producer == .extracting 5 [4]) = true ∧
    nextIs (step { withN 4 with consumer := .draining none, sched := [.transact .consumer (.port .rbEmpty 0 0)] })
      (fun t => t.result == .empty true && t.consumer == .draining none) = true := by decide

/-- R94: RB.READ_N goes on after a write between, and stops at the first failure. -/
theorem test_read_n_interleaved :
    nextIs (step { withN 4 with rb := { wr := 2, rd := 1, data := [(1, 7)] }, consumer := .reading 2 [6], sched := [.consumer] })
      (fun t => t.rb.rd == 2 && t.consumer == .reading 1 [6, 7]) = true ∧
    nextIs (step { withN 4 with rb := { wr := 2, rd := 2, data := [] }, consumer := .reading 1 [6, 7], sched := [.consumer] })
      (fun t => t.result == .bytes [6, 7] && t.consumer == .waiting) = true := by decide

/-- An operation of several steps is entered, not run (R94, R106, R180). -/
theorem test_start :
    nextIs (step { State.reset with sched := [.start .producer (.writeN [1, 2])] })
      (fun t => t.producer == .writing [1, 2] 0 && t.rb.wr == 0) = true ∧
    nextIs (step { State.reset with sched := [.start .consumer (.readN 3)] }) (fun t => t.consumer == .reading 3 []) = true ∧
    nextIs (step { State.reset with sched := [.start .producer (.port .dxEvt 5 2)] })
      (fun t => t.producer == .extracting 2 [0, 1]) = true ∧
    nextIs (step { State.reset with dx := { last := 0, drops := 0, wake := true }, sched := [.start .consumer (.port .drain 0 0)] })
      (fun t => t.consumer == .draining none && !t.dx.wake) = true := by decide

/-- R237: fewer than `H` bytes between two events, or exactly `H` from position 0; no store into a range being extracted. -/
theorem test_overrun_bounds :
    ({ State.reset with dx := { last := 4, drops := 0, wake := false },
                        rx := { hwbuf := [], pos := 2, unreported := 14 } } : State).overruns = false ∧
    ({ State.reset with dx := { last := 4, drops := 0, wake := false },
                        rx := { hwbuf := [], pos := 3, unreported := 15 } } : State).overruns = true ∧
    ({ State.reset with rx := { hwbuf := [], pos := 15, unreported := 15 } } : State).overruns = false ∧
    ({ State.reset with rx := { hwbuf := [], pos := 0, unreported := 16 } } : State).overruns = true ∧
    ({ State.reset with producer := .extracting 6 [5], rx := { hwbuf := [], pos := 0, unreported := 0 } } : State).overruns =
      true ∧
    ({ State.reset with producer := .extracting 6 [5], rx := { hwbuf := [], pos := 6, unreported := 0 } } : State).overruns =
      false ∧
    ({ State.reset with producer := .extracting 6 [5], reports := [8],
                        rx := { hwbuf := [], pos := 6, unreported := 0 } } : State).overruns = true := by decide

/-- A defined store counts, a position event starts the count afresh (log 7). -/
theorem test_receive_and_report :
    nextIs (step { State.reset with sched := [.receive 0x41] })
      (fun t => t.rx == { hwbuf := [(0, 0x41)], pos := 1, unreported := 1 } && t.draws == 0) = true ∧
    nextIs (exec (.positionReport 3) { State.reset with rx := { hwbuf := [], pos := 4, unreported := 4 } })
      (fun t => t.rx.unreported == 1) = true := by decide

/-- R183, R232: after SYS.RESET and a restart, in either order, and after SYS.RX_REINIT, the bytes stored before count no more. -/
theorem test_resets_start_the_count :
    nextIs (exec .sysReset { State.reset with rx := { hwbuf := [], pos := 0, unreported := 15 } })
      (fun t => t.rx.unreported == 0 && !t.overruns) = true ∧
    nextIs (step { State.reset with rx := { hwbuf := [], pos := 15, unreported := 15 }, sched := [.restart] })
      (fun t => t.rx == { hwbuf := [], pos := 0, unreported := 0 }) = true ∧
    nextIs (exec .sysReset { State.reset with rx := { hwbuf := [], pos := 3, unreported := 19 } })
      (fun t => t.rx.unreported == 3) = true := by decide

/-! ### Dispatcher (V-PD) -/

/-- V-PD-16. -/
theorem test_pd_init :
    nextIs (exec .pdInit { State.reset with pd := { state := .inBinaryFrame }, bf := bfAt .readLen 0 0 0 })
      (fun t => t.pd.state == .idle && t.bf.state == .readLen) = true := by decide

/-- V-PD-17: a broken joint invariant. -/
theorem test_pd_step :
    nextIs (exec (.pdStep 0xA5) { State.reset with bf := bfAt .readLen 0 0 0 })
      (fun t => t.pd.state == .idle && t.bf.state == .waitHeader && t.trace == [.frameLenAbort 0xA5]) = true := by decide

/-- V-PD-4. -/
theorem test_pd_printable :
    nextIs (exec (.pdIdlePrintable 0x7E) State.reset)
      (fun t => t.pd.state == .inLineFrame && t.lp == { cur := 1, buf := [(0, 0x7E)] }) = true := by decide

/-- V-PD-6. -/
theorem test_pd_cr : nextIs (exec .pdIdleCr State.reset) (fun t => t.pd.state == .idle && t.trace == []) = true := by decide

/-- V-PD-7. -/
theorem test_pd_lf : nextIs (exec .pdIdleLf State.reset) (fun t => t.pd.state == .idle && t.trace == []) = true := by decide

/-- V-PD-8. -/
theorem test_pd_header :
    nextIs (exec .pdIdleHeader State.reset)
      (fun t => t.pd.state == .inBinaryFrame && t.bf.state == .readIds && t.bf.csum == 0xA5) = true := by decide

/-- V-PD-5. -/
theorem test_pd_noise :
    nextIs (exec (.pdIdleNoise 0x7F) State.reset) (fun t => t == State.reset) = true := by decide

/-- V-PD-10. -/
theorem test_pd_in_line :
    nextIs (exec (.pdInLine 0xA5) { State.reset with pd := { state := .inLineFrame }, lp := { cur := 1, buf := [] } })
      (fun t => t.pd.state == .inLineFrame && t.lp == { cur := 2, buf := [(1, 0xA5)] } && t.bf.state == .waitHeader) = true := by
  decide

/-- V-PD-15. -/
theorem test_pd_in_bin :
    nextIs (exec (.pdInBin 0x67) { State.reset with pd := { state := .inBinaryFrame }, bf := bfAt .readChecksum 0 0 0x67 })
      (fun t => t.pd.state == .idle && t.bf.state == .waitHeader && t.trace == [.frameOk 1 2 0x51 7 0 []]) = true := by decide

/-! ### Frame parser (V-BF) -/

/-- V-BF-13. -/
theorem test_bf_init :
    nextIs (exec .bfInit { State.reset with bf := bfAt .readPayload 1 2 3 })
      (fun t => t.bf == { bfAt .readPayload 1 2 3 with state := .waitHeader, idx := 0 } && t.trace == []) = true := by decide

/-- V-BF-8. -/
theorem test_bf_step :
    nextIs (exec (.bfStep 0x40) { State.reset with bf := bfAt .readLen 0 0 0 })
      (fun t => t.result == .done true && t.trace == [.frameLenAbort 0x40] && t.bf.state == .waitHeader) = true := by decide

/-- V-BF-1, first byte. -/
theorem test_bf_header :
    nextIs (exec .bfWaitHeaderHdr { State.reset with bf := bfAt .waitHeader 0 0 0x99 })
      (fun t => t.bf.csum == 0xA5 && t.bf.idx == 0 && t.bf.state == .readIds && t.result == .done false) = true := by decide

/-- V-BF-9. -/
theorem test_bf_other :
    nextIs (exec (.bfWaitHeaderOther 0x41) State.reset) (fun t => t.bf == State.reset.bf && t.result == .done false) = true := by
  decide

/-- V-BF-1, second byte. -/
theorem test_bf_device :
    nextIs (exec (.bfReadIdsDevice 1) { State.reset with bf := { State.reset.bf with state := .readIds, idx := 0, csum := 0xA5 } })
      (fun t => t.bf.dev == 1 && t.bf.csum == 0xA6 && t.bf.idx == 1 && t.bf.sys == 0) = true := by decide

/-- V-BF-1, third byte. -/
theorem test_bf_system :
    nextIs (exec (.bfReadIdsSystem 2) { State.reset with bf := { State.reset.bf with state := .readIds, idx := 1, csum := 0xA6 } })
      (fun t => t.bf.sys == 2 && t.bf.csum == 0xA8 && t.bf.idx == 2 && t.bf.msg == 0) = true := by decide

/-- V-BF-1, fourth byte. -/
theorem test_bf_msg :
    nextIs (exec (.bfReadIdsMsg 0x51) { State.reset with bf := { State.reset.bf with state := .readIds, idx := 2, csum := 0xA8 } })
      (fun t => t.bf.msg == 0x51 && t.bf.csum == 0xF9 && t.bf.idx == 3 && t.bf.seq == 0) = true := by decide

/-- V-BF-1, fifth byte: the sum wraps. -/
theorem test_bf_seq :
    nextIs (exec (.bfReadIdsSeq 7) { State.reset with bf := { State.reset.bf with state := .readIds, idx := 3, csum := 0xF9 } })
      (fun t => t.bf.seq == 7 && t.bf.csum == 0 && t.bf.idx == 3 && t.bf.state == .readLen) = true := by decide

/-- V-BF-6. -/
theorem test_bf_too_long :
    nextIs (exec (.bfReadLenTooLong 0xFF) { State.reset with bf := bfAt .readLen 0 0 0 })
      (fun t => t.bf.len == 0xFF && t.trace == [.frameLenAbort 0xFF] && t.bf.payload == []) = true := by decide

/-- V-BF-5. -/
theorem test_bf_len_zero :
    nextIs (exec .bfReadLenZero { State.reset with bf := bfAt .readLen 5 9 0x33 })
      (fun t => t.bf.len == 0 && t.bf.csum == 0x33 && t.bf.state == .readChecksum && t.bf.pcur == 5) = true := by decide

/-- V-BF-7: `MAXP - 1` is accepted. -/
theorem test_bf_len_valid :
    nextIs (exec (.bfReadLenValid 0x3F) { State.reset with bf := bfAt .readLen 5 9 0 })
      (fun t => t.bf.len == 0x3F && t.bf.csum == 0x3F && t.bf.pcur == 0 && t.bf.state == .readPayload) = true := by decide

/-- V-BF-1, seventh byte. -/
theorem test_bf_payload :
    nextIs (exec (.bfReadPayloadByte 0xAA) { State.reset with bf := bfAt .readPayload 0 2 0x02 })
      (fun t => t.bf.payload == [(0, 0xAA)] && t.bf.csum == 0xAC && t.bf.pcur == 1 && t.bf.state == .readPayload) = true := by
  decide

/-- V-BF-1, eighth byte. -/
theorem test_bf_payload_last :
    nextIs (exec (.bfReadPayloadLast 0xBB) { State.reset with bf := bfAt .readPayload 1 2 0xAC })
      (fun t => t.bf.payload == [(1, 0xBB)] && t.bf.csum == 0x67 && t.bf.pcur == 2 && t.bf.state == .readChecksum) = true := by
  decide

/-- V-BF-1, last byte. -/
theorem test_bf_match :
    nextIs (exec (.bfReadChecksumMatch 0x67) { State.reset with
        bf := { bfAt .readChecksum 2 2 0x67 with payload := [(0, 0xAA), (1, 0xBB), (2, 0xCC)] } })
      (fun t => t.trace == [.frameOk 1 2 0x51 7 2 [0xAA, 0xBB]] && t.bf.csum == 0x67 && t.result == .done true) = true := by
  decide

/-- V-BF-4. -/
theorem test_bf_mismatch :
    nextIs (exec (.bfReadChecksumMismatch 0x66) { State.reset with bf := bfAt .readChecksum 2 2 0x67 })
      (fun t => t.trace == [.frameCsumFail 0x67 0x66] && t.bf.state == .waitHeader) = true := by decide

/-! ### Line parser (V-LP) -/

/-- V-LP-18. -/
theorem test_lp_init :
    nextIs (exec .lpInit { State.reset with lp := { cur := 3, buf := ledOnBuf } })
      (fun t => t.lp == { cur := 0, buf := ledOnBuf } && t.trace == []) = true := by decide

/-- V-LP-2. -/
theorem test_lp_step : nextIs (exec (.lpStep 0x0D) State.reset) (fun t => t.result == .done true && t.trace == []) = true := by
  decide

/-- V-LP-1. -/
theorem test_lp_cr :
    nextIs (exec .lpTermCr { State.reset with lp := { cur := 6, buf := ledOnBuf } })
      (fun t => t.trace == [.lineCmd 0 [0x4C, 0x45, 0x44] (some [0x4F, 0x4E])] && t.lp.cur == 0 && t.lp.buf == ledOnBuf) =
      true := by decide

/-- As V-LP-9, seven bytes: the NUL goes to index `L - 1`; "LED ONG" splits as R164 says. -/
theorem test_lp_lf :
    nextIs (exec .lpTermLf { State.reset with lp := { cur := 7, buf := ledOnBuf ++ [(6, 0x47), (7, 0x55)] } })
      (fun t => t.trace == [.lineCmd 0 [0x4C, 0x45, 0x44] (some [0x4F, 0x4E, 0x47])] &&
        t.lp.buf == ledOnBuf ++ [(6, 0x47)]) = true := by decide

/-- R162: the last byte that fits. -/
theorem test_lp_append :
    nextIs (exec (.lpByteAppend 0x47) { State.reset with lp := { cur := 6, buf := ledOnBuf } })
      (fun t => t.lp == { cur := 7, buf := ledOnBuf ++ [(6, 0x47)] } && t.result == .done false) = true := by decide

/-- V-LP-7, eighth byte. -/
theorem test_lp_overflow :
    nextIs (exec (.lpByteOverflow 0x48) { State.reset with lp := { cur := 7, buf := ledOnBuf } })
      (fun t => t.lp == { cur := 0, buf := ledOnBuf } && t.trace == []) = true := by decide

/-- The Tokenize examples of R164. -/
theorem test_tokenize :
    tokenize Cfg.cfgT.isWs ledOn = ([0x4C, 0x45, 0x44], some [0x4F, 0x4E]) ∧
    tokenize Cfg.cfgT.isWs [0x4C, 0x45, 0x44] = ([0x4C, 0x45, 0x44], none) ∧
    tokenize Cfg.cfgT.isWs [0x4C, 0x20] = ([0x4C], some []) ∧
    tokenize Cfg.cfgT.isWs [0x20, 0x4C] = ([], some [0x4C]) ∧
    tokenize Cfg.cfgT.isWs [0x4C, 0x20, 0x20, 0x4F] = ([0x4C], some [0x20, 0x4F]) := by decide

/-- The Lookup examples of R165. -/
theorem test_lookup :
    lookup Cfg.cfgT.cmds [0x4C, 0x45, 0x44] = some 0 ∧ lookup Cfg.cfgT.cmds [0x6C, 0x65, 0x64] = none ∧
    lookup Cfg.cfgT.cmds [0x4C, 0x45, 0x44, 0x53] = none ∧ lookup Cfg.cfgT.cmds [0x48, 0x45, 0x4C, 0x50] = some 1 := by decide

/-! ### Consumer, system, wire and events -/

/-- V-CS-1. -/
theorem test_cons_drain :
    nextIs (exec .consDrain { State.reset with
        rb := { wr := 3, rd := 0, data := [(0, 0x4F), (1, 0x4B), (2, 0x0D)] }, dx := { last := 3, drops := 0, wake := true } })
      (fun t => t.trace == [.lineUnknown [0x4F, 0x4B]] && t.rb.rd == 3 && !t.dx.wake && t.consumer == .waiting) = true := by
  decide

/-- V-CS-5. -/
theorem test_cons_drain_blocked : nextIs (exec .consDrain State.reset) (fun t => t == State.reset) = true := by decide

/-- V-CS-3. -/
theorem test_sys_reset :
    nextIs (exec .sysReset { State.reset with
        rb := { wr := 3, rd := 1, data := [(0, 0x4F)] }, dx := { last := 3, drops := 9, wake := true },
        pd := { state := .inLineFrame }, lp := { cur := 2, buf := ledOnBuf }, bf := bfAt .readLen 1 2 3 })
      (fun t => t.rb == { wr := 0, rd := 0, data := [(0, 0x4F)] } && t.dx == { last := 0, drops := 0, wake := false } &&
        t.pd.state == .idle && t.lp == { cur := 0, buf := ledOnBuf } && t.bf.state == .waitHeader && t.bf.idx == 0 &&
        t.bf.csum == 3) = true := by decide

/-- V-CS-4. -/
theorem test_sys_rx_reinit :
    nextIs (exec .sysRxReinit { State.reset with
        dx := { last := 9, drops := 4, wake := true }, pd := { state := .inLineFrame }, lp := { cur := 2, buf := [] },
        rx := { hwbuf := [(0, 0x41)], pos := 12, unreported := 3 } })
      (fun t => t.dx == { last := 0, drops := 4, wake := true } && t.rx == { hwbuf := [(0, 0x41)], pos := 0, unreported := 0 } &&
        t.pd.state == .inLineFrame && t.lp.cur == 2) = true := by decide

/-- V-EN-5. -/
theorem test_frame :
    nextIs (exec (.frame 1 2 0x51 7 [0xAA, 0xBB] 0x67) State.reset)
      (fun t => t.trace == [.frameOk 1 2 0x51 7 2 [0xAA, 0xBB]] && t.pd.state == .idle) = true := by decide

/-- V-BF-2: a flipped payload bit. -/
theorem test_frame_flipped :
    nextIs (exec (.frame 1 2 0x51 7 [0xAB, 0xBB] 0x67) State.reset) (fun t => t.trace == [.frameCsumFail 0x68 0x67]) = true := by
  decide

/-- P1's bytes. -/
theorem test_line :
    nextIs (exec (.line ledOn 0x0D) State.reset)
      (fun t => t.trace == [.lineCmd 0 [0x4C, 0x45, 0x44] (some [0x4F, 0x4E])] && t.pd.state == .idle) = true := by decide

/-- V-LP-17: the tail of an overlong line runs a handler. -/
theorem test_line_tail :
    nextIs (exec (.line ([0x41, 0x42, 0x43, 0x44, 0x45, 0x46, 0x47, 0x48] ++ ledOn) 0x0D) State.reset)
      (fun t => t.trace == [.lineCmd 0 [0x4C, 0x45, 0x44] (some [0x4F, 0x4E])]) = true := by decide

/-- R200: each record is appended, the older ones kept. -/
theorem test_event_rows :
    nextIs (exec (.frameOk 1 2 3 4 1 [5]) { State.reset with trace := [.lineUnknown []] })
      (fun t => t.trace == [.lineUnknown [], .frameOk 1 2 3 4 1 [5]]) = true ∧
    nextIs (exec (.frameLenAbort 0x40) State.reset) (fun t => t.trace == [.frameLenAbort 0x40]) = true ∧
    nextIs (exec (.frameCsumFail 1 2) State.reset) (fun t => t.trace == [.frameCsumFail 1 2]) = true ∧
    nextIs (exec (.lineCmd 1 [0x48] none) State.reset) (fun t => t.trace == [.lineCmd 1 [0x48] none]) = true ∧
    nextIs (exec (.lineUnknown [0x48]) State.reset) (fun t => t.trace == [.lineUnknown [0x48]]) = true := by decide

/-! ### The step and the discipline (R41, R109, R219) -/

/-- A transaction by its right caller runs; the driver may not write to the ring. -/
theorem test_step_transaction :
    nextIs (step { State.reset with sched := [.transact .producer (.port .rbWr 8 0x44)] })
      (fun t => t.rb.wr == 1 && t.sched == []) = true ∧
    refusedBy (step { State.reset with sched := [.transact .consumer (.port .rbWr 8 0x44)] }) (.wrongAgent .consumer) = true ∧
    refusedBy (step { State.reset with sched := [.transact .handler (.port .pdByte 8 0x44)] }) .handlerReentry = true ∧
    refusedBy (step { State.reset with sched := [.transact .stranger (.port .rbRd 0 0)] }) (.secondContext .stranger) = true ∧
    refusedBy (step { State.reset with sched := [.transact .driver (.event (.frameLenAbort 0x40))] }) .outputRecord = true ∧
    refusedBy (step { State.reset with sched := [.transact .driver (.port .rbRd 8 0)] }) (.undecodable .operandWidth) = true := by
  decide

/-- A word placed where the next step runs it: CR in `Idle`. -/
theorem test_with_fetch_word :
    nextIs (step (State.reset.withFetchWord 8 0x0D))
      (fun t => t.pd.state == .idle && t.consumer == .draining none && t.sched == []) = true := by decide

/-- R219 (1), (3), (4). -/
theorem test_refusals :
    refusedBy (exec (.rbWrite 1) State.powerOn) (.uninitialised .rb) = true ∧
    refusedBy (exec (.dxExtract 3) { State.reset with producer := .extracting 5 [4] }) .overlappingExtraction = true ∧
    refusedBy (exec (.dxExtract 3) { State.reset with producer := .writing [1] 0 }) (.secondContext .producer) = true ∧
    refusedBy (exec .rbInit { State.reset with consumer := .draining none }) (.notQuiescent .consumer) = true ∧
    refusedBy (exec .rbInit { State.reset with consumer := .reading 1 [] }) (.notQuiescent .consumer) = true ∧
    refusedBy (exec .dxReset { State.reset with producer := .extracting 5 [4] }) (.notQuiescent .producer) = true ∧
    refusedBy (exec .consDrain { State.reset with consumer := .draining none }) (.secondContext .consumer) = true ∧
    refusedBy (exec .bfReadLenZero State.reset) .rowNotApplicable = true := by decide

/-- A memory stays canonical: writing what an unlisted index reads as removes the entry. -/
theorem test_memory_canonical :
    Memory.write [(1, 5), (3, 7)] 1 0 = [(3, 7)] ∧ Memory.write [(3, 7)] 1 5 = [(1, 5), (3, 7)] ∧
    Memory.wf [(1, 5), (3, 7)] = true ∧ Memory.wf [(3, 7), (1, 5)] = false := by decide

/-! ### Witnesses: concrete states and operands that meet the hypotheses of each statement together -/

/-- A state in the middle of things: three bytes in the ring, two received and not extracted, some drops counted. -/
def demo : State := { State.reset with
  rb := { wr := 5, rd := 2, data := [(2, 0x4F), (3, 0x4B), (4, 0x0D)] },
  dx := { last := 4, drops := 7, wake := true },
  rx := { hwbuf := [(4, 0x41), (5, 0x42), (15, 0x43)], pos := 6, unreported := 2 },
  trace := [.frameLenAbort 0x40] }

theorem demo_legal : Legal demo := by
  constructor <;>
    first
      | decide
      | simp [demo, State.reset, State.powerOn, FrameParser.rangesOk, ProducerPhase.rangesOk, Cfg.cfgT]

/-- `demo` with a full ring whose write index is at the last slot. -/
def demoFull : State := demo.setRb { wr := 7, rd := 0, data := [(2, 0x4F)] }

theorem demoFull_legal : Legal demoFull := demo_legal.setRb (by decide) (by decide) (by decide) (by decide)

/-- `demo` with an empty ring, both indices at the last slot. -/
def demoEmpty : State := demo.setRb { wr := 7, rd := 7, data := [] }

theorem demoEmpty_legal : Legal demoEmpty := demo_legal.setRb (by decide) (by decide) (by decide) (by decide)

/-- `demo` with one byte in the ring, at the last slot. -/
def demoOne : State := demo.setRb { wr := 0, rd := 7, data := [(7, 0x44)] }

theorem demoOne_legal : Legal demoOne := demo_legal.setRb (by decide) (by decide) (by decide) (by decide)

/-- A state with the frame parser in a given state, reading a two-byte payload. -/
def demoBf (st : BfState) (idx : Fin 4) (pcur : Nat) : State :=
  demo.setBf { bfAt st pcur 2 0x67 with idx := idx }

theorem demoBf_legal (st : BfState) (idx : Fin 4) {pcur : Nat} (h : pcur < 2) : Legal (demoBf st idx pcur) := by
  refine demo_legal.setBf (show pcur < 64 by omega) ?_ rfl rfl
  cases st <;> simp [FrameParser.rangesOk, bfAt, demo, State.reset, State.powerOn, Cfg.cfgT, h]

/-- A state with a line of `cur` bytes. -/
def demoLp (cur : Nat) : State := demo.setLp { cur := cur, buf := ledOnBuf }

theorem demoLp_legal {cur : Nat} (h : cur < 8) : Legal (demoLp cur) := 
  demo_legal.setLp h (show Memory.wf ledOnBuf = true by decide) (show Memory.within 8 ledOnBuf = true by decide)

/-- `demo` inside DX.EXTRACT(7), with the write position back at a slot of that range. -/
def demoOverrun : State := (demo.setRx { demo.rx with pos := 5 }).setProducer (.extracting 7 [5, 6])

theorem demoOverrun_legal : Legal demoOverrun :=
  (demo_legal.setRx (r := { demo.rx with pos := 5 }) (by decide) demo_legal.hwbuf_wf demo_legal.hwbuf_within).setProducer
    (by simp [ProducerPhase.rangesOk, demo, State.reset, State.powerOn, Cfg.cfgT])

/-- `demo` with a number of bytes stored since the last position event. -/
def demoStored (k : Nat) : State := demo.setRx { demo.rx with unreported := k }

theorem demoStored_legal (k : Nat) : Legal (demoStored k) :=
  demo_legal.setRx (r := { demo.rx with unreported := k }) (show 6 < 16 by decide) demo_legal.hwbuf_wf demo_legal.hwbuf_within

theorem demo_parsersInited : demo.parsersInited := ⟨rfl, rfl, rfl⟩

theorem demo_allInited : demo.allInited := rfl

theorem witness_DecodeInvertsEncode :
    Cfg.cfgT.valid = true ∧ (Instr.frame 1 2 0x51 7 [0xAA] 0).wf Cfg.cfgT = true ∧ (Instr.dxExtract 16).wf Cfg.cfgT = true := by
  decide

theorem witness_DecodedIsWellFormed :
    Cfg.cfgT.valid = true ∧ decode Cfg.cfgT (.port .dxEvt 5 16) = .ok (.dxExtract 16) := by decide

theorem witness_ByteClassesOfIdle : Cfg.cfgT.valid = true := by decide

theorem witness_RbInitEmptiesRing : demo.cfg.valid = true ∧ demo.producerQuiet = true ∧ demo.consumerQuiet = true := by decide

/-- Each clause: a full ring, and a write index at the last slot of a ring that is not full. -/
theorem witness_RbWriteStoresUnlessFull :
    (Legal demoFull ∧ demoFull.inited.rb = true ∧ (demoFull.rb.wr + 1) % demoFull.cfg.n = demoFull.rb.rd) ∧
    (Legal demoEmpty ∧ demoEmpty.inited.rb = true ∧ (demoEmpty.rb.wr + 1) % demoEmpty.cfg.n ≠ demoEmpty.rb.rd) :=
  ⟨⟨demoFull_legal, by decide⟩, demoEmpty_legal, by decide⟩

theorem witness_RbReadTakesUnlessEmpty :
    (Legal demoEmpty ∧ demoEmpty.inited.rb = true ∧ demoEmpty.rb.wr = demoEmpty.rb.rd) ∧
    (Legal demoOne ∧ demoOne.inited.rb = true ∧ demoOne.rb.wr ≠ demoOne.rb.rd) :=
  ⟨⟨demoEmpty_legal, by decide⟩, demoOne_legal, by decide⟩

theorem witness_RbIsEmptyAndOccupancy :
    (Legal demoEmpty ∧ demoEmpty.inited.rb = true) ∧ (Legal demoFull ∧ demoFull.inited.rb = true) :=
  ⟨⟨demoEmpty_legal, rfl⟩, demoFull_legal, rfl⟩

/-- No room for all, and room for all. -/
theorem witness_RbWriteNStoresWhatFits :
    (Legal demo ∧ demo.inited.rb = true ∧ demo.ringContents.length = 3) ∧ (Legal demoFull ∧ demoFull.inited.rb = true) :=
  ⟨⟨demo_legal, by decide⟩, demoFull_legal, rfl⟩

theorem witness_RbReadNTakesOldest : Legal demo ∧ demo.inited.rb = true ∧ demo.ringContents = [0x4F, 0x4B, 0x0D] :=
  ⟨demo_legal, by decide⟩

theorem witness_RingIsFifo : Legal demo ∧ ∃ t, exec .rbInit demo = .next t := ⟨demo_legal, _, rfl⟩

/-- Both orders: the write first on a full ring, and the read first on an empty one, as in V-RB-18 and V-RB-19. -/
theorem witness_RingOpsLinearize :
    (Legal demoFull ∧ demoFull.inited.rb = true ∧
      microRun demoFull.cfg.n 0x55 [true, false, false, false, true] .start .start demoFull.rb =
        (.finished false, .finished (some 0), { wr := 7, rd := 1, data := [(2, 0x4F)] })) ∧
    (Legal demoEmpty ∧ demoEmpty.inited.rb = true ∧
      microRun demoEmpty.cfg.n 0x66 [false, true, true, true, false] .start .start demoEmpty.rb =
        (.finished true, .finished none, { wr := 0, rd := 7, data := [(7, 0x66)] })) :=
  ⟨⟨demoFull_legal, by decide⟩, demoEmpty_legal, by decide⟩

theorem witness_ResetsAndInits :
    demo.cfg.valid = true ∧ demo.producerQuiet = true ∧ demo.inited.dx = true ∧ demo.inited.rb = true ∧
    demo.consumerQuiet = true := by decide

/-- No advance, an advance to `H`, a wraparound to 0. -/
theorem witness_ExtractionWindow :
    window 16 4 4 = [] ∧ window 16 14 16 = [14, 15] ∧ window 16 14 0 = [14, 15] ∧ window 16 14 2 = [14, 15, 0, 1] := by decide

/-- `demo` with two reports that wait, one to `H`. -/
def demoReports : State := demo.setReports [6, 16]

theorem demoReports_legal : Legal demoReports :=
  demo_legal.setReports (l := [6, 16]) (show ∀ p ∈ [6, 16], p ≤ 16 by decide)

/-- No advance; to `H`; back to 0; reports that wait. -/
theorem witness_DxExtractPushesWindow :
    Legal demo ∧ demo.inited.dx = true ∧ demo.inited.rb = true ∧ demo.producer = .quiescent ∧ demo.reports = [] ∧
    (4 ≤ demo.cfg.h ∧ 4 = demo.dx.last) ∧ (16 ≤ demo.cfg.h ∧ 16 ≠ demo.dx.last) ∧ (0 ≤ demo.cfg.h ∧ 0 ≠ demo.dx.last) ∧
    (Legal demoReports ∧ demoReports.producer = .quiescent ∧ demoReports.reports = 6 :: [16]) :=
  ⟨demo_legal, rfl, rfl, rfl, rfl, by decide, by decide, by decide, demoReports_legal, rfl, rfl⟩

/-- An empty ring and a window of exactly `N - 1` bytes. -/
theorem witness_ExtractThenReadRoundTrip :
    Legal demoEmpty ∧ demoEmpty.inited.dx = true ∧ demoEmpty.inited.rb = true ∧ demoEmpty.producerQuiet = true ∧
    11 ≤ demoEmpty.cfg.h ∧ demoEmpty.rb.wr = demoEmpty.rb.rd ∧ (demoEmpty.windowBytes 11).length = demoEmpty.cfg.n - 1 :=
  ⟨demoEmpty_legal, by decide⟩

/-- A free producer, at `dx.last` and at `H`; a report that waits; just above `H`; `H` while an extraction or RB.WRITE_N runs. -/
theorem witness_PositionReportsAndRefusals :
    (demo.cfg.valid = true ∧ demo.inited.dx = true ∧ demo.inited.rb = true) ∧
    (demo.producerQuiet = true ∧ 4 ≤ demo.cfg.h ∧ 4 = demo.dx.last) ∧ (16 ≤ demo.cfg.h ∧ 16 ≠ demo.dx.last) ∧
    (demo.setReports [9]).producerQuiet = false ∧ demo.cfg.h < 17 ∧
    (16 ≤ (demo.setProducer (.extracting 16 [4])).cfg.h ∧
      (demo.setProducer (.extracting 16 [4])).producer = .extracting 16 [4]) ∧
    (demo.setProducer (.writing [1] 0)).producer = .writing [1] 0 := by
  decide

/-- Each phase of the producer, with room and without. -/
theorem witness_ProducerStepEffect :
    demo.inited.dx = true ∧ demo.inited.rb = true ∧
    (Legal ((demo.setProducer (.extracting 6 [4, 5])).setSched [.producer]) ∧ (demo.rb.wr + 1) % demo.cfg.n ≠ demo.rb.rd) ∧
    (Legal ((demoFull.setProducer (.extracting 6 [4, 5])).setSched [.producer]) ∧
      (demoFull.rb.wr + 1) % demoFull.cfg.n = demoFull.rb.rd) ∧
    Legal ((demo.setProducer (.extracting 16 [])).setSched [.producer]) ∧
    Legal ((demo.setReports [4, 16]).setSched [.producer]) ∧ Legal (demo.setSched [.producer]) ∧
    Legal ((demo.setProducer (.writing [1, 2] 3)).setSched [.producer]) ∧
    Legal ((demoFull.setProducer (.writing [1, 2] 3)).setSched [.producer]) ∧
    Legal ((demo.setProducer (.writing [] 3)).setSched [.producer]) := by
  refine ⟨rfl, rfl, ⟨Legal.setSched (demo_legal.setProducer ?_) _, by decide⟩,
    ⟨Legal.setSched (demoFull_legal.setProducer ?_) _, by decide⟩, Legal.setSched (demo_legal.setProducer ?_) _,
    Legal.setSched (demo_legal.setReports ?_) _, demo_legal.setSched _, Legal.setSched (demo_legal.setProducer ?_) _,
    Legal.setSched (demoFull_legal.setProducer ?_) _, Legal.setSched (demo_legal.setProducer ?_) _⟩ <;>
  · simp [ProducerPhase.rangesOk, demoFull, demo, State.reset, State.powerOn, Cfg.cfgT]

/-- DX.EXTRACT(6) reported and started; DX.EXTRACT(2) started behind two reports; RB.WRITE_N of more bytes than fit. -/
theorem witness_ProducerStepsMakeWholeRuns :
    demo.inited.dx = true ∧ demo.inited.rb = true ∧ demo.producer = .quiescent ∧ demo.reports = [] ∧ 6 ≤ demo.cfg.h ∧
    6 ≠ demo.dx.last ∧ (window demo.cfg.h demo.dx.last 6).length = 2 ∧
    Legal (demo.setSched (List.replicate 3 .producer)) ∧
    Legal (demo.setSched (.start .producer (encode demo.cfg (.dxExtract 6)) :: List.replicate 3 .producer)) ∧
    (demoReports.producer = .quiescent ∧ demoReports.reports ≠ [] ∧ 2 ≤ demoReports.cfg.h ∧
      serveSteps demoReports.cfg.h demoReports.dx.last (demoReports.reports ++ [2]) = 20 ∧
      Legal (demoReports.setSched (.start .producer (encode demo.cfg (.dxExtract 2)) :: List.replicate 20 .producer))) ∧
    4 = min ([1, 2, 3, 4, 5] : Bytes).length (demo.cfg.n - 1 - demo.ringContents.length) ∧
    Legal (demo.setSched (.start .producer (.writeN [1, 2, 3, 4, 5]) :: List.replicate 5 .producer)) :=
  ⟨rfl, rfl, rfl, rfl, by decide, by decide, by decide, demo_legal.setSched _, demo_legal.setSched _,
    ⟨rfl, by decide, by decide, by decide, demoReports_legal.setSched _⟩, by decide, demo_legal.setSched _⟩

/-- Each phase of the consumer: blocked and woken; an empty ring and one with bytes; a byte held; inside RB.READ_N. -/
theorem witness_ConsumerStepEffect :
    demo.allInited ∧ (Legal (demo.setSched [.consumer]) ∧ demo.consumer = .waiting ∧ demo.dx.wake = true) ∧
    Legal ((demo.setDx { last := 4, drops := 7, wake := false }).setSched [.consumer]) ∧
    (Legal ((demoEmpty.setConsumer (.draining none)).setSched [.consumer]) ∧ demoEmpty.rb.wr = demoEmpty.rb.rd) ∧
    (Legal ((demo.setConsumer (.draining none)).setSched [.consumer]) ∧ demo.rb.wr ≠ demo.rb.rd) ∧
    Legal ((demo.setConsumer (.draining (some 0x41))).setSched [.consumer]) ∧
    Legal ((demo.setConsumer (.reading 2 [7])).setSched [.consumer]) ∧
    Legal ((demo.setConsumer (.reading 0 [7])).setSched [.consumer]) ∧
    Legal ((demoEmpty.setConsumer (.reading 2 [7])).setSched [.consumer]) :=
  ⟨rfl, ⟨demo_legal.setSched _, rfl, rfl⟩, Legal.setSched (demo_legal.setDx (by decide) (by decide)) _,
    ⟨Legal.setSched (demoEmpty_legal.setConsumer _) _, rfl⟩, ⟨Legal.setSched (demo_legal.setConsumer _) _, by decide⟩,
    Legal.setSched (demo_legal.setConsumer _) _, Legal.setSched (demo_legal.setConsumer _) _,
    Legal.setSched (demo_legal.setConsumer _) _, Legal.setSched (demoEmpty_legal.setConsumer _) _⟩

theorem witness_PdStepCompletesWithFrame : Legal demo ∧ demo.parsersInited := ⟨demo_legal, demo_parsersInited⟩

/-- The edges of the line-start classes (R127). -/
theorem witness_PdLineStartRows :
    Legal demo ∧ demo.parsersInited ∧ demo.pd.state = .idle ∧
    (isLineStart 0x20 = true ∧ isPrintable 0x20 = true) ∧ (isLineStart 0x7E = true ∧ isPrintable 0x7E = true) ∧
    isLineStart 0x0D = true ∧ isLineStart 0x0A = true :=
  ⟨demo_legal, demo_parsersInited, by decide⟩

theorem witness_PdHeaderAndNoiseRows :
    Legal demo ∧ demo.parsersInited ∧ demo.pd.state = .idle ∧ demo.bf.state = .waitHeader ∧
    (isLineStart 0x1F = false ∧ (0x1F : Byte) ≠ demo.cfg.hdr) ∧ (isLineStart 0x7F = false ∧ (0x7F : Byte) ≠ demo.cfg.hdr) :=
  ⟨demo_legal, demo_parsersInited, by decide⟩

theorem witness_PdInFrameRows :
    (Legal ((demoLp 3).setPd .inLineFrame) ∧ ((demoLp 3).setPd .inLineFrame).parsersInited ∧
      ((demoLp 3).setPd .inLineFrame).pd.state = .inLineFrame) ∧
    (Legal ((demoBf .readLen 3 0).setPd .inBinaryFrame) ∧ ((demoBf .readLen 3 0).setPd .inBinaryFrame).parsersInited ∧
      ((demoBf .readLen 3 0).setPd .inBinaryFrame).pd.state = .inBinaryFrame) :=
  ⟨⟨(demoLp_legal (by decide)).setPd _, ⟨rfl, rfl, rfl⟩, rfl⟩, (demoBf_legal _ _ (by decide)).setPd _, ⟨rfl, rfl, rfl⟩, rfl⟩

/-- `WaitHeader` with another byte, and each index of `ReadIds`. -/
theorem witness_BfHeaderAndIdRows :
    (demoBf .waitHeader 0 0).cfg.valid = true ∧ (demoBf .waitHeader 0 0).inited.bf = true ∧
    (demoBf .waitHeader 0 0).bf.state = .waitHeader ∧ (0xA4 : Byte) ≠ (demoBf .waitHeader 0 0).cfg.hdr ∧
    (demoBf .readIds 0 0).bf.state = .readIds ∧ (demoBf .readIds 0 0).bf.idx = 0 ∧ (demoBf .readIds 1 0).bf.idx = 1 ∧
    (demoBf .readIds 2 0).bf.idx = 2 ∧ (demoBf .readIds 3 0).bf.idx = 3 := by decide

/-- `MAXP`, `MAXP - 1` and 1: the edges of the length classes (R144). -/
theorem witness_BfReadLenRows :
    (demoBf .readLen 3 0).cfg.valid = true ∧ (demoBf .readLen 3 0).inited.bf = true ∧
    (demoBf .readLen 3 0).bf.state = .readLen ∧ (demoBf .readLen 3 0).cfg.maxp ≤ (64 : Byte).toNat ∧
    ((63 : Byte).toNat < (demoBf .readLen 3 0).cfg.maxp ∧ (63 : Byte) ≠ 0) ∧
    ((1 : Byte).toNat < (demoBf .readLen 3 0).cfg.maxp ∧ (1 : Byte) ≠ 0) := by decide

/-- Not the last byte, and the last. -/
theorem witness_BfReadPayloadRows :
    (Legal (demoBf .readPayload 3 0) ∧ (demoBf .readPayload 3 0).inited.bf = true ∧
      (demoBf .readPayload 3 0).bf.state = .readPayload ∧
      (demoBf .readPayload 3 0).bf.pcur + 1 < (demoBf .readPayload 3 0).bf.len.toNat) ∧
    (Legal (demoBf .readPayload 3 1) ∧ (demoBf .readPayload 3 1).bf.pcur + 1 = (demoBf .readPayload 3 1).bf.len.toNat) :=
  ⟨⟨demoBf_legal _ _ (by decide), by decide⟩, demoBf_legal _ _ (by decide), by decide⟩

theorem witness_BfReadChecksumRows :
    Legal (demoBf .readChecksum 3 1) ∧ (demoBf .readChecksum 3 1).inited.bf = true ∧
    (demoBf .readChecksum 3 1).bf.state = .readChecksum ∧ (0x67 : Byte) = (demoBf .readChecksum 3 1).bf.csum ∧
    (0x66 : Byte) ≠ (demoBf .readChecksum 3 1).bf.csum :=
  ⟨demoBf_legal _ _ (by decide), by decide⟩

/-- A byte that does not end a frame, a length abort at `MAXP`, a checksum byte. -/
theorem witness_BfStepResultLaw :
    (Legal (demoBf .readIds 0 0) ∧ (demoBf .readIds 0 0).inited.bf = true) ∧
    (Legal (demoBf .readLen 3 0) ∧ (demoBf .readLen 3 0).cfg.maxp ≤ (64 : Byte).toNat) ∧ Legal (demoBf .readChecksum 3 1) :=
  ⟨⟨demoBf_legal _ _ (by decide), rfl⟩, ⟨demoBf_legal _ _ (by decide), by decide⟩, demoBf_legal _ _ (by decide)⟩

/-- An empty line, a line of one byte, the longest line. -/
theorem witness_LpTerminatorRows :
    (Legal (demoLp 0) ∧ (demoLp 0).inited.lp = true ∧ (demoLp 0).lp.cur = 0) ∧
    (Legal (demoLp 1) ∧ 0 < (demoLp 1).lp.cur) ∧ (Legal (demoLp 7) ∧ (demoLp 7).lp.cur = (demoLp 7).cfg.l - 1) :=
  ⟨⟨demoLp_legal (by decide), rfl, rfl⟩, ⟨demoLp_legal (by decide), by decide⟩, demoLp_legal (by decide), by decide⟩

/-- The last cursor with room, and the full buffer. -/
theorem witness_LpByteRows :
    (Legal (demoLp 6) ∧ (demoLp 6).inited.lp = true ∧ (0x00 : Byte) ≠ 0x0D ∧ (0x00 : Byte) ≠ 0x0A ∧
      (demoLp 6).lp.cur < (demoLp 6).cfg.l - 1) ∧
    (Legal (demoLp 7) ∧ (demoLp 7).lp.cur = (demoLp 7).cfg.l - 1) :=
  ⟨⟨demoLp_legal (by decide), by decide⟩, demoLp_legal (by decide), by decide⟩

theorem witness_LpStepResultLaw : Legal (demoLp 7) ∧ (demoLp 7).inited.lp = true := ⟨demoLp_legal (by decide), rfl⟩

/-- With an argument, and without one. -/
theorem witness_TokenizeSplitsAtFirstWhitespace :
    tokenize Cfg.cfgT.isWs ledOn = ([0x4C, 0x45, 0x44], some [0x4F, 0x4E]) ∧
    tokenize Cfg.cfgT.isWs [0x4C] = ([0x4C], none) := by decide

theorem witness_LookupFindsExactName : namesUnique Cfg.cfgT.cmds = true ∧ Cfg.cfgT.cmds[1]? = some [0x48, 0x45, 0x4C, 0x50] := by
  decide

/-- Nothing, `L - 1` bytes, exactly `L`. -/
theorem witness_LineCursorLaw :
    Legal (demoLp 0) ∧ (demoLp 0).inited.lp = true ∧ (demoLp 0).lp.cur = 0 ∧ isTerm 0x0A = true ∧
    (∀ b ∈ ([] : Bytes), isTerm b = false) ∧ (∀ b ∈ List.replicate 7 (0x41 : Byte), isTerm b = false) ∧
    (∀ b ∈ List.replicate 8 (0x41 : Byte), isTerm b = false) :=
  ⟨demoLp_legal (by decide), by decide⟩

theorem witness_WireUnitsAreTheirBytes : Legal demo ∧ demo.parsersInited := ⟨demo_legal, demo_parsersInited⟩

/-- The empty payload and the longest legal one. -/
theorem witness_FrameRoundTrip :
    Legal demo ∧ demo.parsersInited ∧ demo.pd.state = .idle ∧ demo.bf.state = .waitHeader ∧
    ([] : Bytes).length < demo.cfg.maxp ∧ (List.replicate 63 (0xFF : Byte)).length < demo.cfg.maxp :=
  ⟨demo_legal, demo_parsersInited, by decide⟩

/-- The shortest overlong payload and the longest. -/
theorem witness_OverlongFrameIsCutAtLen :
    Legal demo ∧ demo.parsersInited ∧ demo.pd.state = .idle ∧ demo.bf.state = .waitHeader ∧
    demo.cfg.maxp ≤ (List.replicate 64 (0 : Byte)).length ∧ (List.replicate 64 (0 : Byte)).length ≤ 255 ∧
    demo.cfg.maxp ≤ (List.replicate 255 (0 : Byte)).length ∧ (List.replicate 255 (0 : Byte)).length ≤ 255 := by
  refine ⟨demo_legal, demo_parsersInited, rfl, rfl, ?_⟩
  simp only [List.length_replicate]
  decide

theorem witness_LineIsExecutedWhole :
    Legal demo ∧ demo.parsersInited ∧ demo.pd.state = .idle ∧ demo.lp.cur = 0 ∧
    (∀ b ∈ ledOn, isTerm b = false) ∧ isTerm 0x0D = true ∧ ledOn.length ≤ demo.cfg.l - 1 ∧
    (∀ b, ledOn.head? = some b → isPrintable b = true) := by
  refine ⟨demo_legal, demo_parsersInited, rfl, rfl, by decide, by decide, by decide, fun b h => ?_⟩
  cases h; decide

/-- Awake, and blocked. -/
theorem witness_ConsDrainFeedsWholeRing :
    (Legal demo ∧ demo.allInited ∧ demo.consumer = .waiting ∧ demo.dx.wake = true) ∧
    (Legal (demo.setDx { last := 4, drops := 7, wake := false }) ∧
      (demo.setDx { last := 4, drops := 7, wake := false }).dx.wake = false) :=
  ⟨⟨demo_legal, demo_allInited, rfl, rfl⟩, demo_legal.setDx (by decide) (by decide), rfl⟩

/-- Woken by its own step and entered; RB.READ_N of more bytes than there are. -/
theorem witness_ConsumerStepsMakeWholeRuns :
    demo.allInited ∧ demo.consumer = .waiting ∧ demo.dx.wake = true ∧ demo.ringContents.length = 3 ∧
    Legal (demo.setSched (List.replicate 8 .consumer)) ∧
    Legal (demo.setSched (.start .consumer (encode demo.cfg .consDrain) :: List.replicate 7 .consumer)) ∧
    Legal (demo.setSched (.start .consumer (.readN 5) :: List.replicate 4 .consumer)) :=
  ⟨rfl, rfl, rfl, by decide, demo_legal.setSched _, demo_legal.setSched _, demo_legal.setSched _⟩

/-- A window of exactly `N - 1` bytes. -/
theorem witness_ReceivedBytesReachParsers :
    Legal demoEmpty ∧ demoEmpty.allInited ∧ demoEmpty.producerQuiet = true ∧ demoEmpty.consumer = .waiting ∧
    11 ≤ demoEmpty.cfg.h ∧ 11 ≠ demoEmpty.dx.last ∧ demoEmpty.rb.wr = demoEmpty.rb.rd ∧
    (demoEmpty.windowBytes 11).length = demoEmpty.cfg.n - 1 :=
  ⟨demoEmpty_legal, rfl, by decide⟩

theorem witness_SysResetLeavesResetColumn :
    demo.cfg.valid = true ∧ demo.producerQuiet = true ∧ demo.consumerQuiet = true ∧
    [Instr.lpInit, .bfInit, .pdInit, .dxInit, .rbInit].Perm [.rbInit, .dxInit, .pdInit, .bfInit, .lpInit] := by decide

theorem witness_InitialisationsAreIdempotent :
    ∀ i ∈ [Instr.rbInit, .dxInit, .pdInit, .bfInit, .lpInit, .sysReset, .dxReset],
      nextIs (exec i demo) (fun _ => true) = true ∧ nextIs (exec i (demoBf .readLen 3 0)) (fun _ => true) = true := by decide

theorem witness_EventRowsAppendToTrace : demo.cfg.valid = true := by decide

/-- Nothing scheduled; performed; started; a free producer; a consumer at its wait. -/
theorem witness_StepRunsDecodedTransaction :
    (demo.setSched []).sched = [] ∧
    (decode demo.cfg (.port .rbWr 8 0x44) = .ok (.rbWrite 0x44) ∧
      callerCheck .producer (.rbWrite 0x44) (demo.setSched []) = none ∧
      (demo.setSched [.transact .producer (.port .rbWr 8 0x44)]).sched = .transact .producer (.port .rbWr 8 0x44) :: []) ∧
    (decode demo.cfg (.writeN [1]) = .ok (.rbWriteN [1]) ∧ callerCheck .producer (.rbWriteN [1]) (demo.setSched []) = none ∧
      (demo.setSched [.start .producer (.writeN [1])]).sched = .start .producer (.writeN [1]) :: []) ∧
    demo.producerQuiet = true ∧ (demo.setSched [.consumer]).consumer = .waiting ∧
    (demo.setSched [.consumer]).sched = .consumer :: [] := by
  decide

theorem witness_StepRunsStreamByte :
    demo.cfg.valid = true ∧ demo.allInited ∧ demo.cfg = Cfg.cfgT ∧
    ((demo.setConsumer (.draining (some 0x41))).setSched [.consumer]).sched = .consumer :: [] ∧
    ((demo.setConsumer (.draining (some 0x41))).setSched [.consumer]).consumer = .draining (some 0x41) ∧
    decodeTableWord 8 0x0D = some .pdIdleCr :=
  ⟨by decide, demo_allInited, by decide⟩

/-- A store within the premise at its last byte, one beyond it, and one into a range being extracted. -/
theorem witness_EnvironmentSteps :
    (Legal ((demoStored 14).setSched [.receive 0x41]) ∧ (demoStored 14).overruns = false) ∧
    (Legal ((demoStored 15).setSched [.receive 0x41]) ∧ (demoStored 15).overruns = true) ∧
    (Legal (demoOverrun.setSched [.receive 0x41]) ∧ demoOverrun.rx.pos ∈ demoOverrun.beingExtracted ∧
      demoOverrun.producer = .extracting 7 [5, 6]) ∧
    demo.producerQuiet = true ∧ (demo.setSched [.restart]).sched = .restart :: [] :=
  ⟨⟨(demoStored_legal 14).setSched _, by decide⟩, ⟨(demoStored_legal 15).setSched _, by decide⟩,
    ⟨demoOverrun_legal.setSched _, by decide⟩, by decide, rfl⟩

/-- A configuration with `HDR` printable; a sub-block not initialised. -/
theorem witness_UnreadyIsRefused :
    ({ State.reset with cfg := { Cfg.cfgT with hdr := 0x41 } } : State).cfg.valid = false ∧
    State.powerOn.cfg.valid = true ∧ (SubBlock.bf ∈ needs (.pdStep 0) ∧ State.powerOn.inited.has .bf = false) := by decide

theorem witness_UnquietIsRefused :
    demo.cfg.valid = true ∧ demo.inited.dx = true ∧ (demo.setProducer (.extracting 5 [4])).producerQuiet = false ∧
    (demo.setReports [5]).producerQuiet = false ∧ (demo.setProducer (.writing [1] 0)).producerQuiet = false ∧
    demo.producerQuiet = true ∧ (demo.setConsumer (.reading 1 [])).consumerQuiet = false ∧
    (demo.setConsumer (.draining none)).consumerQuiet = false := by decide

theorem witness_ForbiddenCallersAreRefused :
    decode demo.cfg (.port .rbWr 8 0x44) = .ok (.rbWrite 0x44) ∧ decode demo.cfg (.port .rbRd 0 0) = .ok .rbRead ∧
    decode demo.cfg (.event (.frameLenAbort 0x40)) = .ok (.frameLenAbort 0x40) ∧ callers (.frameLenAbort 0x40) = [] ∧
    callers (.rbWrite 0x44) ≠ [] ∧ Agent.consumer ∉ callers (.rbWrite 0x44) ∧
    (demo.setProducer (.extracting 5 [4])).producer ≠ .quiescent ∧ callers (.rbWrite 0x44) = [.producer] ∧
    (demo.setConsumer (.draining none)).consumer ≠ .waiting ∧ callers (.bfStep 0) = [.consumer] ∧
    callers (.lpByteAppend 0) = [.consumer] ∧ callers (.frame 1 2 3 4 [] 0) = [.consumer] ∧
    decode demo.cfg (.port .drain 0 0) = .ok .consDrain := by
  decide

/-- Another state for each row; then, inside the right state, another byte, index, cursor, length or comparison. -/
theorem witness_RowsOutsideTheirCondition :
    demo.cfg.valid = true ∧ demo.parsersInited ∧ (demo.setPd .inLineFrame).pd.state ≠ .idle ∧ demo.pd.state ≠ .inLineFrame ∧
    demo.pd.state ≠ .inBinaryFrame ∧ (demoBf .readLen 3 0).bf.state ≠ .waitHeader ∧ demo.bf.state ≠ .readIds ∧
    demo.bf.state ≠ .readLen ∧ demo.bf.state ≠ .readPayload ∧ demo.bf.state ≠ .readChecksum ∧ isTerm 0x0D = true ∧
    pdClass demo.cfg demo.pd.state 0x7F ≠ .printable ∧ bfRole demo.cfg .waitHeader 0 0 0 0 0xA5 ≠ .other ∧
    bfRole demo.cfg .readIds 1 0 0 0 0x01 ≠ .device ∧ bfRole demo.cfg .readLen 3 0 0 0 63 ≠ .tooLong ∧
    bfRole demo.cfg .readLen 3 0 0 0 64 ≠ .valid ∧ bfRole demo.cfg .readLen 3 0 0 0 0 ≠ .valid ∧
    bfRole demo.cfg .readPayload 3 1 2 0 0 ≠ .payload ∧ bfRole demo.cfg .readPayload 3 0 2 0 0 ≠ .payloadLast ∧
    bfRole demo.cfg .readChecksum 3 2 2 0x67 0x66 ≠ .csumMatch ∧ bfRole demo.cfg .readChecksum 3 2 2 0x67 0x67 ≠ .csumMismatch ∧
    lpRole demo.cfg 7 0x41 ≠ .append ∧ lpRole demo.cfg 6 0x41 ≠ .overflow :=
  ⟨by decide, demo_parsersInited, by decide⟩

theorem witness_EveryStepIsSafe :
    Legal (demo.setSched [.consumer]) ∧ nextIs (step (demo.setSched [.consumer])) (fun t => t.consumer == .draining none) = true :=
  ⟨demo_legal.setSched _, by decide⟩

/-- SYS.RESET; the three INITs; a state of the joint invariant and a PD.STEP from it. -/
theorem witness_DispatcherAndParsersAgree :
    (∃ t, runInstrs [.sysReset] demo = .next t ∧ ∃ u, feed .pdStep [0xA5, 0x01] t = .next u) ∧
    (∃ t, runInstrs [.lpInit, .pdInit, .bfInit] demo = .next t) ∧
    [Instr.lpInit, .pdInit, .bfInit].Perm [.pdInit, .bfInit, .lpInit] ∧ Joint demo ∧
    ∃ t, exec (.pdStep 0xA5) demo = .next t :=
  ⟨⟨_, rfl, _, rfl⟩, ⟨_, rfl⟩, by decide, ⟨⟨rfl, rfl⟩, fun h => by cases h⟩, _, rfl⟩

/-- The step that reads the ring after a wake-up. -/
theorem witness_NoWakeUpIsLost :
    Legal (demo.setSched [.consumer]) ∧ WakeKept (demo.setSched [.consumer]) ∧
    (∃ t, step (demo.setSched [.consumer]) = .next t) ∧
    (demo.setSched [.consumer]).sched = [.consumer] :=
  ⟨demo_legal.setSched _, fun _ _ => Or.inl rfl, ⟨_, rfl⟩, rfl⟩

theorem witness_ConfigurationFixedTraceGrows :
    (∃ t, step (demo.setSched [.consumer]) = .next t) ∧ ∃ t, exec (.bfStep 0) demo = .next t := ⟨⟨_, rfl⟩, _, rfl⟩

theorem witness_DropCounterIsMonotonic :
    Legal (demoFull.setSched [.transact .producer (.port .dxEvt 5 6)]) ∧
    nextIs (step (demoFull.setSched [.transact .producer (.port .dxEvt 5 6)])) (fun t => t.dx.drops == 9) = true ∧
    decode demoFull.cfg (.port .dxEvt 5 6) = .ok (.dxExtract 6) :=
  ⟨demoFull_legal.setSched _, by decide⟩

theorem witness_OwnersAloneWrite :
    (∃ t, exec .rbRead demo = .next t) ∧ callers .rbRead = [.consumer] ∧ (∃ t, exec (.dxExtract 6) demo = .next t) ∧
    callers (.dxExtract 6) = [.producer] :=
  ⟨⟨_, rfl⟩, rfl, ⟨_, rfl⟩, rfl⟩

end Sys2Proof.Tests
end

section
/-! SUPPORT. Outcomes: what a checked operation answers, and the outcomes that keep a property and never fault. -/

namespace Sys2Proof.Machine

/-! ### A checked operation that answers a next state -/

theorem guarded_eq_next {check : Option Refusal} {k : Out} {t : State} :
    guarded check k = .next t ↔ check = none ∧ k = .next t := by
  cases check <;> simp

theorem finish_eq_next {r : Result} {x : Except Fault State} {t : State} :
    finish r x = .next t ↔ ∃ u, x = .ok u ∧ t = u.setResult r := by
  cases x <;> simp [eq_comm]

theorem finishWith_eq_next {α : Type} {g : α → Result} {x : Except Fault (α × State)} {t : State} :
    finishWith g x = .next t ↔ ∃ a u, x = .ok (a, u) ∧ t = u.setResult (g a) := by
  rcases x with f | ⟨a, u⟩
  · simp
  · simp [eq_comm]

/-- A checked operation that cannot fault, once it answers a next state. -/
theorem eq_of_guarded_finish {check : Option Refusal} {r : Result} {u t : State}
    (h : guarded check (finish r (.ok u)) = .next t) : t = u.setResult r := by
  obtain ⟨v, hv, rfl⟩ := finish_eq_next.1 (guarded_eq_next.1 h).2
  cases hv
  rfl

/-- The row check passes only where the row applies (log 12). -/
theorem applies_of_or_needRow {check : Option Refusal} {applies : Bool} (h : check.or (needRow applies) = none) :
    applies = true := by
  cases applies
  · simp [needRow] at h
  · rfl

/-! ### Outcomes that keep a property -/

/-- The outcome is no fault, and the next state, if there is one, has the property. -/
def Ensures (P : State → Prop) : Out → Prop
  | .next t => P t
  | .fault _ => False
  | .refused _ => True

theorem ensures_iff {P : State → Prop} {o : Out} :
    Ensures P o ↔ (∀ f, o ≠ .fault f) ∧ ∀ t, o = .next t → P t := by
  cases o <;> simp [Ensures]

/-- A check in front: what runs may rely on its having passed. -/
theorem Ensures.guarded {P : State → Prop} {check : Option Refusal} {k : Out} (h : check = none → Ensures P k) :
    Ensures P (guarded check k) := by
  cases check with
  | none => exact h rfl
  | some r => trivial

/-- An operation that completes in a legal state ends legally: the result shown is no part of the invariant. -/
theorem ensures_legal_finish {r : Result} {x : Except Fault State} (h : ∃ t, x = .ok t ∧ Legal t) :
    Ensures Legal (finish r x) := by
  obtain ⟨t, rfl, ht⟩ := h
  exact ht.setResult r

theorem ensures_legal_finishWith {α : Type} {g : α → Result} {x : Except Fault (α × State)}
    (h : ∃ a t, x = .ok (a, t) ∧ Legal t) : Ensures Legal (finishWith g x) := by
  obtain ⟨a, t, rfl, ht⟩ := h
  exact ht.setResult (g a)

end Sys2Proof.Machine
end

section
/-! SUPPORT. Every operation keeps the invariant `Legal`: the initialisations and resets, the agents' own steps, the rows,
and the step. -/

namespace Sys2Proof.Machine

/-! ### What the INITs and resets write (R90, R100, R105, R120, R140, R160, R182) -/

theorem Legal.n_pos {s : State} (h : Legal s) : 0 < s.cfg.n := Nat.zero_lt_of_lt h.wr_lt

theorem Legal.h_pos {s : State} (h : Legal s) : 0 < s.cfg.h := Nat.zero_lt_of_lt h.last_lt

theorem Legal.l_pos {s : State} (h : Legal s) : 0 < s.cfg.l := Nat.zero_lt_of_lt h.cur_lt

theorem Legal.ringInit {s : State} (h : Legal s) : Legal (ringInit s) :=
  Legal.setInited (h.setRb (r := { s.rb with wr := 0, rd := 0 }) h.n_pos h.n_pos h.rb_wf h.rb_within) _

theorem Legal.extractorInit {s : State} (h : Legal s) : Legal (extractorInit s) :=
  Legal.setInited ((h.positionSeen 0).setDx h.h_pos (Nat.two_pow_pos _)) _

theorem Legal.extractorReset {s : State} (h : Legal s) : Legal (extractorReset s) :=
  Legal.setDx (h.positionSeen 0) h.h_pos h.drops_lt

theorem Legal.receiverRestart {s : State} (h : Legal s) : Legal (receiverRestart s) :=
  h.setRx h.h_pos h.hwbuf_wf h.hwbuf_within

theorem Legal.dispatcherInit {s : State} (h : Legal s) : Legal (dispatcherInit s) :=
  (h.setPd _).setInited _

theorem Legal.frameInit {s : State} (h : Legal s) : Legal (frameInit s) :=
  Legal.setInited
    (h.setBf (p := { s.bf with state := .waitHeader, idx := 0 }) h.pcur_lt trivial h.payload_wf h.payload_within) _

theorem Legal.lineInit {s : State} (h : Legal s) : Legal (lineInit s) :=
  Legal.setInited (h.setLp (p := { s.lp with cur := 0 }) h.l_pos h.line_wf h.line_within) _

/-! ### Position events and the extractor (R101, R109) -/

theorem needPosition_eq_none {p : Nat} {s : State} : needPosition p s = none ↔ p ≤ s.cfg.h := by
  unfold needPosition
  split <;> simp [*]

theorem extractCheck_position {p : Nat} {s : State} (h : extractCheck p s = none) : p ≤ s.cfg.h := by
  simp only [extractCheck, Option.or_eq_none_iff] at h
  obtain ⟨⟨-, hp⟩, -⟩ := h
  exact needPosition_eq_none.1 hp

theorem Legal.reportPosition {s : State} (h : Legal s) {p : Nat} (hp : p ≤ s.cfg.h) : Legal (reportPosition p s) := by
  unfold Sys2Proof.Machine.reportPosition
  split
  · exact h.extractBegin hp
  · refine h.setReports fun q hq => ?_
    rcases List.mem_append.1 hq with hq | hq
    · exact h.reports_le q hq
    · rwa [List.mem_singleton.1 hq]

/-- DX.EXTRACT(p) behind the waiting reports completes (R101, R109). -/
theorem extractAll_reports_legal {s : State} (h : Legal s) {p : Nat} (hp : p ≤ s.cfg.h) :
    ∃ t, extractAll (s.reports ++ [p]) ((positionSeen p s).setReports []) = .ok t ∧ Legal t := by
  have hseen : Legal ((positionSeen p s).setReports []) := (h.positionSeen p).setReports (by simp)
  obtain ⟨t, ht, hlegal, -⟩ := extractAll_spec hseen (l := s.reports ++ [p]) fun q hq => by
    rcases List.mem_append.1 hq with hq | hq
    · exact h.reports_le q hq
    · rwa [List.mem_singleton.1 hq]
  exact ⟨t, ht, hlegal⟩

/-- A step inside an extraction completes (R101, R106): the phase holds legal indices only. -/
theorem extractStep_legal {s : State} (h : Legal s) {p : Nat} {todo : List Nat}
    (hphase : s.producer = .extracting p todo) : ∃ t, extractStep p todo s = .ok t ∧ Legal t := by
  have hrange := h.producer_ranges
  rw [hphase] at hrange
  obtain ⟨hp, htodo⟩ := hrange
  cases todo with
  | nil => exact ⟨_, rfl, (h.extractEnd hp).setProducer trivial⟩
  | cons i rest =>
    obtain ⟨t, ht, hlegal, hframe, -⟩ := pushIndex_spec h (htodo i (by simp))
    have hcfg : t.cfg = s.cfg := by rw [hframe]
    refine ⟨t.setProducer (.extracting p rest), by simp [extractStep, ht, Except.map], hlegal.setProducer ?_⟩
    rw [hcfg]
    exact ⟨hp, fun j hj => htodo j (by simp [hj])⟩

theorem serveReport_safe {s : State} (h : Legal s) : Ensures Legal (serveReport s) := by
  unfold serveReport
  split
  next p rest hreports =>
    have hle := h.reports_le
    rw [hreports] at hle
    have hrest : Legal (s.setReports rest) := h.setReports fun q hq => hle q (by simp [hq])
    exact ensures_legal_finish ⟨_, rfl, hrest.extractBegin (hle p (by simp))⟩
  next => exact h

theorem producerStep_safe {s : State} (h : Legal s) : Ensures Legal (producerStep s) := by
  unfold producerStep
  split
  next p todo hphase => exact .guarded fun _ => ensures_legal_finish (extractStep_legal h hphase)
  next => exact .guarded fun _ => serveReport_safe h
  next todo k _ => exact .guarded fun _ => ensures_legal_finishWith (writeNStep_legal h todo k)

/-! ### The parsers' and the dispatcher's rows (R128, R141, R163) -/

theorem dispatchStep_legal {s : State} (h : Legal s) (b : Byte) : ∃ t, dispatchStep b s = .ok t ∧ Legal t := by
  obtain ⟨t, -, ht, -, -, hlegal, -⟩ := dispatchStep_spec h b
  exact ⟨t, ht, hlegal⟩

theorem dispatchAll_legal {s : State} (h : Legal s) (bs : Bytes) : ∃ t, dispatchAll bs s = .ok t ∧ Legal t := by
  obtain ⟨t, -, ht, -, hlegal⟩ := dispatchAll_spec h bs
  exact ⟨t, ht, hlegal⟩

theorem frameStep_legal {s : State} (h : Legal s) (b : Byte) : ∃ d t, frameStep b s = .ok (d, t) ∧ Legal t := by
  obtain ⟨t, -, ht, -, hlegal, -⟩ := frameStep_spec h b
  exact ⟨_, t, ht, hlegal⟩

theorem lineStep_legal {s : State} (h : Legal s) (b : Byte) : ∃ d t, lineStep b s = .ok (d, t) ∧ Legal t := by
  obtain ⟨t, -, ht, -, -, hlegal, -⟩ := lineStep_spec h b
  exact ⟨_, t, ht, hlegal⟩

/-- A dispatcher row that applies is PD.STEP. -/
theorem pdRow_safe {s : State} (h : Legal s) (r : PdClass) (b : Byte) : Ensures Legal (pdRow r b s) := by
  refine .guarded fun hcheck => ensures_legal_finish ?_
  have hclass : pdClassAt s b = r := by simpa using applies_of_or_needRow hcheck
  rw [← hclass]
  exact dispatchStep_legal h b

/-- A frame-parser row that applies is BF.STEP. -/
theorem bfRow_safe {s : State} (h : Legal s) (r : BfRole) (b : Byte) : Ensures Legal (bfRow r b s) := by
  refine .guarded fun hcheck => ensures_legal_finishWith ?_
  have hrole : bfRoleAt s b = r := by simpa using applies_of_or_needRow hcheck
  rw [← hrole]
  exact frameStep_legal h b

/-- A line-parser row that applies is LP.STEP. -/
theorem lpRow_safe {s : State} (h : Legal s) (r : LpRole) (b : Byte) : Ensures Legal (lpRow r b s) := by
  refine .guarded fun hcheck => ensures_legal_finishWith ?_
  have hrole : lpRoleAt s b = r := by simpa using applies_of_or_needRow hcheck
  rw [← hrole]
  exact lineStep_legal h b

theorem emitRow_safe {s : State} (h : Legal s) (e : Event) : Ensures Legal (emitRow e s) :=
  .guarded fun _ => ensures_legal_finish ⟨_, rfl, h.emit e⟩

/-! ### The consumer's loop (R180) -/

theorem Legal.wakeUp {s : State} (h : Legal s) : Legal (wakeUp s) :=
  Legal.setConsumer (h.setDx (x := { s.dx with wake := false }) h.last_lt h.drops_lt) _

theorem wakeStep_safe {s : State} (h : Legal s) : Ensures Legal (wakeStep s) := by
  unfold wakeStep
  split
  · exact ensures_legal_finish ⟨_, rfl, h.wakeUp⟩
  · exact h

/-- `N` reads empty the ring, which holds at most `N - 1` bytes (R24), and keep the invariant. -/
theorem drainLoop_legal {s : State} (h : Legal s) : ∃ t, drainLoop s.cfg.n s = .ok t ∧ Legal t := by
  have hlen : s.ringContents.length < s.cfg.n := by
    rw [State.length_ringContents]
    exact occupancy_lt h.wr_lt h.rd_lt
  obtain ⟨t, ht, hdrain⟩ := drainLoop_spec h hlen
  obtain ⟨u, es, hu, hframe, hlegal⟩ := dispatchAll_spec h s.ringContents
  obtain rfl : t = u := by simpa [ht] using hu
  refine ⟨_, hdrain, (hlegal.setRb (r := { s.rb with rd := s.rb.wr }) ?_ ?_ h.rb_wf ?_).setConsumer .waiting⟩ <;>
    rw [hframe]
  · exact h.wr_lt
  · exact h.wr_lt
  · exact h.rb_within

theorem drainRead_legal {s : State} (h : Legal s) : ∃ t, drainRead s = .ok t ∧ Legal t := by
  rcases ringRead_cases h with ⟨-, hread⟩ | ⟨-, hread⟩
  · exact ⟨_, by rw [drainRead, hread], h.setConsumer _⟩
  · exact ⟨_, by rw [drainRead, hread], h.released.setConsumer _⟩

theorem execConsDrain_safe {s : State} (h : Legal s) : Ensures Legal (execConsDrain s) := by
  refine .guarded fun _ => ?_
  split
  · exact ensures_legal_finish (drainLoop_legal h.wakeUp)
  · exact h

/-! ### The rows -/

/-- Every row from a legal state gives a legal state or is refused. -/
theorem exec_safe {s : State} (h : Legal s) (i : Instr) : Ensures Legal (exec i s) := by
  cases i with
  | rbInit => exact .guarded fun _ => ensures_legal_finish ⟨_, rfl, h.ringInit⟩
  | dxInit => exact .guarded fun _ => ensures_legal_finish ⟨_, rfl, h.extractorInit⟩
  | dxReset => exact .guarded fun _ => ensures_legal_finish ⟨_, rfl, h.extractorReset⟩
  | pdInit => exact .guarded fun _ => ensures_legal_finish ⟨_, rfl, h.dispatcherInit⟩
  | bfInit => exact .guarded fun _ => ensures_legal_finish ⟨_, rfl, h.frameInit⟩
  | lpInit => exact .guarded fun _ => ensures_legal_finish ⟨_, rfl, h.lineInit⟩
  | sysReset =>
    exact .guarded fun _ => ensures_legal_finish
      ⟨_, rfl, h.ringInit.extractorInit.dispatcherInit.frameInit.lineInit⟩
  | sysRxReinit => exact .guarded fun _ => ensures_legal_finish ⟨_, rfl, h.receiverRestart.extractorReset⟩
  | rbWrite b =>
    obtain ⟨t, ok, ht, hlegal, -⟩ := ringWrite_contents h b
    exact .guarded fun _ => ensures_legal_finishWith ⟨ok, t, ht, hlegal⟩
  | rbRead =>
    obtain ⟨t, ht, hlegal, -⟩ := ringRead_contents h
    exact .guarded fun _ => ensures_legal_finishWith ⟨_, t, ht, hlegal⟩
  | rbIsEmpty => exact .guarded fun _ => ensures_legal_finish ⟨s, rfl, h⟩
  | rbWriteN bs =>
    obtain ⟨t, k, ht, hlegal, -⟩ := ringWriteN_contents h bs
    exact .guarded fun _ => ensures_legal_finishWith ⟨k, t, ht, hlegal⟩
  | rbReadN n =>
    obtain ⟨t, ht, hlegal, -⟩ := ringReadN_contents h n
    exact .guarded fun _ => ensures_legal_finishWith ⟨_, t, ht, hlegal⟩
  | dxExtract p =>
    exact .guarded fun hcheck => ensures_legal_finish (extractAll_reports_legal h (extractCheck_position hcheck))
  | positionReport p =>
    refine .guarded fun hcheck => ensures_legal_finish ⟨_, rfl, (h.positionSeen p).reportPosition ?_⟩
    exact needPosition_eq_none.1 (Option.or_eq_none_iff.1 hcheck).2
  | consDrain => exact execConsDrain_safe h
  | pdStep b => exact .guarded fun _ => ensures_legal_finish (dispatchStep_legal h b)
  | bfStep b => exact .guarded fun _ => ensures_legal_finishWith (frameStep_legal h b)
  | lpStep b => exact .guarded fun _ => ensures_legal_finishWith (lineStep_legal h b)
  | pdIdlePrintable | pdIdleCr | pdIdleLf | pdIdleHeader | pdIdleNoise | pdInLine | pdInBin => exact pdRow_safe h _ _
  | bfWaitHeaderHdr | bfWaitHeaderOther | bfReadIdsDevice | bfReadIdsSystem | bfReadIdsMsg | bfReadIdsSeq
  | bfReadLenTooLong | bfReadLenZero | bfReadLenValid | bfReadPayloadByte | bfReadPayloadLast
  | bfReadChecksumMatch | bfReadChecksumMismatch => exact bfRow_safe h _ _
  | lpTermCr | lpTermLf | lpByteAppend | lpByteOverflow => exact lpRow_safe h _ _
  | frame | line => exact .guarded fun _ => ensures_legal_finish (dispatchAll_legal h _)
  | frameOk | frameLenAbort | frameCsumFail | lineCmd | lineUnknown => exact emitRow_safe h _

/-! ### The items of the schedule -/

/-- Entering an instruction (R94, R106, R180): four rows begin a phase, every other one runs. -/
theorem enter_safe {s : State} (h : Legal s) (i : Instr) : Ensures Legal (enter i s) := by
  unfold enter
  split
  next bs => exact .guarded fun _ => ensures_legal_finish ⟨_, rfl, h.setProducer trivial⟩
  next n => exact .guarded fun _ => ensures_legal_finish ⟨_, rfl, h.setConsumer _⟩
  next p =>
    exact .guarded fun hcheck => ensures_legal_finish
      ⟨_, rfl, (h.positionSeen p).reportPosition (extractCheck_position hcheck)⟩
  next => exact .guarded fun _ => wakeStep_safe h
  next => exact exec_safe h _

theorem transactStep_safe {s : State} (h : Legal s) (who : Agent) (code : Code) :
    Ensures Legal (transactStep who code s) := by
  unfold transactStep
  split
  · trivial
  · exact .guarded fun _ => exec_safe h _

theorem startStep_safe {s : State} (h : Legal s) (who : Agent) (code : Code) :
    Ensures Legal (startStep who code s) := by
  unfold startStep
  split
  · trivial
  · exact .guarded fun _ => enter_safe h _

theorem consumerStep_safe {s : State} (h : Legal s) : Ensures Legal (consumerStep s) := by
  unfold consumerStep
  split
  next => exact .guarded fun _ => wakeStep_safe h
  next => exact .guarded fun _ => ensures_legal_finish (drainRead_legal h)
  next b _ => exact .guarded fun _ => exec_safe (h.setConsumer _) _
  next left got _ => exact .guarded fun _ => ensures_legal_finishWith (readNStep_legal h left got)

theorem receiveStep_safe {s : State} (h : Legal s) (b : Byte) : Ensures Legal (receiveStep b s) := by
  obtain ⟨t, ht, hlegal, -⟩ := environmentStore_spec h b
  exact .guarded fun _ => ensures_legal_finish ⟨t, ht, hlegal⟩

theorem restartStep_safe {s : State} (h : Legal s) : Ensures Legal (restartStep s) :=
  .guarded fun _ => ensures_legal_finish ⟨_, rfl, h.receiverRestart⟩

theorem perform_safe {s : State} (h : Legal s) (a : Act) : Ensures Legal (perform a s) := by
  cases a with
  | transact who code => exact transactStep_safe h who code
  | start who code => exact startStep_safe h who code
  | producer => exact producerStep_safe h
  | consumer => exact consumerStep_safe h
  | receive b => exact receiveStep_safe h b
  | restart => exact restartStep_safe h

theorem step_safe {s : State} (h : Legal s) : Ensures Legal (step s) := by
  unfold step
  split
  · exact h
  · exact perform_safe (h.setSched _) _

/-- Settles O55: every item of the schedule ends in a legal state or is refused, by what its agent does. -/
theorem everyStepIsSafe : Obligations.EveryStepIsSafe :=
  fun _ h => ensures_iff.1 (step_safe h)

end Sys2Proof.Machine
end

section
/-! SUPPORT. The states at power-on and after reset, and the environment's own steps. -/

namespace Sys2Proof.Machine

/-! ### Power-on and reset (R42, R230) -/

theorem legal_powerOn : Legal State.powerOn where
  cfg_valid := by decide
  wr_lt := by decide
  rd_lt := by decide
  rb_wf := rfl
  rb_within := rfl
  last_lt := by decide
  drops_lt := by decide
  pcur_lt := by decide
  bf_ranges := trivial
  payload_wf := rfl
  payload_within := rfl
  cur_lt := by decide
  line_wf := rfl
  line_within := rfl
  pos_lt := by decide
  hwbuf_wf := rfl
  hwbuf_within := rfl
  producer_ranges := trivial
  reports_le := by simp [State.powerOn]

/-- Reset differs from power-on by the `inited` flags, which the invariant does not read. -/
theorem legal_reset : Legal State.reset := legal_powerOn.setInited _

theorem joint_reset : Joint State.reset := ⟨⟨rfl, rfl⟩, nofun⟩

/-- Settles O54: reset is power-on with the flags set, and SYS.RESET leads from one to the other. -/
theorem resetMeetsInvariant : Obligations.ResetMeetsInvariant :=
  ⟨legal_reset, rfl, joint_reset, legal_powerOn, rfl⟩

/-! ### The environment's store and restart (R40, R62, R235, R237) -/

/-- The operations of the environment need an admitted configuration and nothing initialised. -/
theorem ready_nil {s : State} (h : Legal s) : ready [] s = none := ready_eq_none.2 ⟨h.cfg_valid, by simp⟩

/-- A received byte from a legal state is stored: no check and no bound stops it (R62). -/
theorem receiveStep_eq {s : State} (h : Legal s) (b : Byte) :
    receiveStep b s = .next { s with
      rx := { hwbuf := s.rx.hwbuf.write s.rx.pos (if s.overruns then Config.freeByte s.draws else b),
              pos := (s.rx.pos + 1) % s.cfg.h, unreported := s.rx.unreported + 1 },
      draws := if s.overruns then s.draws + 1 else s.draws, result := .none } := by
  simp only [receiveStep, ready_nil h, guarded_none, environmentStore, memWrite_ok h.pos_lt, finish_ok]
  rfl

/-- A restart from a legal state (R235). -/
theorem restartStep_eq {s : State} (h : Legal s) :
    restartStep s = .next { s with rx := { s.rx with pos := 0, unreported := 0 }, result := .none } := by
  simp only [restartStep, ready_nil h, guarded_none, finish_ok]
  rfl

/-- The two ways in which a store breaks the premise of R237 (log 7). -/
theorem overruns_iff (s : State) :
    s.overruns = true ↔ s.rx.pos ∈ s.beingExtracted ∨
      (s.cfg.h ≤ s.rx.unreported + 1 ∧
        ¬ (s.rx.unreported + 1 = s.cfg.h ∧ s.lastReported = 0 ∧ s.rx.pos + 1 = s.cfg.h)) := by
  simp [State.overruns, imp_iff_not_or, or_assoc]

/-- The running extraction's whole window is being extracted (R237). -/
theorem mem_beingExtracted_of_mem_window {s : State} {p : Nat} {todo : List Nat} (hphase : s.producer = .extracting p todo)
    {i : Nat} (hi : i ∈ window s.cfg.h s.dx.last p) : i ∈ s.beingExtracted := by
  have hserved : s.served = p :: s.reports := by simp [State.served, hphase]
  rw [State.beingExtracted, hserved]
  exact List.mem_append_left _ hi

/-- Settles O49: the store and the restart in closed form, and what the ranges being extracted hold. -/
theorem environmentSteps : Obligations.EnvironmentSteps := by
  intro s rest h
  have hrest : Legal (s.setSched rest) := h.setSched rest
  refine ⟨fun b hsched => ⟨_, ?_, Memory.read_write h.hwbuf_wf _ _⟩, overruns_iff s,
    fun p todo hphase i hi => mem_beingExtracted_of_mem_window hphase hi, State.beingExtracted_quiet, fun hsched => ?_⟩
  · simp only [step, hsched, perform, receiveStep_eq hrest]
    rfl
  · simp only [step, hsched, perform, restartStep_eq hrest]
    rfl

end Sys2Proof.Machine
end

section
/-! SUPPORT. What the parsers and the dispatcher write, from any state, legal or not; and that PD.STEP keeps them in
agreement (R43). -/

namespace Sys2Proof.Machine

theorem except_map_eq_ok {α β : Type} {f : α → β} {x : Except Fault α} {y : β} :
    x.map f = .ok y ↔ ∃ a, x = .ok a ∧ f a = y := by
  cases x <;> simp [Except.map]

/-! ### The line parser (R161 to R163) -/

theorem lineTerminate_frame {s t : State} (h : lineTerminate s = .ok t) :
    ∃ es, es.length ≤ 1 ∧ t = { s with lp := t.lp, trace := s.trace ++ es } ∧ t.lp.cur = 0 := by
  unfold lineTerminate at h
  split at h
  · cases h
    exact ⟨[], by simp, by simp [State.setLp], rfl⟩
  · split at h
    · cases h
    · split at h
      · cases h
      · cases h
        exact ⟨[_], by simp, rfl, rfl⟩

theorem lineAppend_frame {s t : State} {b : Byte} (h : lineAppend b s = .ok t) : t = { s with lp := t.lp } := by
  unfold lineAppend at h
  split at h
  · cases h
  · cases h
    rfl

/-- A line-parser row writes the parser and at most one event; a completed line leaves it empty. -/
theorem lpAct_frame {r : LpRole} {s t : State} {b : Byte} {d : Bool} (h : lpAct r b s = .ok (d, t)) :
    ∃ es, es.length ≤ 1 ∧ t = { s with lp := t.lp, trace := s.trace ++ es } ∧ (d = true → t.lp.cur = 0) := by
  cases r with
  | cr | lf =>
    obtain ⟨u, hu, heq⟩ := except_map_eq_ok.1 h
    cases heq
    obtain ⟨es, hes, hframe, hcur⟩ := lineTerminate_frame hu
    exact ⟨es, hes, hframe, fun _ => hcur⟩
  | append =>
    obtain ⟨u, hu, heq⟩ := except_map_eq_ok.1 h
    cases heq
    exact ⟨[], by simp, by simpa using lineAppend_frame hu, nofun⟩
  | overflow =>
    cases h
    exact ⟨[], by simp, by simp [State.setLp], nofun⟩

/-! ### The frame parser (R142 to R146) -/

theorem payloadStore_frame {st : BfState} {s t : State} {b : Byte} {d : Bool} (h : payloadStore st b s = .ok (d, t)) :
    t = { s with bf := t.bf } ∧ d = false ∧ t.bf.state = st := by
  unfold payloadStore at h
  split at h
  · cases h
  · cases h
    exact ⟨rfl, rfl, rfl⟩

theorem frameDeliver_frame {s t : State} {d : Bool} (h : frameDeliver s = .ok (d, t)) :
    ∃ e, t = { s with bf := t.bf, trace := s.trace ++ [e] } ∧ d = true ∧ t.bf.state = .waitHeader := by
  unfold frameDeliver at h
  split at h
  · cases h
  · cases h
    exact ⟨_, rfl, rfl, rfl⟩

/-- A frame-parser row writes the parser and at most one event. -/
theorem bfAct_frame {r : BfRole} {s t : State} {b : Byte} {d : Bool} (h : bfAct r b s = .ok (d, t)) :
    ∃ es, es.length ≤ 1 ∧ t = { s with bf := t.bf, trace := s.trace ++ es } := by
  cases r with
  | payload | payloadLast => exact ⟨[], by simp, by simpa using (payloadStore_frame h).1⟩
  | csumMatch =>
    obtain ⟨e, hframe, -⟩ := frameDeliver_frame h
    exact ⟨[e], Nat.le_refl 1, hframe⟩
  | tooLong | csumMismatch =>
    cases h
    exact ⟨[_], by simp, rfl⟩
  | header | other | device | system | msg | seq | zero | valid =>
    cases h
    exact ⟨[], by simp, by simp [State.setBf]⟩

/-- Inside a frame, or at its header, BF.STEP is done exactly when it waits for a header again (R141). -/
theorem frameStep_done_iff {s t : State} {b : Byte} {d : Bool} (h : frameStep b s = .ok (d, t))
    (hin : s.bf.state ≠ .waitHeader ∨ b = s.cfg.hdr) : d = true ↔ t.bf.state = .waitHeader := by
  unfold frameStep bfRoleAt bfRole at h
  cases hst : s.bf.state with
  | waitHeader =>
    have hb : b = s.cfg.hdr := hin.resolve_left (absurd hst)
    rw [hst] at h
    simp only [hb, if_true] at h
    cases h
    simp
  | readIds =>
    rw [hst] at h
    rcases idRole_cases s.bf.idx with hi | hi | hi | hi <;>
    · simp only [hi] at h
      cases h
      simp [hst]
  | readLen =>
    rw [hst] at h
    simp only at h
    split at h
    · cases h
      simp
    · split at h <;>
      · cases h
        simp
  | readPayload =>
    rw [hst] at h
    simp only at h
    split at h <;>
    · obtain ⟨-, hd, hstate⟩ := payloadStore_frame h
      simp [hd, hstate]
  | readChecksum =>
    rw [hst] at h
    simp only at h
    split at h
    · obtain ⟨e, -, hd, hstate⟩ := frameDeliver_frame h
      simp [hd, hstate]
    · cases h
      simp

/-! ### The dispatcher (R121 to R128) -/

theorem backToIdle_eq_ok {x : Except Fault (Bool × State)} {t : State} :
    backToIdle x = .ok t ↔ ∃ d u, x = .ok (d, u) ∧ t = if d then u.setPd .idle else u := by
  rcases x with f | ⟨d, u⟩
  · simp [backToIdle]
  · simp [backToIdle_ok, eq_comm]

theorem Joint.setResult {s : State} (hj : Joint s) (r : Result) : Joint (s.setResult r) := hj

/-- A byte given to the line parser inside a line (R121, R124). -/
theorem joint_of_lineStep {s t : State} {b : Byte} (hpd : s.pd.state = .inLineFrame) (hbf : s.bf.state = .waitHeader)
    (h : backToIdle (lineStep b s) = .ok t) : Joint t := by
  obtain ⟨d, u, hstep, rfl⟩ := backToIdle_eq_ok.1 h
  obtain ⟨es, -, hframe, hcur⟩ := lpAct_frame hstep
  have hpd' : u.pd.state = .inLineFrame := by rw [hframe]; exact hpd
  have hbf' : u.bf.state = .waitHeader := by rw [hframe]; exact hbf
  cases d with
  | true => simp [Joint, Agree, hbf', hcur rfl]
  | false => simp [Joint, Agree, hpd', hbf']

/-- A byte given to the frame parser inside a frame or at its header, with no line begun (R122, R125). -/
theorem joint_of_frameStep {s t : State} {b : Byte} (hpd : s.pd.state = .inBinaryFrame) (hcur : s.lp.cur = 0)
    (hin : s.bf.state ≠ .waitHeader ∨ b = s.cfg.hdr) (h : backToIdle (frameStep b s) = .ok t) : Joint t := by
  obtain ⟨d, u, hstep, rfl⟩ := backToIdle_eq_ok.1 h
  have hdone := frameStep_done_iff hstep hin
  obtain ⟨es, -, hframe⟩ := bfAct_frame hstep
  have hpd' : u.pd.state = .inBinaryFrame := by rw [hframe]; exact hpd
  have hcur' : u.lp.cur = 0 := by rw [hframe]; exact hcur
  cases d with
  | true => simp [Joint, Agree, hdone.1 rfl, hcur']
  | false =>
    have hstate : u.bf.state ≠ .waitHeader := fun hw => by simpa using hdone.2 hw
    simp [Joint, Agree, hpd', hcur', hstate]

/-- PD.STEP keeps dispatcher and parsers in agreement (R43), whatever the byte. -/
theorem dispatchStep_joint {s t : State} {b : Byte} (hj : Joint s) (h : dispatchStep b s = .ok t) : Joint t := by
  obtain ⟨hagree, hline⟩ := hj
  unfold Agree at hagree
  unfold dispatchStep pdClassAt at h
  cases hst : s.pd.state with
  | idle =>
    rw [hst] at hagree h
    obtain ⟨hbf, hcur⟩ := hagree
    rcases pdClass_idle s.cfg b with ⟨-, hc⟩ | ⟨-, hc⟩ | ⟨-, hc⟩ | ⟨-, hb, hc⟩ | ⟨-, -, hc⟩ <;> rw [hc] at h
    · exact joint_of_lineStep (s := s.setPd .inLineFrame) rfl hbf h
    · exact joint_of_lineStep (s := s.setPd .inLineFrame) rfl hbf h
    · exact joint_of_lineStep (s := s.setPd .inLineFrame) rfl hbf h
    · exact joint_of_frameStep (s := s.setPd .inBinaryFrame) rfl hcur (.inr hb) h
    · cases h
      simp [Joint, Agree, hst, hbf, hcur]
  | inLineFrame =>
    rw [hst] at hagree h
    exact joint_of_lineStep hst hagree h
  | inBinaryFrame =>
    rw [hst] at hagree h
    exact joint_of_frameStep hst (hline hst) (.inl hagree) h

theorem execPdStep_joint {s t : State} {b : Byte} (hj : Joint s) (h : exec (.pdStep b) s = .next t) : Joint t := by
  obtain ⟨-, hfin⟩ := guarded_eq_next.1 h
  obtain ⟨u, hu, rfl⟩ := finish_eq_next.1 hfin
  exact (dispatchStep_joint hj hu).setResult _

theorem feed_pdStep_joint {s t : State} {bs : Bytes} (hj : Joint s) (h : feed .pdStep bs s = .next t) : Joint t := by
  induction bs generalizing s with
  | nil => cases h; exact hj
  | cons b rest ih =>
    unfold feed at h
    split at h
    next u hu => exact ih (execPdStep_joint hj hu) h
    · cases h
    · cases h

/-! ### Joint initialisation (R120, R140, R160, R181) -/

/-- The state SYS.RESET and the three INITs together leave: everything idle. -/
theorem joint_of_idle {s : State} (hpd : s.pd.state = .idle) (hbf : s.bf.state = .waitHeader) (hcur : s.lp.cur = 0) :
    Joint s := by
  simp [Joint, Agree, hpd, hbf, hcur]

theorem runInstrs_cons {i : Instr} {l : List Instr} {s t : State} (h : runInstrs (i :: l) s = .next t) :
    ∃ u, exec i s = .next u ∧ runInstrs l u = .next t := by
  unfold runInstrs at h
  split at h
  next u hu => exact ⟨u, hu, h⟩
  · cases h
  · cases h

/-- In a run of the three INITs, what one of them sets stays set, in whatever order they come. -/
theorem runInstrs_inits {l : List Instr} {s t : State} (hl : ∀ i ∈ l, i ∈ [Instr.pdInit, .bfInit, .lpInit])
    (h : runInstrs l s = .next t) :
    (.pdInit ∈ l ∨ s.pd.state = .idle → t.pd.state = .idle) ∧
    (.bfInit ∈ l ∨ s.bf.state = .waitHeader → t.bf.state = .waitHeader) ∧
    (.lpInit ∈ l ∨ s.lp.cur = 0 → t.lp.cur = 0) := by
  induction l generalizing s with
  | nil => cases h; simp
  | cons i rest ih =>
    obtain ⟨u, hu, hrest⟩ := runInstrs_cons h
    obtain ⟨hpd, hbf, hlp⟩ := ih (fun j hj => hl j (by simp [hj])) hrest
    have hi : i = .pdInit ∨ i = .bfInit ∨ i = .lpInit := by simpa using hl i (by simp)
    rcases hi with rfl | rfl | rfl
    · obtain rfl : u = (dispatcherInit s).setResult .none := eq_of_guarded_finish hu
      simp_all [dispatcherInit]
    · obtain rfl : u = (frameInit s).setResult .none := eq_of_guarded_finish hu
      simp_all [frameInit]
    · obtain rfl : u = (lineInit s).setResult .none := eq_of_guarded_finish hu
      simp_all [lineInit]

theorem runInstrs_jointInit {l : List Instr} {s t : State}
    (hl : l = [.sysReset] ∨ l.Perm [Instr.pdInit, .bfInit, .lpInit]) (h : runInstrs l s = .next t) : Joint t := by
  rcases hl with rfl | hperm
  · obtain ⟨u, hu, hnil⟩ := runInstrs_cons h
    cases hnil
    rw [eq_of_guarded_finish hu]
    exact joint_of_idle rfl rfl rfl
  · obtain ⟨hpd, hbf, hlp⟩ := runInstrs_inits (fun i hi => hperm.mem_iff.1 hi) h
    exact joint_of_idle (hpd (.inl (hperm.mem_iff.2 (by simp)))) (hbf (.inl (hperm.mem_iff.2 (by simp))))
      (hlp (.inl (hperm.mem_iff.2 (by simp))))

/-- Reset, with a frame begun: dispatcher and frame parser both past the header. -/
def State.midFrame : State :=
  (State.reset.setPd .inBinaryFrame).setBf { State.reset.bf with state := .readIds }

theorem joint_midFrame : Joint State.midFrame := ⟨nofun, fun _ => rfl⟩

/-- PD.INIT alone in the middle of a frame leaves an idle dispatcher over a busy frame parser (R241). -/
theorem pdInit_breaks_agreement :
    ∃ t, exec .pdInit State.midFrame = .next t ∧ ¬ Agree t :=
  ⟨(dispatcherInit State.midFrame).setResult .none, rfl, fun h => nomatch h.1⟩

/-- Settles O56: a joint initialisation gives `Joint`, every PD.STEP keeps it, and PD.INIT alone breaks it. -/
theorem dispatcherAndParsersAgree : Obligations.DispatcherAndParsersAgree := by
  refine ⟨fun l s t u bs hl hrun hfeed => ?_, fun s t b => execPdStep_joint,
    State.midFrame, pdInit_breaks_agreement.imp fun _ h => ⟨joint_midFrame, h⟩⟩
  obtain ⟨hagree, -⟩ := feed_pdStep_joint (runInstrs_jointInit hl hrun) hfeed
  unfold Agree at hagree
  refine ⟨fun hst => ?_, fun hst => ?_, fun hst => ?_⟩ <;>
  · rw [hst] at hagree
    exact hagree

end Sys2Proof.Machine
end

section
/-! SUPPORT. Ownership (R41, R213): what a consumer's row and a producer's row leave as it was, from any state. -/

namespace Sys2Proof.Machine

/-! ### What the consumer leaves to the others -/

/-- What no consumer's row writes: the ring's write side, the extractor but its wake flag, the receiver, the producer and
the `inited` flags. -/
structure ConsumerFrame (s t : State) : Prop where
  cfg : t.cfg = s.cfg
  wr : t.rb.wr = s.rb.wr
  data : t.rb.data = s.rb.data
  last : t.dx.last = s.dx.last
  drops : t.dx.drops = s.dx.drops
  rx : t.rx = s.rx
  producer : t.producer = s.producer
  reports : t.reports = s.reports
  inited : t.inited = s.inited

section
variable {s t u : State}

theorem ConsumerFrame.refl (s : State) : ConsumerFrame s s := ⟨rfl, rfl, rfl, rfl, rfl, rfl, rfl, rfl, rfl⟩

theorem ConsumerFrame.trans (h : ConsumerFrame s t) (h' : ConsumerFrame t u) : ConsumerFrame s u where
  cfg := h'.cfg.trans h.cfg
  wr := h'.wr.trans h.wr
  data := h'.data.trans h.data
  last := h'.last.trans h.last
  drops := h'.drops.trans h.drops
  rx := h'.rx.trans h.rx
  producer := h'.producer.trans h.producer
  reports := h'.reports.trans h.reports
  inited := h'.inited.trans h.inited

theorem ConsumerFrame.setPd (h : ConsumerFrame s t) (v) : ConsumerFrame s (t.setPd v) := { h with }

theorem ConsumerFrame.setConsumer (h : ConsumerFrame s t) (v) : ConsumerFrame s (t.setConsumer v) := { h with }

theorem ConsumerFrame.setResult (h : ConsumerFrame s t) (v) : ConsumerFrame s (t.setResult v) := { h with }

end

/-- Writing the frame parser, the line parser and the trace alone stays inside the frame. -/
theorem consumerFrame_of_parsers {s t : State} {bf : FrameParser} {lp : LineParser} {trace : List Event}
    (h : t = { s with bf := bf, lp := lp, trace := trace }) : ConsumerFrame s t := by
  subst h
  exact { ConsumerFrame.refl s with }

theorem ringRead_consumerFrame {s t : State} {o : Option Byte} (h : ringRead s = .ok (o, t)) : ConsumerFrame s t := by
  unfold ringRead at h
  split at h
  · cases h
    exact .refl _
  · split at h
    · cases h
    · cases h
      exact { ConsumerFrame.refl s with }

theorem ringReadN_consumerFrame {k : Nat} {s t : State} {bs : Bytes} (h : ringReadN k s = .ok (bs, t)) :
    ConsumerFrame s t := by
  induction k generalizing s bs with
  | zero =>
    cases h
    exact .refl _
  | succ k ih =>
    unfold ringReadN at h
    split at h
    · cases h
    next u hu =>
      cases h
      exact ringRead_consumerFrame hu
    next b u hu =>
      split at h
      · cases h
      next rest v hv =>
        cases h
        exact (ringRead_consumerFrame hu).trans (ih hv)

theorem lpAct_consumerFrame {r : LpRole} {s t : State} {b : Byte} {d : Bool} (h : lpAct r b s = .ok (d, t)) :
    ConsumerFrame s t := by
  obtain ⟨es, -, hframe, -⟩ := lpAct_frame h
  exact consumerFrame_of_parsers hframe

theorem bfAct_consumerFrame {r : BfRole} {s t : State} {b : Byte} {d : Bool} (h : bfAct r b s = .ok (d, t)) :
    ConsumerFrame s t := by
  obtain ⟨es, -, hframe⟩ := bfAct_frame h
  exact consumerFrame_of_parsers hframe

theorem backToIdle_consumerFrame {s t : State} {x : Except Fault (Bool × State)}
    (hx : ∀ d u, x = .ok (d, u) → ConsumerFrame s u) (h : backToIdle x = .ok t) : ConsumerFrame s t := by
  obtain ⟨d, u, hu, rfl⟩ := backToIdle_eq_ok.1 h
  cases d
  · exact hx _ _ hu
  · exact (hx _ _ hu).setPd _

theorem pdAct_consumerFrame {r : PdClass} {s t : State} {b : Byte} (h : pdAct r b s = .ok t) : ConsumerFrame s t := by
  have entered (v : PdState) : ConsumerFrame s (s.setPd v) := (ConsumerFrame.refl s).setPd v
  cases r with
  | printable | cr | lf => exact backToIdle_consumerFrame (fun d u hu => (entered _).trans (lpAct_consumerFrame hu)) h
  | header => exact backToIdle_consumerFrame (fun d u hu => (entered _).trans (bfAct_consumerFrame hu)) h
  | noise =>
    cases h
    exact .refl _
  | inLine => exact backToIdle_consumerFrame (fun d u hu => lpAct_consumerFrame hu) h
  | inBin => exact backToIdle_consumerFrame (fun d u hu => bfAct_consumerFrame hu) h

theorem dispatchStep_consumerFrame {s t : State} {b : Byte} (h : dispatchStep b s = .ok t) : ConsumerFrame s t :=
  pdAct_consumerFrame h

theorem dispatchAll_consumerFrame {bs : Bytes} {s t : State} (h : dispatchAll bs s = .ok t) : ConsumerFrame s t := by
  induction bs generalizing s with
  | nil =>
    cases h
    exact .refl _
  | cons b rest ih =>
    unfold dispatchAll at h
    split at h
    · cases h
    next u hu => exact (dispatchStep_consumerFrame hu).trans (ih h)

theorem drainLoop_consumerFrame {k : Nat} {s t : State} (h : drainLoop k s = .ok t) : ConsumerFrame s t := by
  induction k generalizing s with
  | zero =>
    cases h
    exact .refl _
  | succ k ih =>
    unfold drainLoop at h
    split at h
    · cases h
    next u hu =>
      cases h
      exact (ringRead_consumerFrame hu).setConsumer _
    next b u hu =>
      split at h
      · cases h
      next v hv => exact (ringRead_consumerFrame hu).trans ((dispatchStep_consumerFrame hv).trans (ih h))

/-- Waking clears the flag, the one part of the extractor the consumer writes (R180). -/
theorem wakeUp_consumerFrame (s : State) : ConsumerFrame s (wakeUp s) := { ConsumerFrame.refl s with }

section
variable {check : Option Refusal} {s t : State}

theorem guarded_finish_consumerFrame {r : Result} {x : Except Fault State}
    (hx : ∀ u, x = .ok u → ConsumerFrame s u) (h : guarded check (finish r x) = .next t) : ConsumerFrame s t := by
  obtain ⟨u, hu, rfl⟩ := finish_eq_next.1 (guarded_eq_next.1 h).2
  exact (hx u hu).setResult r

theorem guarded_finishWith_consumerFrame {α : Type} {g : α → Result} {x : Except Fault (α × State)}
    (hx : ∀ a u, x = .ok (a, u) → ConsumerFrame s u) (h : guarded check (finishWith g x) = .next t) :
    ConsumerFrame s t := by
  obtain ⟨a, u, hu, rfl⟩ := finishWith_eq_next.1 (guarded_eq_next.1 h).2
  exact (hx a u hu).setResult (g a)

end

theorem execConsDrain_consumerFrame {s t : State} (h : execConsDrain s = .next t) : ConsumerFrame s t := by
  obtain ⟨-, hrun⟩ := guarded_eq_next.1 h
  split at hrun
  · obtain ⟨u, hu, rfl⟩ := finish_eq_next.1 hrun
    exact ((wakeUp_consumerFrame s).trans (drainLoop_consumerFrame hu)).setResult _
  · cases hrun
    exact .refl _

/-- A consumer's row writes only what the consumer owns. -/
theorem exec_consumerFrame {i : Instr} {s t : State} (hi : callers i = [.consumer]) (h : exec i s = .next t) :
    ConsumerFrame s t := by
  cases i with
  | rbRead => exact guarded_finishWith_consumerFrame (fun _ _ => ringRead_consumerFrame) h
  | rbReadN n => exact guarded_finishWith_consumerFrame (fun _ _ => ringReadN_consumerFrame) h
  | pdStep b => exact guarded_finish_consumerFrame (fun _ => dispatchStep_consumerFrame) h
  | bfStep b => exact guarded_finishWith_consumerFrame (fun _ _ => bfAct_consumerFrame) h
  | lpStep b => exact guarded_finishWith_consumerFrame (fun _ _ => lpAct_consumerFrame) h
  | consDrain => exact execConsDrain_consumerFrame h
  | pdIdlePrintable | pdIdleCr | pdIdleLf | pdIdleHeader | pdIdleNoise | pdInLine | pdInBin =>
    exact guarded_finish_consumerFrame (fun _ => pdAct_consumerFrame) h
  | bfWaitHeaderHdr | bfWaitHeaderOther | bfReadIdsDevice | bfReadIdsSystem | bfReadIdsMsg | bfReadIdsSeq
  | bfReadLenTooLong | bfReadLenZero | bfReadLenValid | bfReadPayloadByte | bfReadPayloadLast
  | bfReadChecksumMatch | bfReadChecksumMismatch =>
    exact guarded_finishWith_consumerFrame (fun _ _ => bfAct_consumerFrame) h
  | lpTermCr | lpTermLf | lpByteAppend | lpByteOverflow =>
    exact guarded_finishWith_consumerFrame (fun _ _ => lpAct_consumerFrame) h
  | frame | line => exact guarded_finish_consumerFrame (fun _ => dispatchAll_consumerFrame) h
  | _ => simp [callers] at hi

/-! ### What the producer leaves to the others -/

/-- What no producer's row writes: the ring's read index, the dispatcher, the parsers, the trace, `HWBUF` and its write
position, the consumer and the `inited` flags. -/
structure ProducerFrame (s t : State) : Prop where
  cfg : t.cfg = s.cfg
  rd : t.rb.rd = s.rb.rd
  pd : t.pd = s.pd
  bf : t.bf = s.bf
  lp : t.lp = s.lp
  trace : t.trace = s.trace
  hwbuf : t.rx.hwbuf = s.rx.hwbuf
  pos : t.rx.pos = s.rx.pos
  consumer : t.consumer = s.consumer
  inited : t.inited = s.inited

section
variable {s t u : State}

theorem ProducerFrame.refl (s : State) : ProducerFrame s s := ⟨rfl, rfl, rfl, rfl, rfl, rfl, rfl, rfl, rfl, rfl⟩

theorem ProducerFrame.trans (h : ProducerFrame s t) (h' : ProducerFrame t u) : ProducerFrame s u where
  cfg := h'.cfg.trans h.cfg
  rd := h'.rd.trans h.rd
  pd := h'.pd.trans h.pd
  bf := h'.bf.trans h.bf
  lp := h'.lp.trans h.lp
  trace := h'.trace.trans h.trace
  hwbuf := h'.hwbuf.trans h.hwbuf
  pos := h'.pos.trans h.pos
  consumer := h'.consumer.trans h.consumer
  inited := h'.inited.trans h.inited

theorem ProducerFrame.setDx (h : ProducerFrame s t) (v) : ProducerFrame s (t.setDx v) := { h with }

theorem ProducerFrame.setReports (h : ProducerFrame s t) (v) : ProducerFrame s (t.setReports v) := { h with }

theorem ProducerFrame.setResult (h : ProducerFrame s t) (v) : ProducerFrame s (t.setResult v) := { h with }

end

theorem positionSeen_producerFrame (p : Nat) (s : State) : ProducerFrame s (positionSeen p s) :=
  { ProducerFrame.refl s with }

theorem ringWrite_producerFrame {s t : State} {b : Byte} {ok : Bool} (h : ringWrite b s = .ok (ok, t)) :
    ProducerFrame s t := by
  unfold ringWrite at h
  split at h
  · cases h
    exact .refl _
  · split at h
    · cases h
    · cases h
      exact { ProducerFrame.refl s with }

theorem ringWriteN_producerFrame {bs : Bytes} {s t : State} {k : Nat} (h : ringWriteN bs s = .ok (k, t)) :
    ProducerFrame s t := by
  induction bs generalizing s k with
  | nil =>
    cases h
    exact .refl _
  | cons b rest ih =>
    unfold ringWriteN at h
    split at h
    · cases h
    next u hu =>
      cases h
      exact ringWrite_producerFrame hu
    next u hu =>
      split at h
      · cases h
      next n v hv =>
        cases h
        exact (ringWrite_producerFrame hu).trans (ih hv)

theorem push_producerFrame {s t : State} {b : Byte} (h : push b s = .ok t) : ProducerFrame s t := by
  unfold push at h
  split at h
  · cases h
  next u hu =>
    cases h
    exact ringWrite_producerFrame hu
  next u hu =>
    cases h
    exact (ringWrite_producerFrame hu).setDx _

theorem pushIndex_producerFrame {s t : State} {i : Nat} (h : pushIndex i s = .ok t) : ProducerFrame s t := by
  unfold pushIndex at h
  split at h
  · cases h
  · exact push_producerFrame h

theorem pushAll_producerFrame {l : List Nat} {s t : State} (h : pushAll l s = .ok t) : ProducerFrame s t := by
  induction l generalizing s with
  | nil =>
    cases h
    exact .refl _
  | cons i rest ih =>
    unfold pushAll at h
    split at h
    · cases h
    next u hu => exact (pushIndex_producerFrame hu).trans (ih h)

theorem extract_producerFrame {s t : State} {p : Nat} (h : extract p s = .ok t) : ProducerFrame s t := by
  unfold extract at h
  split at h
  · cases h
    exact .refl _
  · split at h
    · cases h
    next u hu =>
      cases h
      exact (pushAll_producerFrame hu).setDx _

theorem extractAll_producerFrame {l : List Nat} {s t : State} (h : extractAll l s = .ok t) : ProducerFrame s t := by
  induction l generalizing s with
  | nil =>
    cases h
    exact .refl _
  | cons p rest ih =>
    unfold extractAll at h
    split at h
    · cases h
    next u hu => exact (extract_producerFrame hu).trans (ih h)

/-- The producer's rows (R213). -/
theorem callers_eq_producer {i : Instr} (hi : callers i = [.producer]) :
    (∃ b, i = .rbWrite b) ∨ (∃ bs, i = .rbWriteN bs) ∨ ∃ p, i = .dxExtract p := by
  cases i with
  | rbWrite b => exact .inl ⟨b, rfl⟩
  | rbWriteN bs => exact .inr (.inl ⟨bs, rfl⟩)
  | dxExtract p => exact .inr (.inr ⟨p, rfl⟩)
  | _ => simp [callers] at hi

/-- A producer's row writes only what the producer owns. -/
theorem exec_producerFrame {i : Instr} {s t : State} (hi : callers i = [.producer]) (h : exec i s = .next t) :
    ProducerFrame s t := by
  rcases callers_eq_producer hi with ⟨b, rfl⟩ | ⟨bs, rfl⟩ | ⟨p, rfl⟩
  · obtain ⟨ok, u, hu, rfl⟩ := finishWith_eq_next.1 (guarded_eq_next.1 h).2
    exact (ringWrite_producerFrame hu).setResult _
  · obtain ⟨k, u, hu, rfl⟩ := finishWith_eq_next.1 (guarded_eq_next.1 h).2
    exact (ringWriteN_producerFrame hu).setResult _
  · obtain ⟨u, hu, rfl⟩ := finish_eq_next.1 (guarded_eq_next.1 h).2
    exact (((positionSeen_producerFrame p s).setReports []).trans (extractAll_producerFrame hu)).setResult _

/-! ### The `inited` flags (R42) -/

theorem reportPosition_inited (p : Nat) (s : State) : (reportPosition p s).inited = s.inited := by
  unfold reportPosition extractBegin
  split
  · split <;> rfl
  · rfl

/-- No row but the INITs and SYS.RESET writes an `inited` flag. -/
theorem exec_inited {i : Instr} {s t : State} (hi : i ∉ [Instr.rbInit, .dxInit, .pdInit, .bfInit, .lpInit, .sysReset])
    (h : exec i s = .next t) : t.inited = s.inited := by
  cases i with
  | rbInit | dxInit | pdInit | bfInit | lpInit | sysReset => exact absurd hi (by simp)
  | rbIsEmpty | dxReset | sysRxReinit | frameOk | frameLenAbort | frameCsumFail | lineCmd | lineUnknown =>
    rw [eq_of_guarded_finish h]
    rfl
  | positionReport p =>
    rw [eq_of_guarded_finish h]
    exact reportPosition_inited p (positionSeen p s)
  | rbWrite | rbWriteN | dxExtract => exact (exec_producerFrame rfl h).inited
  | _ => exact (exec_consumerFrame rfl h).inited

/-- Settles O60: a row writes inside the frame of the one agent that may call it. -/
theorem ownersAloneWrite : Obligations.OwnersAloneWrite := by
  intro i s t h
  refine ⟨fun hi => ?_, fun hi => ?_, fun hi => exec_inited hi h⟩
  · have hf := exec_consumerFrame hi h
    exact ⟨hf.wr, hf.data, hf.last, hf.drops, hf.rx, hf.producer⟩
  · have hf := exec_producerFrame hi h
    exact ⟨hf.rd, hf.pd, hf.bf, hf.lp, hf.trace, hf.hwbuf, hf.pos, hf.consumer⟩

end Sys2Proof.Machine
end

section
/-! SUPPORT. Linearizability of RB.WRITE and RB.READ (R57, R58, R61): the machine's two rows in closed form, and what holds
between any two micro-steps. -/

namespace Sys2Proof.Machine

/-! ### RB.WRITE and RB.READ as rows (R91, R92) -/

section
variable {s : State} {b : Byte}

theorem ready_rb (h : Legal s) (hi : s.inited.rb = true) : ready [.rb] s = none :=
  ready_eq_none.2 ⟨h.cfg_valid, by simpa [Inited.has] using hi⟩

theorem exec_rbWrite_eq (h : Legal s) (hi : s.inited.rb = true) :
    exec (.rbWrite b) s = finishWith .ok (ringWrite b s) := by
  simp only [exec, execRbWrite, ready_rb h hi, guarded_none]

theorem exec_rbRead_eq (h : Legal s) (hi : s.inited.rb = true) : exec .rbRead s = finishWith .read (ringRead s) := by
  simp only [exec, execRbRead, ready_rb h hi, guarded_none]

theorem exec_rbWrite_full (h : Legal s) (hi : s.inited.rb = true) (hf : nextIndex s.cfg.n s.rb.wr = s.rb.rd) :
    exec (.rbWrite b) s = .next (s.setResult (.ok false)) := by
  rcases ringWrite_cases h b with ⟨-, hw⟩ | ⟨hroom, -⟩
  · rw [exec_rbWrite_eq h hi, hw, finishWith_ok]
  · exact absurd hf hroom

theorem exec_rbWrite_stores (h : Legal s) (hi : s.inited.rb = true) (hf : nextIndex s.cfg.n s.rb.wr ≠ s.rb.rd) :
    exec (.rbWrite b) s = .next ((s.setRb { s.rb with data := s.rb.data.write s.rb.wr b,
                                                      wr := nextIndex s.cfg.n s.rb.wr }).setResult (.ok true)) := by
  rcases ringWrite_cases h b with ⟨hfull, -⟩ | ⟨-, hw⟩
  · exact absurd hfull hf
  · rw [exec_rbWrite_eq h hi, hw, finishWith_ok]

theorem exec_rbRead_empty (h : Legal s) (hi : s.inited.rb = true) (he : s.rb.wr = s.rb.rd) :
    exec .rbRead s = .next (s.setResult (.read none)) := by
  rcases ringRead_cases h with ⟨-, hr⟩ | ⟨hne, -⟩
  · rw [exec_rbRead_eq h hi, hr, finishWith_ok]
  · exact absurd he hne

theorem exec_rbRead_takes (h : Legal s) (hi : s.inited.rb = true) (he : s.rb.wr ≠ s.rb.rd) :
    exec .rbRead s = .next ((s.setRb { s.rb with rd := nextIndex s.cfg.n s.rb.rd }).setResult
      (.read (some (s.rb.data.read s.rb.rd)))) := by
  rcases ringRead_cases h with ⟨hempty, -⟩ | ⟨-, hr⟩
  · exact absurd hempty he
  · rw [exec_rbRead_eq h hi, hr, finishWith_ok]

end

/-! ### Ring indices -/

theorem nextIndex_ne_self {n x : Nat} (hn : 2 ≤ n) (hx : x < n) : nextIndex n x ≠ x := by
  rw [nextIndex_eq hx]
  split <;> omega

theorem nextIndex_inj {n x y : Nat} (hx : x < n) (hy : y < n) : nextIndex n x = nextIndex n y ↔ x = y := by
  rw [nextIndex_eq hx, nextIndex_eq hy]
  split <;> split <;> omega

/-! ### Between two micro-steps -/

/-- RB.WRITE has published its byte (R57). -/
def WriteStage.published : WriteStage → Bool
  | .finished ok => ok
  | _ => false

/-- RB.WRITE has stored its byte, published or not. -/
def WriteStage.hasStored : WriteStage → Bool
  | .stored => true
  | st => st.published

theorem WriteStage.hasStored_of_published {w : WriteStage} (h : w.published = true) : w.hasStored = true := by
  cases w with
  | stored => rfl
  | start | passed | finished => exact h

/-- RB.READ has released its slot (R58). -/
def ReadStage.released : ReadStage → Bool
  | .finished b => b.isSome
  | _ => false

/-- Why RB.WRITE stands where it does: it passed its test because the ring was not full, or because a slot had been released by then;
it failed because the ring was full. -/
def WriteStage.Justified (full released : Prop) : WriteStage → Prop
  | .start => True
  | .finished false => full
  | .passed | .stored | .finished true => ¬ full ∨ released

/-- Why RB.READ stands where it does: it passed its test because the ring was not empty, or because a byte had been published by then;
the byte it took is `v`; it failed because the ring was empty. -/
def ReadStage.Justified (empty published : Prop) (v : Byte) : ReadStage → Prop
  | .start => True
  | .passed => ¬ empty ∨ published
  | .loaded x | .finished (some x) => (¬ empty ∨ published) ∧ x = v
  | .finished none => empty

/-- What holds between any two micro-steps of RB.WRITE(b) and RB.READ() begun on the ring `r₀`. Each index and the array are the
writer's or the reader's alone, so they follow that agent's stage. The one byte RB.READ can take is what the slot at `r₀.rd` holds
after the store: on an empty ring the byte stored, else the oldest byte, which the store leaves alone. -/
structure Interleaved (n : Nat) (b : Byte) (r₀ : RingBuffer) (w : WriteStage) (rd : ReadStage) (r : RingBuffer) : Prop where
  wr_eq : r.wr = if w.published then nextIndex n r₀.wr else r₀.wr
  rd_eq : r.rd = if rd.released then nextIndex n r₀.rd else r₀.rd
  data_eq : r.data = if w.hasStored then r₀.data.write r₀.wr b else r₀.data
  writer : w.Justified (nextIndex n r₀.wr = r₀.rd) (rd.released = true)
  reader : rd.Justified (r₀.wr = r₀.rd) (w.published = true) ((r₀.data.write r₀.wr b).read r₀.rd)

theorem Interleaved.start (n : Nat) (b : Byte) (r₀ : RingBuffer) : Interleaved n b r₀ .start .start r₀ :=
  ⟨rfl, rfl, rfl, trivial, trivial⟩

section
variable {n : Nat} {b : Byte} {r₀ r : RingBuffer} {w : WriteStage} {rd : ReadStage}

/-- The test of R91 on the ring as RB.WRITE finds it: full means full at the beginning and no slot released since. -/
theorem Interleaved.full_test (h : Interleaved n b r₀ .start rd r) (hwr : r₀.wr < n) (hrd : r₀.rd < n) :
    ringFull n r.wr r.rd = true ↔ nextIndex n r₀.wr = r₀.rd ∧ ¬ rd.released = true := by
  have hwr_eq : r.wr = r₀.wr := h.wr_eq
  have hrd_eq := h.rd_eq
  have hreader := h.reader
  rw [ringFull_iff, hwr_eq, hrd_eq]
  cases rd with
  | finished o =>
    cases o with
    | none => simp [ReadStage.released]
    | some x =>
      have hne : r₀.wr ≠ r₀.rd := by simpa [WriteStage.published] using hreader.1
      simp [ReadStage.released, nextIndex_inj hwr hrd, hne]
  | _ => simp [ReadStage.released]

/-- The test of R92 on the ring as RB.READ finds it: empty means empty at the beginning and no byte published since. -/
theorem Interleaved.empty_test (h : Interleaved n b r₀ w .start r) :
    ringEmpty r.wr r.rd = true ↔ r₀.wr = r₀.rd ∧ ¬ w.published = true := by
  have hrd_eq : r.rd = r₀.rd := h.rd_eq
  have hwr_eq := h.wr_eq
  have hwriter := h.writer
  rw [ringEmpty_iff, hrd_eq, hwr_eq]
  cases w with
  | finished ok =>
    cases ok with
    | false => simp [WriteStage.published]
    | true =>
      have hroom : nextIndex n r₀.wr ≠ r₀.rd := by simpa [WriteStage.Justified, ReadStage.released] using hwriter
      simp [WriteStage.published, hroom]
  | _ => simp [WriteStage.published]

/-- The byte RB.READ loads, whether the store came before or not (R57). -/
theorem Interleaved.load (h : Interleaved n b r₀ w .passed r) (hwf : r₀.data.wf = true) :
    r.data.read r.rd = (r₀.data.write r₀.wr b).read r₀.rd := by
  have hrd_eq : r.rd = r₀.rd := h.rd_eq
  have hreader : r₀.wr ≠ r₀.rd ∨ w.published = true := h.reader
  rw [hrd_eq, h.data_eq]
  cases hst : w.hasStored with
  | true => rfl
  | false =>
    have hpub : w.published ≠ true := fun hp => by simp [WriteStage.hasStored_of_published hp] at hst
    simp [Memory.read_write hwf, (hreader.resolve_right hpub).symm]

theorem ReadStage.Justified.publish {empty p p' : Prop} {v : Byte} (hp : p → p') (h : rd.Justified empty p v) :
    rd.Justified empty p' v := by
  cases rd with
  | start => trivial
  | passed => exact h.imp_right hp
  | loaded x => exact ⟨h.1.imp_right hp, h.2⟩
  | finished o =>
    cases o with
    | none => exact h
    | some x => exact ⟨h.1.imp_right hp, h.2⟩

theorem WriteStage.Justified.release {full p p' : Prop} (hp : p → p') (h : w.Justified full p) : w.Justified full p' := by
  cases w with
  | start => trivial
  | passed | stored => exact h.imp_right hp
  | finished ok =>
    cases ok with
    | false => exact h
    | true => exact h.imp_right hp

theorem Interleaved.writerStep (h : Interleaved n b r₀ w rd r) (hwr : r₀.wr < n) (hrd : r₀.rd < n) :
    Interleaved n b r₀ (microWrite n b w r).1 rd (microWrite n b w r).2 := by
  cases w with
  | start =>
    have htest := h.full_test hwr hrd
    simp only [microWrite]
    split
    next hf =>
      rw [htest] at hf
      exact { h with writer := hf.1 }
    next hf =>
      rw [htest] at hf
      exact { h with writer := (not_and_or.1 hf).imp_right not_not.1 }
  | passed =>
    have hwr_eq : r.wr = r₀.wr := h.wr_eq
    have hdata_eq : r.data = r₀.data := h.data_eq
    exact { h with data_eq := by simp [microWrite, WriteStage.hasStored, hwr_eq, hdata_eq] }
  | stored =>
    have hwr_eq : r.wr = r₀.wr := h.wr_eq
    exact { h with
      wr_eq := by simp [microWrite, WriteStage.published, hwr_eq]
      reader := h.reader.publish fun _ => rfl }
  | finished ok => exact h

theorem Interleaved.readerStep (h : Interleaved n b r₀ w rd r) (hwf : r₀.data.wf = true) :
    Interleaved n b r₀ w (microRead n rd r).1 (microRead n rd r).2 := by
  cases rd with
  | start =>
    have htest := h.empty_test
    simp only [microRead]
    split
    next he =>
      rw [htest] at he
      exact { h with reader := he.1 }
    next he =>
      rw [htest] at he
      exact { h with reader := (not_and_or.1 he).imp_right not_not.1 }
  | passed => exact { h with reader := ⟨h.reader, h.load hwf⟩ }
  | loaded x =>
    have hrd_eq : r.rd = r₀.rd := h.rd_eq
    exact { h with
      rd_eq := by simp [microRead, ReadStage.released, hrd_eq]
      writer := h.writer.release fun _ => rfl }
  | finished o => exact h

theorem Interleaved.run (h : Interleaved n b r₀ w rd r) (hwr : r₀.wr < n) (hrd : r₀.rd < n)
    (hwf : r₀.data.wf = true) {order : List Bool} {w' : WriteStage} {rd' : ReadStage} {r' : RingBuffer}
    (hrun : microRun n b order w rd r = (w', rd', r')) : Interleaved n b r₀ w' rd' r' := by
  induction order generalizing w rd r with
  | nil =>
    cases hrun
    exact h
  | cons who rest ih =>
    cases who with
    | true => exact ih (h.writerStep hwr hrd) hrun
    | false => exact ih (h.readerStep hwf) hrun

end

/-! ### Once both have returned -/

section
variable {s : State} {b : Byte} {r : RingBuffer} {ok : Bool} {got : Option Byte}

/-- Room in the ring at the beginning: the write, then the read. -/
theorem write_then_read_of_room (h : Legal s) (hi : s.inited.rb = true) (hroom : nextIndex s.cfg.n s.rb.wr ≠ s.rb.rd) :
    ∃ t, exec (.rbWrite b) s = .next t ∧ t.result = .ok true ∧
      exec .rbRead t = .next { s with
        rb := { wr := nextIndex s.cfg.n s.rb.wr, rd := nextIndex s.cfg.n s.rb.rd, data := s.rb.data.write s.rb.wr b },
        result := .read (some ((s.rb.data.write s.rb.wr b).read s.rb.rd)) } :=
  ⟨_, exec_rbWrite_stores h hi hroom, rfl, exec_rbRead_takes ((h.stored b).setResult _) hi hroom⟩

/-- A full ring at the beginning: the write that fails, then the read. -/
theorem write_then_read_of_full (h : Legal s) (hi : s.inited.rb = true) (hfull : nextIndex s.cfg.n s.rb.wr = s.rb.rd)
    (hne : s.rb.wr ≠ s.rb.rd) :
    ∃ t, exec (.rbWrite b) s = .next t ∧ t.result = .ok false ∧
      exec .rbRead t = .next { s with
        rb := { s.rb with rd := nextIndex s.cfg.n s.rb.rd }, result := .read (some (s.rb.data.read s.rb.rd)) } :=
  ⟨_, exec_rbWrite_full h hi hfull, rfl, exec_rbRead_takes (h.setResult _) hi hne⟩

/-- A byte in the ring at the beginning: the read, then the write into a ring that has room. -/
theorem read_then_write_of_nonempty (h : Legal s) (hi : s.inited.rb = true) (hne : s.rb.wr ≠ s.rb.rd) :
    ∃ t, exec .rbRead s = .next t ∧ t.result = .read (some (s.rb.data.read s.rb.rd)) ∧
      exec (.rbWrite b) t = .next { s with
        rb := { wr := nextIndex s.cfg.n s.rb.wr, rd := nextIndex s.cfg.n s.rb.rd, data := s.rb.data.write s.rb.wr b },
        result := .ok true } :=
  ⟨_, exec_rbRead_takes h hi hne, rfl,
    exec_rbWrite_stores (h.released.setResult _) hi fun heq => hne ((nextIndex_inj h.wr_lt h.rd_lt).1 heq)⟩

/-- An empty ring at the beginning: the read that fails, then the write. -/
theorem read_then_write_of_empty (h : Legal s) (hi : s.inited.rb = true) (hempty : s.rb.wr = s.rb.rd)
    (hroom : nextIndex s.cfg.n s.rb.wr ≠ s.rb.rd) :
    ∃ t, exec .rbRead s = .next t ∧ t.result = .read none ∧
      exec (.rbWrite b) t = .next { s with
        rb := { s.rb with wr := nextIndex s.cfg.n s.rb.wr, data := s.rb.data.write s.rb.wr b }, result := .ok true } :=
  ⟨_, exec_rbRead_empty h hi hempty, rfl, exec_rbWrite_stores (h.setResult _) hi hroom⟩

/-- Both have returned: the four pairs of results, each by the order that explains it. -/
theorem Interleaved.linearizes (hI : Interleaved s.cfg.n b s.rb (.finished ok) (.finished got) r) (h : Legal s)
    (hi : s.inited.rb = true) :
    (∃ t, exec (.rbWrite b) s = .next t ∧ t.result = .ok ok ∧
      exec .rbRead t = .next { s with rb := r, result := .read got }) ∨
    (∃ t, exec .rbRead s = .next t ∧ t.result = .read got ∧
      exec (.rbWrite b) t = .next { s with rb := r, result := .ok ok }) := by
  obtain ⟨hwr_eq, hrd_eq, hdata_eq, hwriter, hreader⟩ := hI
  have hne_of_full (hfull : nextIndex s.cfg.n s.rb.wr = s.rb.rd) : s.rb.wr ≠ s.rb.rd := fun he =>
    nextIndex_ne_self (Cfg.valid_sizes h.cfg_valid).1 h.wr_lt (hfull.trans he.symm)
  have hread_of_ne (hne : s.rb.wr ≠ s.rb.rd) : (s.rb.data.write s.rb.wr b).read s.rb.rd = s.rb.data.read s.rb.rd := by
    rw [Memory.read_write h.rb_wf, if_neg hne.symm]
  rw [RingBuffer.ext (x := r) (y := ⟨_, _, _⟩) hwr_eq hrd_eq hdata_eq]
  cases ok with
  | true =>
    cases got with
    | some x =>
      obtain ⟨-, rfl⟩ := hreader
      by_cases hfull : nextIndex s.cfg.n s.rb.wr = s.rb.rd
      · rw [hread_of_ne (hne_of_full hfull)]
        exact .inr (read_then_write_of_nonempty h hi (hne_of_full hfull))
      · exact .inl (write_then_read_of_room h hi hfull)
    | none =>
      have hroom : nextIndex s.cfg.n s.rb.wr ≠ s.rb.rd := fun hfull => hne_of_full hfull hreader
      exact .inr (read_then_write_of_empty h hi hreader hroom)
  | false =>
    have hne := hne_of_full hwriter
    cases got with
    | some x =>
      obtain ⟨-, rfl⟩ := hreader
      rw [hread_of_ne hne]
      exact .inl (write_then_read_of_full h hi hwriter hne)
    | none => exact absurd hreader hne

end

/-- Settles O12: `Interleaved` holds between any two micro-steps, and where both have returned it names the order. -/
theorem ringOpsLinearize : Obligations.RingOpsLinearize :=
  fun s b _ _ _ _ h hi hrun =>
    ((Interleaved.start s.cfg.n b s.rb).run h.wr_lt h.rd_lt h.rb_wf hrun).linearizes h hi

end Sys2Proof.Machine
end

section
/-! SUPPORT. What no step undoes (R63, R14, R210): the configuration stays, the trace grows at its end, and a row leaves the
schedule alone. -/

namespace Sys2Proof.Machine

/-- The configuration and the rest of the schedule are as before, and at most `k` events were appended to the trace; `⊤` is no
bound. -/
structure Appends (k : ℕ∞) (s t : State) : Prop where
  cfg : t.cfg = s.cfg
  sched : t.sched = s.sched
  trace : ∃ es : List Event, t.trace = s.trace ++ es ∧ (es.length : ℕ∞) ≤ k

section
variable {k l : ℕ∞} {s t u : State}

/-- The three fields are all the relation reads of a state. -/
theorem Appends.congr (h : Appends k s t) (hc : u.cfg = t.cfg) (hs : u.sched = t.sched) (ht : u.trace = t.trace) :
    Appends k s u where
  cfg := hc.trans h.cfg
  sched := hs.trans h.sched
  trace := ht ▸ h.trace

theorem Appends.refl (s : State) : Appends 0 s s := ⟨rfl, rfl, [], by simp, by simp⟩

theorem Appends.mono (h : Appends k s t) (hkl : k ≤ l) : Appends l s t where
  cfg := h.cfg
  sched := h.sched
  trace := h.trace.imp fun _ ⟨ht, hk⟩ => ⟨ht, hk.trans hkl⟩

theorem Appends.add (h : Appends k s t) (h' : Appends l t u) : Appends (k + l) s u := by
  obtain ⟨es, ht, hk⟩ := h.trace
  obtain ⟨es', hu, hl⟩ := h'.trace
  exact ⟨h'.cfg.trans h.cfg, h'.sched.trans h.sched, es ++ es', by rw [hu, ht, List.append_assoc],
    by simpa using add_le_add hk hl⟩

/-- Nothing appended, then at most `k`. -/
theorem Appends.after (h : Appends 0 s t) (h' : Appends k t u) : Appends k s u := by
  simpa using h.add h'

theorem Appends.trans (h : Appends ⊤ s t) (h' : Appends ⊤ t u) : Appends ⊤ s u :=
  (h.add h').mono le_top

theorem Appends.emit (s : State) (e : Event) : Appends 1 s (s.emit e) := ⟨rfl, rfl, [e], rfl, by simp⟩

/-- A write of other fields appends nothing. -/
theorem appends_zero_of_eq (hc : t.cfg = s.cfg) (hs : t.sched = s.sched) (ht : t.trace = s.trace) : Appends 0 s t :=
  (Appends.refl s).congr hc hs ht

end

/-! ### Checked operations -/

section
variable {k : ℕ∞} {check : Option Refusal} {s t : State}

theorem finish_appends {r : Result} {x : Except Fault State} (hx : ∀ u, x = .ok u → Appends k s u)
    (h : finish r x = .next t) : Appends k s t := by
  obtain ⟨u, hu, rfl⟩ := finish_eq_next.1 h
  exact (hx u hu).congr rfl rfl rfl

theorem guarded_appends {o : Out} (ho : o = .next t → Appends k s t) (h : guarded check o = .next t) : Appends k s t :=
  ho (guarded_eq_next.1 h).2

theorem guarded_finish_appends {r : Result} {x : Except Fault State} (hx : ∀ u, x = .ok u → Appends k s u)
    (h : guarded check (finish r x) = .next t) : Appends k s t :=
  guarded_appends (finish_appends hx) h

theorem guarded_finishWith_appends {α : Type} {g : α → Result} {x : Except Fault (α × State)}
    (hx : ∀ a u, x = .ok (a, u) → Appends k s u) (h : guarded check (finishWith g x) = .next t) : Appends k s t := by
  obtain ⟨a, u, hu, rfl⟩ := finishWith_eq_next.1 (guarded_eq_next.1 h).2
  exact (hx a u hu).congr rfl rfl rfl

end

/-! ### The ring and the extractor emit nothing -/

section
variable {s t : State}

theorem ringWrite_appends {b : Byte} {ok : Bool} (h : ringWrite b s = .ok (ok, t)) : Appends 0 s t := by
  unfold ringWrite at h
  split at h
  · cases h
    exact .refl _
  · split at h
    · cases h
    · cases h
      exact appends_zero_of_eq rfl rfl rfl

theorem ringRead_appends {o : Option Byte} (h : ringRead s = .ok (o, t)) : Appends 0 s t := by
  unfold ringRead at h
  split at h
  · cases h
    exact .refl _
  · split at h
    · cases h
    · cases h
      exact appends_zero_of_eq rfl rfl rfl

theorem ringWriteN_appends {bs : Bytes} {k : Nat} (h : ringWriteN bs s = .ok (k, t)) : Appends 0 s t := by
  induction bs generalizing s k with
  | nil =>
    cases h
    exact .refl _
  | cons b rest ih =>
    unfold ringWriteN at h
    split at h
    · cases h
    next u hu =>
      cases h
      exact ringWrite_appends hu
    next u hu =>
      split at h
      · cases h
      next n v hv =>
        cases h
        exact (ringWrite_appends hu).after (ih hv)

theorem ringReadN_appends {k : Nat} {bs : Bytes} (h : ringReadN k s = .ok (bs, t)) : Appends 0 s t := by
  induction k generalizing s bs with
  | zero =>
    cases h
    exact .refl _
  | succ k ih =>
    unfold ringReadN at h
    split at h
    · cases h
    next u hu =>
      cases h
      exact ringRead_appends hu
    next b u hu =>
      split at h
      · cases h
      next rest v hv =>
        cases h
        exact (ringRead_appends hu).after (ih hv)

theorem writeNStep_appends {todo : Bytes} {k : Nat} {r : Result} (h : writeNStep todo k s = .ok (r, t)) :
    Appends 0 s t := by
  unfold writeNStep at h
  split at h
  · cases h
    exact appends_zero_of_eq rfl rfl rfl
  · split at h
    · cases h
    next u hu =>
      cases h
      exact (ringWrite_appends hu).congr rfl rfl rfl
    next u hu =>
      cases h
      exact (ringWrite_appends hu).congr rfl rfl rfl

theorem readNStep_appends {left : Nat} {got : Bytes} {r : Result} (h : readNStep left got s = .ok (r, t)) :
    Appends 0 s t := by
  unfold readNStep at h
  split at h
  · cases h
    exact appends_zero_of_eq rfl rfl rfl
  · split at h
    · cases h
    next u hu =>
      cases h
      exact (ringRead_appends hu).congr rfl rfl rfl
    next b u hu =>
      cases h
      exact (ringRead_appends hu).congr rfl rfl rfl

theorem pushIndex_appends {i : Nat} (h : pushIndex i s = .ok t) : Appends 0 s t := by
  unfold pushIndex push at h
  split at h
  · cases h
  · split at h
    · cases h
    next u hu =>
      cases h
      exact ringWrite_appends hu
    next u hu =>
      cases h
      exact (ringWrite_appends hu).congr rfl rfl rfl

theorem pushAll_appends {l : List Nat} (h : pushAll l s = .ok t) : Appends 0 s t := by
  induction l generalizing s with
  | nil =>
    cases h
    exact .refl _
  | cons i rest ih =>
    unfold pushAll at h
    split at h
    · cases h
    next u hu => exact (pushIndex_appends hu).after (ih h)

theorem extract_appends {p : Nat} (h : extract p s = .ok t) : Appends 0 s t := by
  unfold extract at h
  split at h
  · cases h
    exact .refl _
  · split at h
    · cases h
    next u hu =>
      cases h
      exact (pushAll_appends hu).congr rfl rfl rfl

theorem extractAll_appends {l : List Nat} (h : extractAll l s = .ok t) : Appends 0 s t := by
  induction l generalizing s with
  | nil =>
    cases h
    exact .refl _
  | cons p rest ih =>
    unfold extractAll at h
    split at h
    · cases h
    next u hu => exact (extract_appends hu).after (ih h)

theorem extractBegin_appends (p : Nat) (s : State) : Appends 0 s (extractBegin p s) := by
  unfold extractBegin
  split
  · exact .refl _
  · exact appends_zero_of_eq rfl rfl rfl

theorem reportPosition_appends (p : Nat) (s : State) : Appends 0 s (reportPosition p (positionSeen p s)) := by
  have seen : Appends 0 s (positionSeen p s) := appends_zero_of_eq rfl rfl rfl
  unfold reportPosition
  split
  · exact seen.after (extractBegin_appends p _)
  · exact seen.congr rfl rfl rfl

theorem extractStep_appends {p : Nat} {todo : List Nat} (h : extractStep p todo s = .ok t) : Appends 0 s t := by
  cases todo with
  | nil =>
    cases h
    exact appends_zero_of_eq rfl rfl rfl
  | cons i rest =>
    obtain ⟨u, hu, rfl⟩ := except_map_eq_ok.1 h
    exact (pushIndex_appends hu).congr rfl rfl rfl

theorem environmentStore_appends {b : Byte} (h : environmentStore b s = .ok t) : Appends 0 s t := by
  unfold environmentStore at h
  split at h
  · cases h
  · cases h
    exact appends_zero_of_eq rfl rfl rfl

/-! ### A stream byte emits at most one event (R210) -/

theorem lpAct_appends {r : LpRole} {b : Byte} {d : Bool} (h : lpAct r b s = .ok (d, t)) : Appends 1 s t := by
  obtain ⟨es, hes, hframe, -⟩ := lpAct_frame h
  rw [hframe]
  exact ⟨rfl, rfl, es, rfl, by exact_mod_cast hes⟩

theorem bfAct_appends {r : BfRole} {b : Byte} {d : Bool} (h : bfAct r b s = .ok (d, t)) : Appends 1 s t := by
  obtain ⟨es, hes, hframe⟩ := bfAct_frame h
  rw [hframe]
  exact ⟨rfl, rfl, es, rfl, by exact_mod_cast hes⟩

theorem backToIdle_appends {x : Except Fault (Bool × State)} (hx : ∀ d u, x = .ok (d, u) → Appends 1 s u)
    (h : backToIdle x = .ok t) : Appends 1 s t := by
  obtain ⟨d, u, hu, rfl⟩ := backToIdle_eq_ok.1 h
  cases d
  · exact hx _ _ hu
  · exact (hx _ _ hu).congr rfl rfl rfl

theorem pdAct_appends {r : PdClass} {b : Byte} (h : pdAct r b s = .ok t) : Appends 1 s t := by
  have entered (v : PdState) : Appends 0 s (s.setPd v) := appends_zero_of_eq rfl rfl rfl
  cases r with
  | printable | cr | lf => exact backToIdle_appends (fun _ _ hu => (entered _).after (lpAct_appends hu)) h
  | header => exact backToIdle_appends (fun _ _ hu => (entered _).after (bfAct_appends hu)) h
  | noise =>
    cases h
    exact (Appends.refl _).mono zero_le_one
  | inLine => exact backToIdle_appends (fun _ _ => lpAct_appends) h
  | inBin => exact backToIdle_appends (fun _ _ => bfAct_appends) h

/-! ### Runs of stream bytes -/

theorem dispatchStep_appends {b : Byte} (h : dispatchStep b s = .ok t) : Appends 1 s t := pdAct_appends h

theorem dispatchAll_appends {bs : Bytes} (h : dispatchAll bs s = .ok t) : Appends ⊤ s t := by
  induction bs generalizing s with
  | nil =>
    cases h
    exact (Appends.refl _).mono le_top
  | cons b rest ih =>
    unfold dispatchAll at h
    split at h
    · cases h
    next u hu => exact ((dispatchStep_appends hu).mono le_top).trans (ih h)

theorem drainLoop_appends {k : Nat} (h : drainLoop k s = .ok t) : Appends ⊤ s t := by
  induction k generalizing s with
  | zero =>
    cases h
    exact (Appends.refl _).mono le_top
  | succ k ih =>
    unfold drainLoop at h
    split at h
    · cases h
    next u hu =>
      cases h
      exact ((ringRead_appends hu).mono le_top).congr rfl rfl rfl
    next b u hu =>
      split at h
      · cases h
      next v hv => exact (ringRead_appends hu).after (((dispatchStep_appends hv).mono le_top).trans (ih h))

theorem drainRead_appends (h : drainRead s = .ok t) : Appends 0 s t := by
  unfold drainRead at h
  split at h
  · cases h
  next u hu =>
    cases h
    exact (ringRead_appends hu).congr rfl rfl rfl
  next b u hu =>
    cases h
    exact (ringRead_appends hu).congr rfl rfl rfl

theorem wakeUp_appends (s : State) : Appends 0 s (wakeUp s) := appends_zero_of_eq rfl rfl rfl

theorem wakeStep_appends (h : wakeStep s = .next t) : Appends 0 s t := by
  unfold wakeStep at h
  split at h
  · exact finish_appends (fun _ hu => by cases hu; exact wakeUp_appends s) h
  · cases h
    exact .refl _

theorem execConsDrain_appends (h : execConsDrain s = .next t) : Appends ⊤ s t := by
  refine guarded_appends (fun hrun => ?_) h
  split at hrun
  · exact finish_appends (fun _ hu => (wakeUp_appends s).after (drainLoop_appends hu)) hrun
  · cases hrun
    exact (Appends.refl s).mono le_top

/-! ### The rows -/

/-- How many events a row can emit: the rows that carry a run of stream bytes have no bound of their own. -/
def eventBound : Instr → ℕ∞
  | .frame _ _ _ _ _ _ | .line _ _ | .consDrain => ⊤
  | _ => 1

/-- Every row keeps configuration and schedule and appends to the trace within its bound. -/
theorem exec_appends {i : Instr} (h : exec i s = .next t) : Appends (eventBound i) s t := by
  have silent {t : State} (ht : Appends 0 s t) : Appends 1 s t := ht.mono zero_le_one
  cases i with
  | rbInit | rbIsEmpty | dxInit | dxReset | pdInit | bfInit | lpInit | sysReset | sysRxReinit =>
    rw [eq_of_guarded_finish h]
    exact silent (appends_zero_of_eq rfl rfl rfl)
  | positionReport p =>
    rw [eq_of_guarded_finish h]
    exact silent ((reportPosition_appends p s).congr rfl rfl rfl)
  | rbWrite b => exact silent (guarded_finishWith_appends (fun _ _ => ringWrite_appends) h)
  | rbRead => exact silent (guarded_finishWith_appends (fun _ _ => ringRead_appends) h)
  | rbWriteN bs => exact silent (guarded_finishWith_appends (fun _ _ => ringWriteN_appends) h)
  | rbReadN n => exact silent (guarded_finishWith_appends (fun _ _ => ringReadN_appends) h)
  | dxExtract p =>
    have seen : Appends 0 s ((positionSeen p s).setReports []) := appends_zero_of_eq rfl rfl rfl
    exact silent (guarded_finish_appends (fun _ hu => seen.after (extractAll_appends hu)) h)
  | pdStep b => exact guarded_finish_appends (fun _ => dispatchStep_appends) h
  | bfStep b => exact guarded_finishWith_appends (fun _ _ => bfAct_appends) h
  | lpStep b => exact guarded_finishWith_appends (fun _ _ => lpAct_appends) h
  | pdIdlePrintable | pdIdleCr | pdIdleLf | pdIdleHeader | pdIdleNoise | pdInLine | pdInBin =>
    exact guarded_finish_appends (fun _ => pdAct_appends) h
  | bfWaitHeaderHdr | bfWaitHeaderOther | bfReadIdsDevice | bfReadIdsSystem | bfReadIdsMsg | bfReadIdsSeq
  | bfReadLenTooLong | bfReadLenZero | bfReadLenValid | bfReadPayloadByte | bfReadPayloadLast
  | bfReadChecksumMatch | bfReadChecksumMismatch =>
    exact guarded_finishWith_appends (fun _ _ => bfAct_appends) h
  | lpTermCr | lpTermLf | lpByteAppend | lpByteOverflow =>
    exact guarded_finishWith_appends (fun _ _ => lpAct_appends) h
  | frame | line => exact guarded_finish_appends (fun _ => dispatchAll_appends) h
  | consDrain => exact execConsDrain_appends h
  | frameOk | frameLenAbort | frameCsumFail | lineCmd | lineUnknown =>
    rw [eq_of_guarded_finish h]
    exact (Appends.emit s _).congr rfl rfl rfl

/-! ### The items of the schedule -/

theorem exec_grows {i : Instr} (h : exec i s = .next t) : Appends ⊤ s t := (exec_appends h).mono le_top

/-- Entering an instruction begins a phase, which emits nothing, or runs it (R94, R106, R180). -/
theorem enter_grows {i : Instr} (h : enter i s = .next t) : Appends ⊤ s t := by
  have silent {t : State} (ht : Appends 0 s t) : Appends ⊤ s t := ht.mono le_top
  unfold enter at h
  split at h
  · rw [eq_of_guarded_finish h]
    exact silent (appends_zero_of_eq rfl rfl rfl)
  · rw [eq_of_guarded_finish h]
    exact silent (appends_zero_of_eq rfl rfl rfl)
  next p =>
    rw [eq_of_guarded_finish h]
    exact silent ((reportPosition_appends p s).congr rfl rfl rfl)
  · exact silent (guarded_appends wakeStep_appends h)
  · exact exec_grows h

theorem transactStep_grows {who : Agent} {code : Code} (h : transactStep who code s = .next t) : Appends ⊤ s t := by
  unfold transactStep at h
  split at h
  · cases h
  · exact guarded_appends exec_grows h

theorem startStep_grows {who : Agent} {code : Code} (h : startStep who code s = .next t) : Appends ⊤ s t := by
  unfold startStep at h
  split at h
  · cases h
  · exact guarded_appends enter_grows h

theorem serveReport_appends (h : serveReport s = .next t) : Appends 0 s t := by
  unfold serveReport at h
  split at h
  next p rest _ =>
    have served : Appends 0 s (s.setReports rest) := appends_zero_of_eq rfl rfl rfl
    exact finish_appends (fun _ hu => by cases hu; exact served.after (extractBegin_appends p _)) h
  · cases h
    exact .refl _

/-- The producer emits nothing (R41). -/
theorem producerStep_appends (h : producerStep s = .next t) : Appends 0 s t := by
  unfold producerStep at h
  split at h
  · exact guarded_finish_appends (fun _ => extractStep_appends) h
  · exact guarded_appends serveReport_appends h
  · exact guarded_finishWith_appends (fun _ _ => writeNStep_appends) h

theorem consumerStep_grows (h : consumerStep s = .next t) : Appends ⊤ s t := by
  unfold consumerStep at h
  split at h
  · exact (guarded_appends wakeStep_appends h).mono le_top
  · exact (guarded_finish_appends (fun _ => drainRead_appends) h).mono le_top
  · have taken : Appends 0 s (s.setConsumer (.draining none)) := appends_zero_of_eq rfl rfl rfl
    exact taken.after (guarded_appends exec_grows h)
  · exact (guarded_finishWith_appends (fun _ _ => readNStep_appends) h).mono le_top

theorem perform_grows {a : Act} (h : perform a s = .next t) : Appends ⊤ s t := by
  cases a with
  | transact who code => exact transactStep_grows h
  | start who code => exact startStep_grows h
  | producer => exact (producerStep_appends h).mono le_top
  | consumer => exact consumerStep_grows h
  | receive b => exact (guarded_finish_appends (fun _ => environmentStore_appends) h).mono le_top
  | restart =>
    have restarted : Appends 0 s ((receiverRestart s).setResult .none) := appends_zero_of_eq rfl rfl rfl
    rw [eq_of_guarded_finish h]
    exact restarted.mono le_top

/-- A step takes its item off the schedule; configuration and trace are as its performance leaves them. -/
theorem step_cfg_trace (h : step s = .next t) : t.cfg = s.cfg ∧ ∃ es, t.trace = s.trace ++ es := by
  unfold step at h
  split at h
  · cases h
    exact ⟨rfl, [], by simp⟩
  · obtain ⟨hcfg, -, es, hes, -⟩ := perform_grows h
    exact ⟨hcfg, es, hes⟩

end

/-- Settles O58: every item of the schedule and every row is within `Appends`, each row within its `eventBound`. -/
theorem configurationFixedTraceGrows : Obligations.ConfigurationFixedTraceGrows := by
  refine fun s t => ⟨step_cfg_trace, fun i h => ?_⟩
  obtain ⟨hcfg, hsched, es, hes, hle⟩ := exec_appends h
  refine ⟨hcfg, hsched, es, hes, fun hframe hline hdrain => ?_⟩
  have hone : eventBound i = 1 := by
    unfold eventBound
    split
    · exact absurd rfl (hframe _ _ _ _ _ _)
    · exact absurd rfl (hline _ _)
    · exact absurd rfl hdrain
    · rfl
  rw [hone] at hle
  exact_mod_cast hle

end Sys2Proof.Machine
end

section
/-! SUPPORT. The classes and roles of a byte (R76, R78, R79): which byte the table fixes for one, and the state it
belongs to. -/

namespace Sys2Proof

/-! ### The dispatcher's classes (R76) -/

/-- The byte is the one the table fixes for the class, where it fixes one. -/
def PdClass.Admits (c : Cfg) (b : Byte) : PdClass → Prop
  | .cr => b = byteCr
  | .lf => b = byteLf
  | .header => b = c.hdr
  | _ => True

/-- The dispatcher's state in which bytes have the class. -/
def PdClass.home : PdClass → PdState
  | .inLine => .inLineFrame
  | .inBin => .inBinaryFrame
  | _ => .idle

theorem PdClass.admits_of {c : Cfg} {b : Byte} {r : PdClass} (hcr : r = .cr → b = byteCr) (hlf : r = .lf → b = byteLf)
    (hhdr : r = .header → b = c.hdr) : r.Admits c b := by
  cases r with
  | cr => exact hcr rfl
  | lf => exact hlf rfl
  | header => exact hhdr rfl
  | printable | noise | inLine | inBin => trivial

theorem pdClass_admits {c : Cfg} {st : PdState} {b : Byte} : (pdClass c st b).Admits c b := by
  cases st with
  | inLineFrame | inBinaryFrame => trivial
  | idle =>
    rcases Machine.pdClass_idle c b with ⟨-, h⟩ | ⟨hb, h⟩ | ⟨hb, h⟩ | ⟨-, hb, h⟩ | ⟨-, -, h⟩ <;> rw [h]
    · trivial
    · exact hb
    · exact hb
    · exact hb
    · trivial

theorem pdClass_home {c : Cfg} {st : PdState} {b : Byte} : (pdClass c st b).home = st := by
  cases st with
  | inLineFrame | inBinaryFrame => rfl
  | idle =>
    rcases Machine.pdClass_idle c b with ⟨-, h⟩ | ⟨-, h⟩ | ⟨-, h⟩ | ⟨-, -, h⟩ | ⟨-, -, h⟩ <;> rw [h] <;> rfl

/-! ### The frame parser's roles (R78) -/

/-- The byte is the one the table fixes for the role, where it fixes one. -/
def BfRole.Admits (c : Cfg) (b : Byte) : BfRole → Prop
  | .header => b = c.hdr
  | .zero => b = 0
  | _ => True

/-- The frame parser's state in which bytes have the role. -/
def BfRole.home : BfRole → BfState
  | .header | .other => .waitHeader
  | .device | .system | .msg | .seq => .readIds
  | .tooLong | .zero | .valid => .readLen
  | .payload | .payloadLast => .readPayload
  | .csumMatch | .csumMismatch => .readChecksum

theorem BfRole.admits_of {c : Cfg} {b : Byte} {r : BfRole} (hhdr : r = .header → b = c.hdr) (hzero : r = .zero → b = 0) :
    r.Admits c b := by
  cases r with
  | header => exact hhdr rfl
  | zero => exact hzero rfl
  | other | device | system | msg | seq | tooLong | valid | payload | payloadLast | csumMatch | csumMismatch =>
    trivial

section
variable {c : Cfg} {st : BfState} {idx : Fin 4} {pcur : Nat} {len csum b : Byte}

theorem bfRole_admits : (bfRole c st idx pcur len csum b).Admits c b := by
  cases st with
  | waitHeader =>
    simp only [bfRole]
    split
    · assumption
    · trivial
  | readIds => rcases Machine.idRole_cases idx with h | h | h | h <;> simp only [bfRole, h] <;> trivial
  | readLen =>
    simp only [bfRole]
    split
    · trivial
    · split
      · assumption
      · trivial
  | readPayload | readChecksum => simp only [bfRole]; split <;> trivial

theorem bfRole_home : (bfRole c st idx pcur len csum b).home = st := by
  cases st with
  | waitHeader | readPayload | readChecksum => simp only [bfRole]; split <;> rfl
  | readIds => rcases Machine.idRole_cases idx with h | h | h | h <;> simp only [bfRole, h] <;> rfl
  | readLen =>
    simp only [bfRole]
    split
    · rfl
    · split <;> rfl

end

/-! ### The line parser's roles (R79) -/

/-- The byte is the one the table fixes for the role, where it fixes one. -/
def LpRole.Admits (b : Byte) : LpRole → Prop
  | .cr => b = byteCr
  | .lf => b = byteLf
  | _ => True

theorem LpRole.admits_of {b : Byte} {r : LpRole} (hcr : r = .cr → b = byteCr) (hlf : r = .lf → b = byteLf) :
    r.Admits b := by
  cases r with
  | cr => exact hcr rfl
  | lf => exact hlf rfl
  | append | overflow => trivial

theorem lpRole_admits {c : Cfg} {cur : Nat} {b : Byte} : (lpRole c cur b).Admits b := by
  unfold lpRole
  split
  · assumption
  · split
    · assumption
    · split <;> trivial

end Sys2Proof
end

section
/-! SUPPORT. The byte rows (R76, R78, R79): where a row is PD.STEP, BF.STEP or LP.STEP, and where it is refused (log 12). -/

namespace Sys2Proof.Machine

/-! ### Checks -/

theorem ready_pd_bf_lp {s : State} (hv : s.cfg.valid = true) (hi : s.parsersInited) : ready [.pd, .bf, .lp] s = none := by
  obtain ⟨hpd, hbf, hlp⟩ := hi
  exact ready_eq_none.2 ⟨hv, by simp [Inited.has, hpd, hbf, hlp]⟩

theorem ready_of_subset {l l' : List SubBlock} {s : State} (h : ready l s = none) (hsub : l' ⊆ l) : ready l' s = none := by
  obtain ⟨hv, hinit⟩ := ready_eq_none.1 h
  exact ready_eq_none.2 ⟨hv, fun b hb => hinit b (hsub hb)⟩

theorem or_needRow_of_applies (check : Option Refusal) {applies : Bool} (h : applies = true) :
    check.or (needRow applies) = check := by
  simp [needRow, h]

theorem guarded_needRow_refused {check : Option Refusal} {applies : Bool} (hcheck : check = none) (h : applies = false)
    (k : Out) : guarded (check.or (needRow applies)) k = .refused .rowNotApplicable := by
  simp [needRow, hcheck, h]

/-! ### The dispatcher's rows (R76) -/

section
variable {s : State} {b : Byte} {r : PdClass}

/-- A class's row runs on the byte the class has, given or fixed. -/
theorem exec_pdClass_instr (h : r.Admits s.cfg b) : exec (r.instr b) s = pdRow r b s := by
  cases r with
  | cr | lf | header => obtain rfl := h; rfl
  | printable | noise | inLine | inBin => rfl

/-- The row of the byte's own class is PD.STEP (R128). -/
theorem pdRow_pdClassAt (b : Byte) (s : State) : pdRow (pdClassAt s b) b s = exec (.pdStep b) s := by
  rw [pdRow, or_needRow_of_applies _ (beq_self_eq_true _)]
  rfl

theorem pdRow_refused (hr : ready [.pd, .bf, .lp] s = none) (h : pdClassAt s b ≠ r) :
    pdRow r b s = .refused .rowNotApplicable :=
  guarded_needRow_refused hr (beq_false_of_ne h) _

theorem pdRow_refused_elsewhere (hr : ready [.pd, .bf, .lp] s = none) (h : s.pd.state ≠ r.home) :
    pdRow r b s = .refused .rowNotApplicable :=
  pdRow_refused hr fun hclass => h (by rw [← hclass]; exact pdClass_home.symm)

end

/-! ### The frame parser's rows (R78) -/

section
variable {s : State} {b : Byte} {r : BfRole}

theorem exec_bfRole_instr (h : r.Admits s.cfg b) : exec (r.instr b) s = bfRow r b s := by
  cases r with
  | header | zero => obtain rfl := h; rfl
  | other | device | system | msg | seq | tooLong | valid | payload | payloadLast | csumMatch | csumMismatch => rfl

/-- The row of the byte's own role is BF.STEP (R141). -/
theorem bfRow_bfRoleAt (b : Byte) (s : State) : bfRow (bfRoleAt s b) b s = exec (.bfStep b) s := by
  rw [bfRow, or_needRow_of_applies _ (beq_self_eq_true _)]
  rfl

theorem bfRow_refused (hr : ready [.bf] s = none) (h : bfRoleAt s b ≠ r) :
    bfRow r b s = .refused .rowNotApplicable :=
  guarded_needRow_refused hr (beq_false_of_ne h) _

theorem bfRow_refused_elsewhere (hr : ready [.bf] s = none) (h : s.bf.state ≠ r.home) :
    bfRow r b s = .refused .rowNotApplicable :=
  bfRow_refused hr fun hrole => h (by rw [← hrole]; exact bfRole_home.symm)

end

/-! ### The line parser's rows (R79) -/

section
variable {s : State} {b : Byte} {r : LpRole}

theorem exec_lpRole_instr (h : r.Admits b) : exec (r.instr b) s = lpRow r b s := by
  cases r with
  | cr | lf => obtain rfl := h; rfl
  | append | overflow => rfl

/-- The row of the byte's own role is LP.STEP (R163). -/
theorem lpRow_lpRoleAt (b : Byte) (s : State) : lpRow (lpRoleAt s b) b s = exec (.lpStep b) s := by
  rw [lpRow, or_needRow_of_applies _ (beq_self_eq_true _)]
  rfl

theorem lpRow_refused (hr : ready [.lp] s = none) (h : lpRoleAt s b ≠ r) :
    lpRow r b s = .refused .rowNotApplicable :=
  guarded_needRow_refused hr (beq_false_of_ne h) _

end

/-! ### The statements -/

/-- Settles O21: a byte's row runs on the byte itself, and the row of the byte's own class or role passes its check. -/
theorem byteStepsRunTheirRow : Obligations.ByteStepsRunTheirRow := by
  refine fun s b => ⟨?_, ?_, ?_⟩
  · rw [← pdRow_pdClassAt]
    exact (exec_pdClass_instr pdClass_admits).symm
  · rw [← bfRow_bfRoleAt]
    exact (exec_bfRole_instr bfRole_admits).symm
  · rw [← lpRow_lpRoleAt]
    exact (exec_lpRole_instr lpRole_admits).symm

/-- Settles O53: a row of another state, and a row of another class or role in the same state, fails its row check. -/
theorem rowsOutsideTheirCondition : Obligations.RowsOutsideTheirCondition := by
  intro s b hv hi
  have hpd := ready_pd_bf_lp hv hi
  have hbf : ready [.bf] s = none := ready_of_subset hpd (by simp)
  have hlp : ready [.lp] s = none := ready_of_subset hpd (by simp)
  simp only [List.forall_mem_cons, List.not_mem_nil, false_implies, implies_true, and_true]
  refine ⟨fun h => ?_, fun h => ?_, fun h => ?_, fun h => ?_, fun h => ?_, fun h => ?_, fun h => ?_, fun h => ?_,
    fun hb => ?_, fun r h hcr hlf hhdr => ?_, fun r h hhdr hzero => ?_, fun r h hcr hlf => ?_⟩
  · refine ⟨?_, ?_, ?_, ?_, ?_⟩ <;> exact pdRow_refused_elsewhere hpd h
  · exact pdRow_refused_elsewhere hpd h
  · exact pdRow_refused_elsewhere hpd h
  · constructor <;> exact bfRow_refused_elsewhere hbf h
  · refine ⟨?_, ?_, ?_, ?_⟩ <;> exact bfRow_refused_elsewhere hbf h
  · refine ⟨?_, ?_, ?_⟩ <;> exact bfRow_refused_elsewhere hbf h
  · constructor <;> exact bfRow_refused_elsewhere hbf h
  · constructor <;> exact bfRow_refused_elsewhere hbf h
  · have hrole : lpRoleAt s b = .cr ∨ lpRoleAt s b = .lf := lpRole_term hb
    constructor <;> exact lpRow_refused hlp (by rcases hrole with h | h <;> simp [h])
  · exact (exec_pdClass_instr (PdClass.admits_of hcr hlf hhdr)).trans (pdRow_refused hpd h)
  · exact (exec_bfRole_instr (BfRole.admits_of hhdr hzero)).trans (bfRow_refused hbf h)
  · exact (exec_lpRole_instr (LpRole.admits_of hcr hlf)).trans (lpRow_refused hlp h)

end Sys2Proof.Machine
end

section
/-! SUPPORT. The wire rows FRAME and LINE (R71, R75): their bytes through PD.STEP one by one, and all at once. -/

namespace Sys2Proof.Machine

section
variable {s t : State}

/-- PD.STEP does not read the result shown by the operation before it. -/
theorem dispatchAll_setResult (h : Legal s) (bs : Bytes) (v : Result) :
    dispatchAll bs (s.setResult v) = (dispatchAll bs s).map (fun t => t.setResult v) := by
  obtain ⟨t, es, ht, hframe, -⟩ := dispatchAll_spec h bs
  have hover : t.over s.rb s.dx s.inited s.consumer v s.sched = t.setResult v := by rw [hframe]; rfl
  calc dispatchAll bs (s.setResult v) = dispatchAll bs (s.over s.rb s.dx s.inited s.consumer v s.sched) := rfl
    _ = .ok (t.setResult v) := by rw [dispatchAll_over, ht, ← hover]; rfl
    _ = _ := by rw [ht]; rfl

theorem exec_pdStep_ok {b : Byte} (hr : ready [.pd, .bf, .lp] s = none) (h : dispatchStep b s = .ok t) :
    exec (.pdStep b) s = .next (t.setResult .none) := by
  simp only [exec, execPdStep, hr, guarded_none, h, finish_ok]

theorem parsersInited_congr (h : t.inited = s.inited) (hi : s.parsersInited) : t.parsersInited := by
  unfold State.parsersInited
  rwa [h]

/-- A run of at least one byte through PD.STEP, byte by byte, shows no result at its end. -/
theorem feed_pdStep_of_dispatchAll {b : Byte} {bs : Bytes} (hl : Legal s) (hi : s.parsersInited)
    (h : dispatchAll (b :: bs) s = .ok t) : feed .pdStep (b :: bs) s = .next (t.setResult .none) := by
  induction bs generalizing b s t with
  | nil =>
    obtain ⟨u, hu, -⟩ := dispatchStep_legal hl b
    obtain rfl : u = t := by simpa [dispatchAll, hu] using h
    simp only [feed, exec_pdStep_ok (ready_pd_bf_lp hl.cfg_valid hi) hu]
  | cons b' rest ih =>
    obtain ⟨u, hu, hlegal⟩ := dispatchStep_legal hl b
    have hrest : dispatchAll (b' :: rest) u = .ok t := by simpa only [dispatchAll, hu] using h
    have hshown : dispatchAll (b' :: rest) (u.setResult .none) = .ok (t.setResult .none) := by
      rw [dispatchAll_setResult hlegal, hrest]; rfl
    have hinit : u.parsersInited := parsersInited_congr (dispatchStep_consumerFrame hu).inited hi
    rw [feed, exec_pdStep_ok (ready_pd_bf_lp hl.cfg_valid hi) hu]
    exact ih (t := t.setResult .none) (hlegal.setResult _) hinit hshown

/-- The bytes of a wire unit, all at once, complete and come to the bytes one by one. -/
theorem dispatchAll_completes_as_feed (hl : Legal s) (hi : s.parsersInited) {bs : Bytes} (hne : bs ≠ []) :
    ∃ t, guarded (ready [.pd, .bf, .lp] s) (finish .none (dispatchAll bs s)) = .next t ∧ feed .pdStep bs s = .next t := by
  obtain ⟨b, rest, rfl⟩ := List.exists_cons_of_ne_nil hne
  obtain ⟨t, ht, -⟩ := dispatchAll_legal hl (b :: rest)
  refine ⟨t.setResult .none, ?_, feed_pdStep_of_dispatchAll hl hi ht⟩
  rw [ready_pd_bf_lp hl.cfg_valid hi, ht, guarded_none, finish_ok]

end

/-- Settles O37: both rows hand a non-empty run of bytes to PD.STEP. -/
theorem wireUnitsAreTheirBytes : Obligations.WireUnitsAreTheirBytes :=
  fun _ _ _ _ _ _ _ _ _ hl hi =>
    ⟨dispatchAll_completes_as_feed hl hi (List.cons_ne_nil _ _),
      dispatchAll_completes_as_feed hl hi (by simp [encodeLine])⟩

end Sys2Proof.Machine
end

section
/-! SUPPORT. POSITION_REPORT and DX.EXTRACT: where they enter, wait and are refused (R81, R109, R208, R219); and the schedule:
a transaction performed or entered (R82, R94, R106, R231). -/

namespace Sys2Proof.Machine

/-! ### Position reports (R109, R208) -/

section
variable {s : State} {p : Nat}

theorem ready_dx_rb (hv : s.cfg.valid = true) (hdx : s.inited.dx = true) (hrb : s.inited.rb = true) :
    ready [.dx, .rb] s = none :=
  ready_eq_none.2 ⟨hv, by simp [Inited.has, hdx, hrb]⟩

theorem needPosition_above (h : s.cfg.h < p) : needPosition p s = some .positionAboveCapacity :=
  if_neg (Nat.not_le.2 h)

theorem reportPosition_quiet (h : s.producerQuiet = true) : reportPosition p s = extractBegin p s := if_pos h

theorem reportPosition_waits (h : s.producerQuiet = false) : reportPosition p s = s.setReports (s.reports ++ [p]) := by
  simp [reportPosition, h]

theorem extractBegin_at_last (h : p = s.dx.last) : extractBegin p s = s := if_pos h

theorem extractBegin_moved (h : p ≠ s.dx.last) :
    extractBegin p s = s.setProducer (.extracting p (window s.cfg.h s.dx.last p)) := if_neg h

/-- Where the position may be reported, the count starts from it, and it is then entered or waits. -/
theorem exec_positionReport (hr : ready [.dx, .rb] s = none) (hp : p ≤ s.cfg.h) :
    exec (.positionReport p) s = .next ((reportPosition p (positionSeen p s)).setResult .none) := by
  simp only [exec, execPositionReport, hr, needPosition_eq_none.2 hp, Option.or_none, guarded_none, finish_ok]

theorem exec_positionReport_above (hr : ready [.dx, .rb] s = none) (hp : s.cfg.h < p) :
    exec (.positionReport p) s = .refused .positionAboveCapacity := by
  simp only [exec, execPositionReport, hr, needPosition_above hp, Option.none_or, guarded_some]

theorem extractCheck_above (hr : ready [.dx, .rb] s = none) (hp : s.cfg.h < p) :
    extractCheck p s = some .positionAboveCapacity := by
  simp [extractCheck, hr, needPosition_above hp]

theorem extractCheck_within (hr : ready [.dx, .rb] s = none) (hp : p ≤ s.cfg.h) :
    extractCheck p s = needNoExtraction s := by
  simp [extractCheck, hr, needPosition_eq_none.2 hp]

theorem exec_dxExtract_refused {r : Refusal} (h : extractCheck p s = some r) : exec (.dxExtract p) s = .refused r := by
  simp only [exec, execDxExtract, h, guarded_some]

end

/-- Settles O17: a report enters the extraction, does nothing or waits, and the checks of DX.EXTRACT refuse in their order. -/
theorem positionReportsAndRefusals : Obligations.PositionReportsAndRefusals := by
  intro s p hv hdx hrb
  have hr := ready_dx_rb hv hdx hrb
  let u := positionSeen p s
  refine ⟨fun hp => ⟨u.rx, rfl, fun hq hlast => ?_, fun hq hmoved => ?_, fun hq => ?_⟩,
    fun hp => ⟨?_, ?_⟩, fun q todo hp hprod => ?_, fun todo k hp hprod => ?_⟩
  · have hreport : reportPosition p u = u :=
      (reportPosition_quiet (s := u) hq).trans (extractBegin_at_last hlast)
    rw [exec_positionReport hr hp, hreport]
    rfl
  · have hreport : reportPosition p u = u.setProducer (.extracting p (window s.cfg.h s.dx.last p)) :=
      (reportPosition_quiet (s := u) hq).trans (extractBegin_moved hmoved)
    rw [exec_positionReport hr hp, hreport]
    rfl
  · have hreport : reportPosition p u = u.setReports (s.reports ++ [p]) := reportPosition_waits hq
    rw [exec_positionReport hr hp, hreport]
    rfl
  · exact exec_dxExtract_refused (extractCheck_above hr hp)
  · exact exec_positionReport_above hr hp
  · exact exec_dxExtract_refused (by rw [extractCheck_within hr hp, needNoExtraction, hprod])
  · exact exec_dxExtract_refused (by rw [extractCheck_within hr hp, needNoExtraction, hprod])

/-! ### The schedule (R82, R231) -/

section
variable {s : State} {rest : List Act}

theorem step_nil (h : s.sched = []) : step s = .next s := by rw [step, h]

theorem step_cons {a : Act} (h : s.sched = a :: rest) : step s = perform a (s.setSched rest) := by rw [step, h]

section
variable {who : Agent} {code : Code} {i : Instr}

theorem transactStep_decoded (hd : decode s.cfg code = .ok i) (hc : callerCheck who i s = none) :
    transactStep who code s = exec i s := by
  rw [transactStep, hd]
  simp only [hc, guarded_none]

theorem startStep_decoded (hd : decode s.cfg code = .ok i) (hc : callerCheck who i s = none) :
    startStep who code s = enter i s := by
  rw [startStep, hd]
  simp only [hc, guarded_none]

end

/-- Every row but the four of several steps is one step, and entering it runs it (R94, R106, R180). -/
theorem enter_eq_exec {i : Instr} (hw : ∀ bs, i ≠ .rbWriteN bs) (hr : ∀ n, i ≠ .rbReadN n)
    (hx : ∀ p, i ≠ .dxExtract p) (hc : i ≠ .consDrain) : enter i s = exec i s := by
  unfold enter
  split
  · exact absurd rfl (hw _)
  · exact absurd rfl (hr _)
  · exact absurd rfl (hx _)
  · exact absurd rfl hc
  · rfl

theorem enter_dxExtract_quiescent {p : Nat} (h : s.producer = .quiescent) :
    enter (.dxExtract p) s = exec (.positionReport p) s := by
  have hfree : needNoExtraction s = none := by rw [needNoExtraction, h]
  simp only [enter, extractCheck, hfree, Option.or_none, exec, execPositionReport]

/-- At its wait, the consumer enters CONS.DRAIN by its own next step (R180, R218). -/
theorem enter_consDrain_waiting (h : s.consumer = .waiting) : enter .consDrain s = consumerStep s := by
  have hwait : needAtWait s = none := if_pos h
  simp only [enter, drainCheck, hwait, Option.or_none, consumerStep, h]

end

/-- Settles O47: the step takes its item off the schedule and runs or enters the decoded row, row by row as above. -/
theorem stepRunsDecodedTransaction : Obligations.StepRunsDecodedTransaction := by
  refine ⟨fun s => ⟨step_nil, fun who code rest i hd hc => ⟨fun h => ?_, fun h => ?_⟩⟩,
    fun i s => enter_eq_exec, fun s p => enter_dxExtract_quiescent, fun s rest hw h => ?_⟩
  · exact (step_cons h).trans (transactStep_decoded hd hc)
  · exact (step_cons h).trans (startStep_decoded hd hc)
  · rw [step_cons h]
    exact enter_consDrain_waiting (s := s.setSched rest) hw

end Sys2Proof.Machine
end

section
/-! SUPPORT. The Ring Buffer's rows (40_ring_buffer.md): RB.INIT, RB.WRITE, RB.READ, RB.IS_EMPTY, RB.WRITE_N and RB.READ_N in
closed form, and what any sequence of ring calls keeps (R95, R96). -/

namespace Sys2Proof.Machine

/-! ### The occupancy (R24) -/

theorem occupancy_eq_zero_iff {n wr rd : Nat} (hw : wr < n) (hr : rd < n) : occupancy n wr rd = 0 ↔ wr = rd := by
  rw [occupancy_eq hw hr]
  split <;> omega

/-- The occupancy is the distance from the read index to the write index. -/
theorem add_occupancy_mod {n wr rd : Nat} (hw : wr < n) (hr : rd < n) : (rd + occupancy n wr rd) % n = wr := by
  rw [occupancy_eq hw hr]
  split
  · next hle => rw [Nat.add_sub_cancel' hle, Nat.mod_eq_of_lt hw]
  · rw [Nat.add_sub_cancel' (by omega), Nat.add_mod_right, Nat.mod_eq_of_lt hw]

/-! ### The rows in closed form -/

section
variable {s : State}

theorem exec_rbInit (hv : s.cfg.valid = true) (hp : s.producerQuiet = true) (hc : s.consumerQuiet = true) :
    exec .rbInit s = .next ((ringInit s).setResult .none) := by
  have hready : ready [] s = none := ready_eq_none.2 ⟨hv, by simp⟩
  simp only [exec, execRbInit, hready, needProducerQuiet, needConsumerQuiet, hp, hc, if_true, Option.or_none, guarded_none,
    finish_ok]

theorem exec_rbIsEmpty (hr : ready [.rb] s = none) :
    exec .rbIsEmpty s = .next (s.setResult (.empty (decide (s.rb.wr = s.rb.rd)))) := by
  simp only [exec, execRbIsEmpty, hr, guarded_none, finish_ok, ringEmpty, beq_eq_decide]

theorem exec_rbWriteN_eq (h : Legal s) (hi : s.inited.rb = true) (bs : Bytes) :
    exec (.rbWriteN bs) s = finishWith .stored (ringWriteN bs s) := by
  simp only [exec, execRbWriteN, ready_rb h hi, guarded_none]

theorem exec_rbReadN_eq (h : Legal s) (hi : s.inited.rb = true) (n : Nat) :
    exec (.rbReadN n) s = finishWith .bytes (ringReadN n s) := by
  simp only [exec, execRbReadN, ready_rb h hi, guarded_none]

/-! ### Sequences of ring calls (R95, R96) -/

/-- RB.WRITE on the contents: a successful one appends its byte, a failed one leaves them. -/
theorem exec_rbWrite_contents (h : Legal s) (hi : s.inited.rb = true) (b : Byte) :
    ∃ t ok, exec (.rbWrite b) s = .next t ∧ t.result = .ok ok ∧ Legal t ∧ t.inited.rb = true ∧
      t.ringContents = if ok then s.ringContents ++ [b] else s.ringContents := by
  obtain ⟨t, ok, hw, hl, ht, -, -, hcont, -⟩ := ringWrite_contents h b
  have hinit : t.inited.rb = true := by rw [ht]; exact hi
  exact ⟨t.setResult (.ok ok), ok, by rw [exec_rbWrite_eq h hi, hw, finishWith_ok], rfl, hl.setResult _, hinit, hcont⟩

/-- RB.READ on the contents: they were the byte taken, when there is one, and then what is left. -/
theorem exec_rbRead_contents (h : Legal s) (hi : s.inited.rb = true) :
    ∃ t got, exec .rbRead s = .next t ∧ t.result = .read got ∧ Legal t ∧ t.inited.rb = true ∧
      s.ringContents = got.toList ++ t.ringContents := by
  obtain ⟨t, hr, hl, ht, hcont, -⟩ := ringRead_contents h
  have hinit : t.inited.rb = true := by rw [ht]; exact hi
  refine ⟨t.setResult (.read s.ringContents.head?), s.ringContents.head?, by rw [exec_rbRead_eq h hi, hr, finishWith_ok], rfl,
    hl.setResult _, hinit, ?_⟩
  rw [State.ringContents_setResult, hcont]
  cases s.ringContents <;> rfl

variable {t u : State} {ops : List (Option Byte)} {written returned : Bytes}

theorem ringRun_write {b : Byte} {ok : Bool} (hx : exec (.rbWrite b) s = .next t) (hres : t.result = .ok ok)
    (hrun : ringRun ops t = some (written, returned, u)) :
    ringRun (some b :: ops) s = some (if ok then b :: written else written, returned, u) := by
  simp [ringRun, hx, hres, hrun]

theorem ringRun_read {got : Option Byte} (hx : exec .rbRead s = .next t) (hres : t.result = .read got)
    (hrun : ringRun ops t = some (written, returned, u)) :
    ringRun (none :: ops) s = some (written, got.toList ++ returned, u) := by
  cases got <;> simp [ringRun, hx, hres, hrun]

end

/-- Any sequence of ring calls completes and loses, duplicates or alters no byte: what the ring held and what was written since is
what was returned and what the ring holds. -/
theorem ringRun_conserves (ops : List (Option Byte)) {s : State} (h : Legal s) (hi : s.inited.rb = true) :
    ∃ written returned u, ringRun ops s = some (written, returned, u) ∧ Legal u ∧
      s.ringContents ++ written = returned ++ u.ringContents := by
  induction ops generalizing s with
  | nil => exact ⟨[], [], s, rfl, h, List.append_nil _⟩
  | cons op rest ih =>
    cases op with
    | some b =>
      obtain ⟨t, ok, hx, hres, hl, hinit, hcont⟩ := exec_rbWrite_contents h hi b
      obtain ⟨written, returned, u, hrun, hu, hlaw⟩ := ih hl hinit
      refine ⟨_, returned, u, ringRun_write hx hres hrun, hu, ?_⟩
      cases ok <;> simpa [hcont] using hlaw
    | none =>
      obtain ⟨t, got, hx, hres, hl, hinit, hcont⟩ := exec_rbRead_contents h hi
      obtain ⟨written, returned, u, hrun, hu, hlaw⟩ := ih hl hinit
      refine ⟨written, _, u, ringRun_read hx hres hrun, hu, ?_⟩
      rw [hcont, List.append_assoc, hlaw, List.append_assoc]

/-! ### The statements -/

/-- Settles O5: RB.INIT in closed form, and RB.INIT and RB.IS_EMPTY on what it leaves. -/
theorem rbInitEmptiesRing : Obligations.RbInitEmptiesRing := by
  intro s hv hp hc
  exact ⟨_, exec_rbInit hv hp hc, rfl, exec_rbInit (s := (ringInit s).setResult .none) hv hp hc,
    exec_rbIsEmpty (ready_eq_none.2 ⟨hv, by simp [ringInit, Inited.has]⟩)⟩

/-- Settles O6: RB.WRITE in closed form, and what the memory it stored into reads as. -/
theorem rbWriteStoresUnlessFull : Obligations.RbWriteStoresUnlessFull :=
  fun s b h hi => ⟨exec_rbWrite_full h hi, fun hroom =>
    ⟨s.rb.data.write s.rb.wr b, exec_rbWrite_stores h hi hroom, Memory.read_write h.rb_wf s.rb.wr b⟩⟩

/-- Settles O7: RB.READ in closed form. -/
theorem rbReadTakesUnlessEmpty : Obligations.RbReadTakesUnlessEmpty :=
  fun _ h hi => ⟨exec_rbRead_empty h hi, exec_rbRead_takes h hi⟩

/-- Settles O8: RB.IS_EMPTY in closed form, and the occupancy of two indices in range. -/
theorem rbIsEmptyAndOccupancy : Obligations.RbIsEmptyAndOccupancy :=
  fun _ h hi => ⟨exec_rbIsEmpty (ready_rb h hi), (occupancy_eq_zero_iff h.wr_lt h.rd_lt).symm,
    full_iff_occupancy h.wr_lt h.rd_lt, Nat.le_sub_one_of_lt (occupancy_lt h.wr_lt h.rd_lt),
    add_occupancy_mod h.wr_lt h.rd_lt⟩

/-- Settles O9: what RB.WRITE_N does to the contents, as the row. -/
theorem rbWriteNStoresWhatFits : Obligations.RbWriteNStoresWhatFits := by
  intro s bs h hi
  obtain ⟨t, k, hrun, -, ht, hrd, hk, hcont, hwr, hread⟩ := ringWriteN_contents h bs
  refine ⟨t.setResult (.stored k), k, by rw [exec_rbWriteN_eq h hi, hrun, finishWith_ok], hk, rfl, hcont, ?_, hread⟩
  have hrb : t.rb = { s.rb with wr := (s.rb.wr + k) % s.cfg.n, data := t.rb.data } := RingBuffer.ext hwr hrd rfl
  calc t.setResult (.stored k)
      = (s.setRb t.rb).setResult (.stored k) := by rw [← ht]
    _ = (s.setRb { s.rb with wr := (s.rb.wr + k) % s.cfg.n, data := t.rb.data }).setResult (.stored k) := by rw [← hrb]

/-- Settles O10: what RB.READ_N does to the contents, as the row. -/
theorem rbReadNTakesOldest : Obligations.RbReadNTakesOldest := by
  intro s n h hi
  obtain ⟨t, hrun, -, ht, hcont, hrd⟩ := ringReadN_contents h n
  refine ⟨t.setResult (.bytes (s.ringContents.take n)), by rw [exec_rbReadN_eq h hi, hrun, finishWith_ok], rfl, hcont, ?_⟩
  rw [← hrd]
  exact congrArg (State.setResult · _) ht

/-- Settles O11: RB.INIT leaves an empty ring, and from there no ring call loses a byte. -/
theorem ringIsFifo : Obligations.RingIsFifo := by
  intro s t h hinit ops
  obtain rfl : t = (ringInit s).setResult .none := eq_of_guarded_finish hinit
  have hlegal : Legal ((ringInit s).setResult .none) := h.ringInit.setResult _
  have hempty : ((ringInit s).setResult .none).ringContents = [] := (ringContents_eq_nil hlegal.wr_lt hlegal.rd_lt).2 rfl
  obtain ⟨written, returned, u, hrun, hu, hlaw⟩ := ringRun_conserves ops hlegal rfl
  rw [hempty, List.nil_append] at hlaw
  refine ⟨written, returned, u, hrun, hlaw, ?_, Nat.le_sub_one_of_lt (occupancy_lt hu.wr_lt hu.rd_lt)⟩
  rw [hlaw, List.length_append, Nat.add_sub_cancel_left, State.length_ringContents]

end Sys2Proof.Machine
end

section
/-! SUPPORT. The DMA Window Extractor (41_dma_extractor.md): the window, the INITs and resets, DX.EXTRACT as a row, and the
round trip through the ring (R100 to R105). -/

namespace Sys2Proof.Machine

/-! ### The window (R103, R251) -/

section
variable {h q p : Nat}

/-- The indices of a window run on from `q`, modulo `H`. -/
theorem getElem?_window (hq : q < h) (hp : p ≤ h) {j : Nat} (hj : j < (window h q p).length) :
    (window h q p)[j]? = some ((q + j) % h) := by
  rw [length_window] at hj
  unfold window
  split at hj
  · omega
  next hne =>
    rw [if_neg hne]
    split at hj
    next hlt =>
      rw [if_pos hlt, List.getElem?_range' hj, Nat.one_mul, Nat.mod_eq_of_lt (by omega)]
    next hge =>
      rw [if_neg hge]
      by_cases hhead : j < h - q
      · rw [List.getElem?_append_left (by simpa using hhead), List.getElem?_range' hhead, Nat.one_mul,
          Nat.mod_eq_of_lt (by omega)]
      · rw [List.getElem?_append_right (by simpa using hhead), List.length_range', List.getElem?_range (by omega),
          mod_of_lt_double (by omega), if_neg (by omega)]
        congr 1
        omega

theorem length_window_mod (hq : q < h) (hp : p < h) : (window h q p).length = (p + h - q) % h := by
  rw [length_window, mod_of_lt_double (by omega)]
  split
  · split <;> omega
  · split <;> split <;> omega

theorem length_window_le (hq : q < h) (hp : p ≤ h) : (window h q p).length ≤ h := by
  rw [length_window]
  split
  · omega
  · split <;> omega

end

/-- Settles O14: the length by the branches of the definition, the indices one by one. -/
theorem extractionWindow : Obligations.ExtractionWindow :=
  fun _ _ _ hq hp => ⟨length_window, length_window_mod hq, length_window_le hq hp, fun _ => getElem?_window hq hp⟩

/-! ### DX.EXTRACT as a row (R101) -/

section
variable {s t u : State} {p : Nat} {l : List Nat}

theorem extractCheck_quiescent (hready : ready [.dx, .rb] s = none) (hquiet : s.producer = .quiescent) (hp : p ≤ s.cfg.h) :
    extractCheck p s = none := by
  rw [extractCheck_within hready hp, needNoExtraction, hquiet]

theorem exec_dxExtract_eq (hcheck : extractCheck p s = none) :
    exec (.dxExtract p) s = finish .none (extractAll (s.reports ++ [p]) ((positionSeen p s).setReports [])) := by
  simp only [exec, execDxExtract, hcheck, guarded_none]

/-- The reports `l` and then `p` are served alike, whatever the fields hold that an extraction neither reads nor writes. -/
theorem exec_dxExtract_aside (hcheck : extractCheck p s = none) (hserved : extractAll (l ++ [p]) s = .ok t) (n r c) :
    exec (.dxExtract p) (s.aside n l r c) = .next (t.aside ((s.rx.pos + s.cfg.h - p) % s.cfg.h) [] .none c) := by
  have haside := extractAll_aside (l ++ [p]) s ((s.rx.pos + s.cfg.h - p) % s.cfg.h) [] r c
  rw [hserved] at haside
  exact (exec_dxExtract_eq (s := s.aside n l r c) hcheck).trans (congrArg (finish .none) haside)

theorem exec_dxExtract_serves (hcheck : extractCheck p s = none) (hserved : extractAll (s.reports ++ [p]) s = .ok t) :
    exec (.dxExtract p) s = .next (t.aside ((s.rx.pos + s.cfg.h - p) % s.cfg.h) [] .none s.sched) :=
  exec_dxExtract_aside hcheck hserved s.rx.unreported s.result s.sched

theorem extract_at_last (hlast : p = s.dx.last) : extract p s = .ok s := if_pos hlast

theorem extractAll_cons (hx : extract p s = .ok u) : extractAll (p :: l) s = extractAll l u := by
  rw [extractAll, hx]

theorem extractAll_singleton : extractAll [p] s = extract p s := by
  rw [extractAll]
  cases extract p s <;> rfl

/-- With no report waiting, `p` alone is served. -/
theorem exec_dxExtract_alone (hcheck : extractCheck p s = none) (hnone : s.reports = []) (hx : extract p s = .ok t) :
    exec (.dxExtract p) s = .next (t.aside ((s.rx.pos + s.cfg.h - p) % s.cfg.h) s.reports .none s.sched) := by
  have hserved : extractAll (s.reports ++ [p]) s = .ok t := by
    rw [hnone, List.nil_append, extractAll_singleton, hx]
  rw [exec_dxExtract_serves hcheck hserved, hnone]

/-- DX.EXTRACT at `dx.last` changes no state of the block (R101). -/
theorem exec_dxExtract_at_last (hcheck : extractCheck p s = none) (hnone : s.reports = []) (hlast : p = s.dx.last) :
    exec (.dxExtract p) s = .next { s with
      rx := { s.rx with unreported := (s.rx.pos + s.cfg.h - p) % s.cfg.h }, result := .none } :=
  exec_dxExtract_alone hcheck hnone (extract_at_last hlast)

/-- Served extractions change ring and extractor only, and not the ring's read index (R41, R101). -/
theorem aside_eq_of_frame (hframe : t = { s with rb := t.rb, dx := t.dx }) (hrd : t.rb.rd = s.rb.rd) (n l) :
    t.aside n l .none s.sched =
      { s with rb := { s.rb with wr := t.rb.wr, data := t.rb.data }, dx := t.dx, reports := l,
               rx := { s.rx with unreported := n }, result := .none } := by
  have hrb : t.rb = { s.rb with wr := t.rb.wr, data := t.rb.data } := RingBuffer.ext rfl hrd rfl
  rw [← hrb]
  exact congrArg (State.aside n l .none s.sched) hframe

/-- An extraction stores the bytes that fit and counts the others, a no-op among them: its window is empty. -/
theorem extract_contents (h : Legal s) (hp : p ≤ s.cfg.h) :
    ∃ t k d, extract p s = .ok t ∧ Legal t ∧ t = { s with rb := t.rb, dx := t.dx } ∧
      k + d = (s.windowBytes p).length ∧ k = min (s.windowBytes p).length (s.cfg.n - 1 - s.ringContents.length) ∧
      t.ringContents = s.ringContents ++ (s.windowBytes p).take k ∧
      t.dx.drops = min (s.dx.drops + d) (2 ^ s.cfg.w - 1) := by
  by_cases hlast : p = s.dx.last
  · have hempty : s.windowBytes p = [] := by simp [State.windowBytes, window, hlast]
    have hmax : s.dx.drops ≤ 2 ^ s.cfg.w - 1 := Nat.le_sub_one_of_lt h.drops_lt
    exact ⟨s, 0, 0, extract_at_last hlast, h, rfl, by simp [hempty], by simp [hempty], by simp, by simpa using hmax⟩
  · obtain ⟨t, k, d, hx, ht, hkd, hk, hframe, -, -, hcont, -⟩ := extract_spec h hp hlast
    have hdx : t.dx.drops = min (s.dx.drops + d) (2 ^ s.cfg.w - 1) := by rw [hframe]
    exact ⟨t, k, d, hx, ht, by rw [hframe], by rw [hkd, State.windowBytes, List.length_map], hk, hcont, hdx⟩

/-- With reports waiting, the oldest is served as a DX.EXTRACT of its own, and then the others with `p` (R109, log 29). -/
theorem exec_dxExtract_waiting {q : Nat} {rest : List Nat} (h : Legal s) (hready : ready [.dx, .rb] s = none)
    (hquiet : s.producer = .quiescent) (hp : p ≤ s.cfg.h) (hreports : s.reports = q :: rest) :
    ∃ u t, exec (.dxExtract q) { s with reports := [] } = .next u ∧
      exec (.dxExtract p) { u with reports := rest } = .next t ∧ exec (.dxExtract p) s = .next t ∧
      t = { s with rb := { s.rb with wr := t.rb.wr, data := t.rb.data }, dx := t.dx, reports := [],
                   rx := { s.rx with unreported := (s.rx.pos + s.cfg.h - p) % s.cfg.h }, result := .none } := by
  have hq : q ≤ s.cfg.h := h.reports_le q (by simp [hreports])
  have hle : ∀ r ∈ s.reports ++ [p], r ≤ s.cfg.h := List.forall_mem_append.2 ⟨h.reports_le, List.forall_mem_singleton.2 hp⟩
  obtain ⟨u, -, -, hu, -, huf, -⟩ := extract_contents h hq
  obtain ⟨t, hwhole, -, htf, htrd⟩ := extractAll_spec h hle
  have hthen : extractAll (rest ++ [p]) u = .ok t := by
    rw [← extractAll_cons hu, ← List.cons_append, ← hreports]
    exact hwhole
  have hcheck : extractCheck p u = none := by
    rw [huf]
    exact extractCheck_quiescent hready hquiet hp
  have hsecond := exec_dxExtract_aside hcheck hthen ((s.rx.pos + s.cfg.h - q) % s.cfg.h) .none s.sched
  have hpos : (u.rx.pos + u.cfg.h - p) % u.cfg.h = (s.rx.pos + s.cfg.h - p) % s.cfg.h := by rw [huf]
  rw [hpos] at hsecond
  exact ⟨_, _, exec_dxExtract_aside (l := []) (extractCheck_quiescent hready hquiet hq) (extractAll_cons hu) s.rx.unreported
    s.result s.sched, hsecond, exec_dxExtract_serves (extractCheck_quiescent hready hquiet hp) hwhole,
    aside_eq_of_frame htf htrd _ _⟩

end

/-- With no report waiting and the position moved (R101 to R103, R107). -/
theorem exec_dxExtract_moved {s : State} {p : Nat} (h : Legal s) (hready : ready [.dx, .rb] s = none)
    (hquiet : s.producer = .quiescent) (hp : p ≤ s.cfg.h) (hnone : s.reports = []) (hmoved : p ≠ s.dx.last) :
    ∃ t k d, exec (.dxExtract p) s = .next t ∧ k + d = (window s.cfg.h s.dx.last p).length ∧
      k = min (s.windowBytes p).length (s.cfg.n - 1 - s.ringContents.length) ∧
      t.ringContents = s.ringContents ++ (s.windowBytes p).take k ∧
      t.dx = { last := normalise s.cfg.h p, drops := min (s.dx.drops + d) (2 ^ s.cfg.w - 1), wake := true } ∧
      t = { s with rb := { s.rb with wr := (s.rb.wr + k) % s.cfg.n, data := t.rb.data }, dx := t.dx,
                   rx := { s.rx with unreported := (s.rx.pos + s.cfg.h - p) % s.cfg.h }, result := .none } ∧
      ∀ a, (∀ j, j < k → a ≠ (s.rb.wr + j) % s.cfg.n) → t.rb.data.read a = s.rb.data.read a := by
  obtain ⟨t, k, d, hx, -, hkd, hk, hframe, hrd, hwr, hcont, hread⟩ := extract_spec h hp hmoved
  have hdx : t.dx = { last := normalise s.cfg.h p, drops := min (s.dx.drops + d) (2 ^ s.cfg.w - 1), wake := true } := by
    rw [hframe]
  rw [← hdx] at hframe
  refine ⟨_, k, d, exec_dxExtract_alone (extractCheck_quiescent hready hquiet hp) hnone hx, hkd, hk, hcont, hdx, ?_, hread⟩
  rw [← hwr]
  exact aside_eq_of_frame hframe hrd _ _

/-- Settles O15: the three cases of the row, and the window's indices. -/
theorem dxExtractPushesWindow : Obligations.DxExtractPushesWindow := by
  intro s p h hdx hrb hquiet hp
  have hready := ready_dx_rb h.cfg_valid hdx hrb
  refine ⟨fun q rest hreports => exec_dxExtract_waiting h hready hquiet hp hreports,
    exec_dxExtract_at_last (extractCheck_quiescent hready hquiet hp), fun hnone hmoved => ?_⟩
  obtain ⟨t, k, d, hx, hkd, hk, hcont, htdx, hframe, hread⟩ := exec_dxExtract_moved h hready hquiet hp hnone hmoved
  refine ⟨t, k, d, hx, ?_, fun hlt => hkd.trans (length_window_mod h.last_lt hlt), fun j hj => ?_, hk, hcont, htdx, hframe, hread⟩
  · rw [hkd, length_window, if_neg hmoved]
  · rw [State.windowBytes, List.getElem?_map, getElem?_window h.last_lt hp (hkd ▸ hj), Option.map_some]

/-! ### The round trip (R104) -/

/-- RB.READ on a ring that holds a byte takes the oldest (R92). -/
theorem exec_rbRead_oldest {s : State} {b : Byte} {bs : Bytes} (h : Legal s) (hi : s.inited.rb = true)
    (hcont : s.ringContents = b :: bs) :
    ∃ t, exec .rbRead s = .next t ∧ t.result = .read (some b) ∧ Legal t ∧ t.inited.rb = true ∧ t.ringContents = bs := by
  obtain ⟨t, hr, hl, ht, hrest, -⟩ := ringRead_contents h
  have hinit : t.inited.rb = true := by rw [ht]; exact hi
  rw [hcont] at hr hrest
  exact ⟨t.setResult (.read (some b)), by rw [exec_rbRead_eq h hi, hr]; rfl, rfl, hl.setResult _, hinit, hrest⟩

/-- One RB.READ per byte takes what the ring holds, in order, and leaves it empty. -/
theorem ringRun_reads_contents {s : State} (h : Legal s) (hi : s.inited.rb = true) :
    ∃ u, ringRun (List.replicate s.ringContents.length none) s = some ([], s.ringContents, u) ∧ Legal u ∧
      u.inited.rb = true ∧ u.ringContents = [] := by
  induction hcont : s.ringContents generalizing s with
  | nil => exact ⟨s, rfl, h, hi, hcont⟩
  | cons b bs ih =>
    obtain ⟨t, hx, hres, hl, hinit, hrest⟩ := exec_rbRead_oldest h hi hcont
    obtain ⟨u, hrun, hu⟩ := ih hl hinit hrest
    exact ⟨u, ringRun_read hx hres hrun, hu⟩

/-- Settles O16: the whole window fits into the empty ring, and the reads take it. -/
theorem extractThenReadRoundTrip : Obligations.ExtractThenReadRoundTrip := by
  intro s p h hdx hrb hfree hp hempty hfits
  obtain ⟨hquiet, hnone⟩ : s.producer = .quiescent ∧ s.reports = [] := by simpa [State.producerQuiet] using hfree
  obtain ⟨t, k, d, hx, -, -, hkd, hk, hcont, hdrops⟩ := extract_contents h hp
  rw [(ringContents_eq_nil h.wr_lt h.rd_lt).2 hempty] at hk hcont
  have hall : k = (s.windowBytes p).length := by simpa [hfits] using hk
  have hkept : t.dx.drops = s.dx.drops := by
    have := h.drops_lt
    omega
  have hexec := exec_dxExtract_alone
    (extractCheck_quiescent (ready_dx_rb h.cfg_valid hdx hrb) hquiet hp) hnone hx
  generalize hv : t.aside _ s.reports .none s.sched = v at hexec
  have hvl : Legal v := (ensures_iff.1 (exec_safe h _)).2 v hexec
  have hvi : v.inited.rb = true := by rw [(exec_producerFrame rfl hexec).inited, hrb]
  have hread : t.ringContents = s.windowBytes p := by simpa [hall] using hcont
  have hvc : v.ringContents = s.windowBytes p := by rw [← hv]; exact hread
  obtain ⟨u, hrun, hu, hui, huc⟩ := ringRun_reads_contents hvl hvi
  rw [hvc] at hrun
  exact ⟨v, u, hexec, by rw [← hv]; exact hkept, hrun,
    exec_rbRead_empty hu hui ((ringContents_eq_nil hu.wr_lt hu.rd_lt).1 huc)⟩

/-! ### The INITs and resets (R100, R105, R120, R140, R160, R182) -/

section
variable {s : State}

theorem needProducerQuiet_eq_none (h : s.producerQuiet = true) : needProducerQuiet s = none := by
  rw [needProducerQuiet, if_pos h]

theorem needConsumerQuiet_eq_none (h : s.consumerQuiet = true) : needConsumerQuiet s = none := by
  rw [needConsumerQuiet, if_pos h]

/-- Nothing need be initialised for an INIT (R42). -/
theorem ready_init (hv : s.cfg.valid = true) : ready [] s = none := ready_eq_none.2 ⟨hv, by simp⟩

theorem ready_dx (hv : s.cfg.valid = true) (hdx : s.inited.dx = true) : ready [.dx] s = none :=
  ready_eq_none.2 ⟨hv, by simpa [Inited.has] using hdx⟩

theorem exec_dxInit (hv : s.cfg.valid = true) (hq : s.producerQuiet = true) :
    exec .dxInit s = .next ((extractorInit s).setResult .none) := by
  simp only [exec, execDxInit, ready_init hv, needProducerQuiet_eq_none hq, Option.or_none, guarded_none, finish_ok]

theorem exec_dxReset (hv : s.cfg.valid = true) (hdx : s.inited.dx = true) (hq : s.producerQuiet = true) :
    exec .dxReset s = .next ((extractorReset s).setResult .none) := by
  simp only [exec, execDxReset, ready_dx hv hdx, needProducerQuiet_eq_none hq, Option.or_none, guarded_none, finish_ok]

theorem exec_sysRxReinit (hv : s.cfg.valid = true) (hdx : s.inited.dx = true) (hq : s.producerQuiet = true) :
    exec .sysRxReinit s = .next ((extractorReset (receiverRestart s)).setResult .none) := by
  simp only [exec, execSysRxReinit, ready_dx hv hdx, needProducerQuiet_eq_none hq, Option.or_none, guarded_none, finish_ok]

theorem exec_pdInit (hv : s.cfg.valid = true) (hq : s.consumerQuiet = true) :
    exec .pdInit s = .next ((dispatcherInit s).setResult .none) := by
  simp only [exec, execPdInit, ready_init hv, needConsumerQuiet_eq_none hq, Option.or_none, guarded_none, finish_ok]

theorem exec_bfInit (hv : s.cfg.valid = true) (hq : s.consumerQuiet = true) :
    exec .bfInit s = .next ((frameInit s).setResult .none) := by
  simp only [exec, execBfInit, ready_init hv, needConsumerQuiet_eq_none hq, Option.or_none, guarded_none, finish_ok]

theorem exec_lpInit (hv : s.cfg.valid = true) (hq : s.consumerQuiet = true) :
    exec .lpInit s = .next ((lineInit s).setResult .none) := by
  simp only [exec, execLpInit, ready_init hv, needConsumerQuiet_eq_none hq, Option.or_none, guarded_none, finish_ok]

/-- With the receiver at position 0, no stored byte is unreported (R182, log 7). -/
theorem extractorReset_receiverRestart (s : State) :
    extractorReset (receiverRestart s) = { s with dx := { s.dx with last := 0 }, rx := { s.rx with pos := 0, unreported := 0 } } := by
  have hcount : (0 + s.cfg.h - 0) % s.cfg.h = 0 := by simp
  show { s with dx := { s.dx with last := 0 }, rx := { s.rx with pos := 0, unreported := (0 + s.cfg.h - 0) % s.cfg.h } } = _
  rw [hcount]

end

/-- Settles O13: the six rows in closed form, and DX.EXTRACT at the position DX.INIT leaves. -/
theorem resetsAndInits : Obligations.ResetsAndInits := by
  intro s hv
  refine ⟨fun hq => ⟨⟨_, exec_dxInit hv hq, rfl, fun hrb => ?_⟩,
      fun hdx => ⟨exec_dxReset hv hdx hq, ?_⟩⟩,
    fun hq => ⟨exec_pdInit hv hq, exec_bfInit hv hq, exec_lpInit hv hq⟩⟩
  · obtain ⟨hquiet, hnone⟩ : s.producer = .quiescent ∧ s.reports = [] := by simpa [State.producerQuiet] using hq
    have hready : ready [.dx, .rb] ((extractorInit s).setResult .none) = none := ready_dx_rb hv rfl hrb
    exact exec_dxExtract_at_last (extractCheck_quiescent hready hquiet (Nat.zero_le _)) hnone rfl
  · rw [exec_sysRxReinit hv hdx hq, extractorReset_receiverRestart]
    rfl

end Sys2Proof.Machine
end

section
/-! SUPPORT. The producer's own steps (R84, R94, R101, R106, R109): one in closed form, and runs of them next to the
uninterrupted rows. -/

namespace Sys2Proof.Machine

/-! ### One step (R94, R101, R106, R109) -/

/-- `b` stored at the write index, and the index published (R57, R91). -/
def State.storing (b : Byte) (s : State) : State :=
  s.setRb { s.rb with data := s.rb.data.write s.rb.wr b, wr := nextIndex s.cfg.n s.rb.wr }

section
variable {s : State} {p i k : Nat} {b : Byte}

/-- Everything one push can do from a state of the invariant (R101, R102). -/
theorem pushIndex_cases (h : Legal s) (hi : i < s.cfg.h) :
    (nextIndex s.cfg.n s.rb.wr = s.rb.rd ∧
      pushIndex i s = .ok (s.setDx { s.dx with drops := min (s.dx.drops + 1) (2 ^ s.cfg.w - 1) })) ∨
    (nextIndex s.cfg.n s.rb.wr ≠ s.rb.rd ∧ pushIndex i s = .ok (s.storing (s.rx.hwbuf.read i))) := by
  rcases ringWrite_cases h (s.rx.hwbuf.read i) with ⟨hfull, hw⟩ | ⟨hroom, hw⟩
  · exact .inl ⟨hfull, by simp only [pushIndex, memRead_ok hi, push, hw, satInc_eq h.drops_lt]⟩
  · exact .inr ⟨hroom, by simp only [pushIndex, memRead_ok hi, push, hw, State.storing]⟩

theorem index_lt_of_extracting {todo : List Nat} (h : Legal s) (hphase : s.producer = .extracting p (i :: todo)) :
    i < s.cfg.h := by
  have hrange := h.producer_ranges
  rw [hphase] at hrange
  exact hrange.2 i List.mem_cons_self

theorem producerStep_extracting {todo : List Nat} (hready : ready [.dx, .rb] s = none)
    (hphase : s.producer = .extracting p todo) : producerStep s = finish .none (extractStep p todo s) := by
  simp only [producerStep, hphase, hready, guarded_none]

theorem producerStep_writing {todo : Bytes} (hready : ready [.rb] s = none) (hphase : s.producer = .writing todo k) :
    producerStep s = finishWith id (writeNStep todo k s) := by
  simp only [producerStep, hphase, hready, guarded_none]

theorem producerStep_stores_index {todo : List Nat} (h : Legal s) (hready : ready [.dx, .rb] s = none)
    (hphase : s.producer = .extracting p (i :: todo)) (hroom : nextIndex s.cfg.n s.rb.wr ≠ s.rb.rd) :
    producerStep s =
      .next (((s.storing (s.rx.hwbuf.read i)).setProducer (.extracting p todo)).setResult .none) := by
  rcases pushIndex_cases h (index_lt_of_extracting h hphase) with ⟨hfull, -⟩ | ⟨-, hpush⟩
  · exact absurd hfull hroom
  · rw [producerStep_extracting hready hphase, extractStep, hpush]
    rfl

theorem producerStep_drops_index {todo : List Nat} (h : Legal s) (hready : ready [.dx, .rb] s = none)
    (hphase : s.producer = .extracting p (i :: todo)) (hfull : nextIndex s.cfg.n s.rb.wr = s.rb.rd) :
    producerStep s =
      .next (((s.setDx { s.dx with drops := min (s.dx.drops + 1) (2 ^ s.cfg.w - 1) }).setProducer
        (.extracting p todo)).setResult .none) := by
  rcases pushIndex_cases h (index_lt_of_extracting h hphase) with ⟨-, hpush⟩ | ⟨hroom, -⟩
  · rw [producerStep_extracting hready hphase, extractStep, hpush]
    rfl
  · exact absurd hfull hroom

theorem producerStep_ends (hready : ready [.dx, .rb] s = none) (hphase : s.producer = .extracting p []) :
    producerStep s = .next (((extractEnd p s).setProducer .quiescent).setResult .none) :=
  producerStep_extracting hready hphase

theorem producerStep_serves {ps : List Nat} (hready : ready [.dx, .rb] s = none) (hphase : s.producer = .quiescent)
    (hreports : s.reports = p :: ps) :
    producerStep s = .next ((extractBegin p (s.setReports ps)).setResult .none) := by
  simp only [producerStep, hphase, hready, guarded_none, serveReport, hreports, finish_ok]

theorem producerStep_idles (hready : ready [.dx, .rb] s = none) (hphase : s.producer = .quiescent) (hnone : s.reports = []) :
    producerStep s = .next s := by
  simp only [producerStep, hphase, hready, guarded_none, serveReport, hnone]

theorem producerStep_stores_byte {todo : Bytes} (h : Legal s) (hready : ready [.rb] s = none)
    (hphase : s.producer = .writing (b :: todo) k) (hroom : nextIndex s.cfg.n s.rb.wr ≠ s.rb.rd) :
    producerStep s = .next (((s.storing b).setProducer (.writing todo (k + 1))).setResult (.ok true)) := by
  rcases writeNStep_cases h (b :: todo) k with ⟨hdone, -⟩ | ⟨_, _, hcons, -, hstep⟩
  · simp [hroom] at hdone
  · cases hcons
    rw [producerStep_writing hready hphase, hstep]
    rfl

theorem producerStep_returns {todo : Bytes} (h : Legal s) (hready : ready [.rb] s = none)
    (hphase : s.producer = .writing todo k) (hdone : todo = [] ∨ nextIndex s.cfg.n s.rb.wr = s.rb.rd) :
    producerStep s = .next ((s.setProducer .quiescent).setResult (.stored k)) := by
  rcases writeNStep_cases h todo k with ⟨-, hstep⟩ | ⟨_, _, hcons, hroom, -⟩
  · rw [producerStep_writing hready hphase, hstep]
    rfl
  · simp [hcons, hroom] at hdone

/-- Entering an extraction is a change of the producer's phase alone, and none at `dx.last` (R101). -/
theorem extractBegin_eq_setProducer (hquiet : s.producer = .quiescent) :
    extractBegin p s =
      s.setProducer (if p = s.dx.last then .quiescent else .extracting p (window s.cfg.h s.dx.last p)) := by
  split
  next hlast =>
    rw [extractBegin_at_last hlast, ← hquiet]
    rfl
  next hmoved => exact extractBegin_moved hmoved

theorem enter_rbWriteN {bs : Bytes} (hready : ready [.rb] s = none) :
    enter (.rbWriteN bs) s = .next ((s.setProducer (.writing bs 0)).setResult .none) := by
  simp only [enter, hready, guarded_none, finish_ok]

end

/-- Settles O18: the step takes its item off the schedule, and is the producer's step in each phase as above. -/
theorem producerStepEffect : Obligations.ProducerStepEffect := by
  intro s rest h hdx hrb
  refine ⟨fun hsched => ?_, fun bs => enter_rbWriteN (ready_rb h hrb)⟩
  let u := s.setSched rest
  have hstep : step s = producerStep u := step_cons hsched
  have hu : Legal u := h.setSched rest
  have hready : ready [.dx, .rb] u = none := ready_dx_rb h.cfg_valid hdx hrb
  have hring : ready [.rb] u = none := ready_rb hu hrb
  rw [hstep]
  refine ⟨fun p i todo hphase => ⟨fun hroom => ⟨_, producerStep_stores_index hu hready hphase hroom, ?_⟩,
      producerStep_drops_index hu hready hphase⟩,
    fun p => producerStep_ends hready, fun p ps hphase hreports => ?_, producerStep_idles hready,
    fun b todo k hphase => ⟨fun hroom => ⟨_, producerStep_stores_byte hu hring hphase hroom, ?_⟩,
      fun hfull => producerStep_returns hu hring hphase (.inr hfull)⟩,
    fun k hphase => producerStep_returns hu hring hphase (.inl rfl)⟩
  · exact Memory.read_write h.rb_wf s.rb.wr (s.rx.hwbuf.read i)
  · rw [producerStep_serves hready hphase hreports, extractBegin_eq_setProducer (s := u.setReports ps) hphase]
    rfl
  · exact Memory.read_write h.rb_wf s.rb.wr b

/-! ### Runs of steps -/

theorem runSteps_succ {k : Nat} {s t : State} (h : step s = .next t) : runSteps (k + 1) s = runSteps k t := by
  rw [runSteps, h]

theorem runSteps_add {m : Nat} (n : Nat) {s t : State} (h : runSteps m s = .next t) :
    runSteps (m + n) s = runSteps n t := by
  induction m generalizing s with
  | zero =>
    cases h
    rw [Nat.zero_add]
  | succ m ih =>
    unfold runSteps at h
    split at h
    next u hu => rw [Nat.succ_add, runSteps_succ hu, ih h]
    · cases h
    · cases h

/-- The state `s` while the producer is in phase `ph`, with the reports `q` waiting, the result `r` shown and the schedule `c`. -/
def State.amid (ph : ProducerPhase) (q : List Nat) (r : Result) (c : List Act) (s : State) : State :=
  { s with producer := ph, reports := q, result := r, sched := c }

/-- RB.WRITE neither reads nor writes those fields (R91). -/
theorem ringWrite_amid (b : Byte) (s : State) (ph q r c) :
    ringWrite b (s.amid ph q r c) = (ringWrite b s).map (fun x => (x.1, x.2.amid ph q r c)) := by
  rw [ringWrite, ringWrite, show (s.amid ph q r c).rb = s.rb from rfl, show (s.amid ph q r c).cfg = s.cfg from rfl]
  cases ringFull s.cfg.n s.rb.wr s.rb.rd
  · cases memWrite .rb s.cfg.n s.rb.wr b s.rb.data <;> rfl
  · rfl

/-- Nor does a push (R101, R102). -/
theorem pushIndex_amid (i : Nat) (s : State) (ph q r c) :
    pushIndex i (s.amid ph q r c) = (pushIndex i s).map (State.amid ph q r c) := by
  rw [pushIndex, pushIndex, show (s.amid ph q r c).cfg = s.cfg from rfl, show (s.amid ph q r c).rx = s.rx from rfl]
  cases memRead .hwbuf s.cfg.h i s.rx.hwbuf with
  | error f => rfl
  | ok b =>
    simp only [push, ringWrite_amid]
    rcases ringWrite b s with f | ⟨_ | _, t⟩ <;> rfl

theorem step_amid_producer (s : State) (ph q r c) :
    step (s.amid ph q r (.producer :: c)) = producerStep (s.amid ph q r c) := rfl

/-- Where these fields stand as they are to be, only the result is to be shown. -/
theorem amid_eq_setResult {s : State} {ph q c} (hphase : s.producer = ph) (hreports : s.reports = q) (hsched : s.sched = c)
    (r : Result) : s.amid ph q r c = s.setResult r := by
  subst hphase hreports hsched
  rfl

section
variable {s t u : State} {p k : Nat} {q : List Nat} {r : Result} {rest : List Act}

theorem ProducerFrame.ready_eq (h : ProducerFrame s t) (l : List SubBlock) : ready l t = ready l s := by
  rw [ready, ready, h.cfg, h.inited]

theorem pushAll_cons_eq_ok {i : Nat} {todo : List Nat} (h : pushAll (i :: todo) s = .ok t) :
    ∃ u, pushIndex i s = .ok u ∧ pushAll todo u = .ok t := by
  unfold pushAll at h
  split at h
  · cases h
  next u hu => exact ⟨u, hu, h⟩

theorem extract_moved_eq_ok (hmoved : p ≠ s.dx.last) (h : extract p s = .ok t) :
    ∃ u, pushAll (window s.cfg.h s.dx.last p) s = .ok u ∧ t = extractEnd p u := by
  rw [extract, if_neg hmoved] at h
  split at h
  · cases h
  next u hu => exact ⟨u, hu, (Except.ok.inj h).symm⟩

/-! ### DX.EXTRACT step by step (R106) -/

/-- One step for each index left and one for the end come to the pushes and the end. -/
theorem runSteps_extracting {todo : List Nat} (hready : ready [.dx, .rb] s = none) (h : pushAll todo s = .ok t) :
    runSteps (todo.length + 1)
        (s.amid (.extracting p todo) q .none (List.replicate (todo.length + 1) .producer ++ rest)) =
      .next ((extractEnd p t).amid .quiescent q .none rest) := by
  induction todo generalizing s with
  | nil =>
    cases h
    exact runSteps_succ (producerStep_ends (s := t.amid (.extracting p []) q .none rest) hready rfl)
  | cons i todo ih =>
    obtain ⟨u, hu, ht⟩ := pushAll_cons_eq_ok h
    let c := List.replicate (todo.length + 1) Act.producer ++ rest
    have hstep : step (s.amid (.extracting p (i :: todo)) q .none (.producer :: c)) =
        .next (u.amid (.extracting p todo) q .none c) := by
      rw [step_amid_producer, producerStep_extracting (s := s.amid _ q .none c) hready rfl, extractStep, pushIndex_amid, hu]
      rfl
    exact (runSteps_succ hstep).trans (ih (((pushIndex_producerFrame hu).ready_eq _).trans hready) ht)

/-- An extraction entered and carried on comes to the extraction run whole. -/
theorem runSteps_extract (hready : ready [.dx, .rb] s = none) (hmoved : p ≠ s.dx.last) (h : extract p s = .ok t) :
    runSteps ((window s.cfg.h s.dx.last p).length + 1)
        (s.amid (.extracting p (window s.cfg.h s.dx.last p)) q .none
          (List.replicate ((window s.cfg.h s.dx.last p).length + 1) .producer ++ rest)) =
      .next (t.amid .quiescent q .none rest) := by
  obtain ⟨u, hu, rfl⟩ := extract_moved_eq_ok hmoved h
  exact runSteps_extracting hready hu

/-- The oldest report, entered by a step of its own and carried on, comes to its extraction run whole (R109). -/
theorem runSteps_serve_oldest {l : List Nat} (hready : ready [.dx, .rb] s = none) (h : extract p s = .ok t) :
    runSteps (if p = s.dx.last then 1 else (window s.cfg.h s.dx.last p).length + 2)
        (s.amid .quiescent (p :: l) .none
          (List.replicate (if p = s.dx.last then 1 else (window s.cfg.h s.dx.last p).length + 2) .producer ++ rest)) =
      .next (t.amid .quiescent l .none rest) := by
  have hstep (c : List Act) : step (s.amid .quiescent (p :: l) .none (.producer :: c)) =
      .next (s.amid (if p = s.dx.last then .quiescent else .extracting p (window s.cfg.h s.dx.last p)) l .none c) := by
    rw [step_amid_producer, producerStep_serves (s := s.amid _ _ .none c) hready rfl rfl,
      extractBegin_eq_setProducer (s := (s.amid .quiescent (p :: l) .none c).setReports l) rfl]
    rfl
  by_cases hlast : p = s.dx.last
  · simp only [if_pos hlast] at hstep ⊢
    rw [extract_at_last hlast] at h
    cases h
    exact runSteps_succ (hstep rest)
  · simp only [if_neg hlast] at hstep ⊢
    exact (runSteps_succ (hstep _)).trans (runSteps_extract hready hlast h)

theorem extract_last (h : Legal s) (hx : extract p s = .ok t) : t.dx.last = normalise s.cfg.h p := by
  by_cases hlast : p = s.dx.last
  · rw [extract_at_last hlast] at hx
    cases hx
    have hlt := h.last_lt
    rw [normalise, if_neg (by omega), hlast]
  · obtain ⟨u, hu, rfl⟩ := extract_moved_eq_ok hlast hx
    rw [← (pushAll_producerFrame hu).cfg]
    rfl

/-- Positions that wait, served one after another by the producer's own steps, come to their extractions run whole (R109). -/
theorem runSteps_serve {l : List Nat} (hs : Legal s) (hready : ready [.dx, .rb] s = none) (hl : ∀ p ∈ l, p ≤ s.cfg.h)
    (h : extractAll l s = .ok t) :
    runSteps (serveSteps s.cfg.h s.dx.last l)
        (s.amid .quiescent l .none (List.replicate (serveSteps s.cfg.h s.dx.last l) .producer ++ rest)) =
      .next (t.amid .quiescent [] .none rest) := by
  induction l generalizing s with
  | nil =>
    cases h
    rfl
  | cons p l ih =>
    obtain ⟨hp, hl⟩ := List.forall_mem_cons.1 hl
    obtain ⟨u, -, -, hu, hul, -⟩ := extract_contents hs hp
    have hframe := extract_producerFrame hu
    rw [extractAll_cons hu] at h
    rw [serveSteps, List.replicate_add, List.append_assoc, runSteps_add _ (runSteps_serve_oldest hready hu),
      ← extract_last hs hu, ← hframe.cfg]
    exact ih hul ((hframe.ready_eq _).trans hready) (hframe.cfg ▸ hl) h

/-! ### The rows next to their steps -/

/-- DX.EXTRACT uninterrupted (R101): it leaves the state that the producer's own steps come to. -/
theorem exec_dxExtract_amid (h : Legal s) (hready : ready [.dx, .rb] s = none) (hquiet : s.producer = .quiescent)
    (hp : p ≤ s.cfg.h) :
    ∃ t, extractAll (s.reports ++ [p]) ((positionSeen p s).setReports []) = .ok t ∧
      exec (.dxExtract p) s = .next (t.amid .quiescent [] .none s.sched) := by
  have hseen : Legal ((positionSeen p s).setReports []) := (h.positionSeen p).setReports (by simp)
  obtain ⟨t, hall, -, hframe, -⟩ := extractAll_spec (l := s.reports ++ [p]) hseen
    (List.forall_mem_append.2 ⟨h.reports_le, List.forall_mem_singleton.2 hp⟩)
  refine ⟨t, hall, ?_⟩
  have hclosed : t.amid .quiescent [] .none s.sched = t.setResult .none :=
    amid_eq_setResult (by rw [hframe]; exact hquiet) (by rw [hframe]; rfl) (by rw [hframe]; rfl) .none
  rw [exec_dxExtract_eq (extractCheck_quiescent hready hquiet hp), hall, hclosed, finish_ok]

/-- A position report to a free producer enters the extraction (R109). -/
theorem exec_positionReport_enters (hready : ready [.dx, .rb] s = none) (hquiet : s.producer = .quiescent)
    (hnone : s.reports = []) (hp : p ≤ s.cfg.h) (hmoved : p ≠ s.dx.last) :
    exec (.positionReport p) s = .next
      (((positionSeen p s).setReports []).amid (.extracting p (window s.cfg.h s.dx.last p)) [] .none s.sched) := by
  have hfree : (positionSeen p s).producerQuiet = true := by
    simp [State.producerQuiet, positionSeen, hquiet, hnone]
  rw [exec_positionReport hready hp, reportPosition_quiet hfree, extractBegin_moved (s := positionSeen p s) hmoved, State.amid,
    ← hnone]
  rfl

/-- A position report behind others waits (R109). -/
theorem exec_positionReport_waits (hready : ready [.dx, .rb] s = none) (hquiet : s.producer = .quiescent)
    (hsome : s.reports ≠ []) (hp : p ≤ s.cfg.h) :
    exec (.positionReport p) s = .next
      (((positionSeen p s).setReports []).amid .quiescent (s.reports ++ [p]) .none s.sched) := by
  have hbusy : (positionSeen p s).producerQuiet = false := by
    simp [State.producerQuiet, positionSeen, hsome]
  rw [exec_positionReport hready hp, reportPosition_waits hbusy, State.amid, ← hquiet]
  rfl

theorem decode_encode_dxExtract {c : Cfg} (hp : p ≤ c.h) : decode c (encode c (.dxExtract p)) = .ok (.dxExtract p) := by
  simp [encode, decode, decodePort, decodePosition, Nat.not_le.2 (Cfg.lt_posw hp), Nat.not_lt.2 hp]

theorem step_start_dxExtract (hquiet : s.producer = .quiescent) (hp : p ≤ s.cfg.h)
    (hsched : s.sched = .start .producer (encode s.cfg (.dxExtract p)) :: rest) :
    step s = exec (.positionReport p) (s.setSched rest) := by
  have hcaller : callerCheck .producer (.dxExtract p) (s.setSched rest) = none := by simp [callerCheck, callers, busyCaller]
  rw [step_cons hsched, ← enter_dxExtract_quiescent (s := s.setSched rest) hquiet]
  exact startStep_decoded (decode_encode_dxExtract hp) hcaller

/-! ### RB.WRITE_N step by step (R94) -/

/-- RB.WRITE_N ended at its first RB.WRITE, or went on behind it. -/
theorem ringWriteN_cons_eq_ok {b : Byte} {bs : Bytes} (h : ringWriteN (b :: bs) s = .ok (k, t)) :
    (k = 0 ∧ ringWrite b s = .ok (false, t)) ∨
      ∃ n u, k = n + 1 ∧ ringWrite b s = .ok (true, u) ∧ ringWriteN bs u = .ok (n, t) := by
  unfold ringWriteN at h
  split at h
  · cases h
  next u hu =>
    cases h
    exact .inl ⟨rfl, hu⟩
  next u hu =>
    split at h
    · cases h
    next n v hv =>
      cases h
      exact .inr ⟨n, u, rfl, hu, hv⟩

theorem step_amid_writing {bs : Bytes} (hready : ready [.rb] s = none) :
    step (s.amid (.writing bs k) q r (.producer :: rest)) =
      finishWith id (writeNStep bs k (s.amid (.writing bs k) q r rest)) :=
  producerStep_writing (s := s.amid (.writing bs k) q r rest) hready rfl

/-- One step for each byte stored and one for the return come to RB.WRITE_N run whole, its count included. -/
theorem runSteps_writing {bs : Bytes} {n : Nat} (hready : ready [.rb] s = none) (h : ringWriteN bs s = .ok (n, t)) :
    runSteps (n + 1) (s.amid (.writing bs k) q r (List.replicate (n + 1) .producer ++ rest)) =
      .next (t.amid .quiescent q (.stored (k + n)) rest) := by
  induction bs generalizing s k r n with
  | nil =>
    cases h
    exact runSteps_succ (step_amid_writing hready)
  | cons b bs ih =>
    rcases ringWriteN_cons_eq_ok h with ⟨rfl, hw⟩ | ⟨m, u, rfl, hw, hrest⟩
    · refine runSteps_succ ((step_amid_writing hready).trans ?_)
      rw [writeNStep, ringWrite_amid, hw]
      rfl
    · let c := List.replicate (m + 1) Act.producer ++ rest
      have hstep : step (s.amid (.writing (b :: bs) k) q r (.producer :: c)) =
          .next (u.amid (.writing bs (k + 1)) q (.ok true) c) := by
        rw [step_amid_writing hready, writeNStep, ringWrite_amid, hw]
        rfl
      rw [show k + (m + 1) = k + 1 + m by omega]
      exact (runSteps_succ hstep).trans (ih (((ringWrite_producerFrame hw).ready_eq _).trans hready) hrest)

theorem step_start_rbWriteN {bs : Bytes} (hready : ready [.rb] s = none) (hquiet : s.producer = .quiescent)
    (hsched : s.sched = .start .producer (.writeN bs) :: rest) :
    step s = .next (s.amid (.writing bs 0) s.reports .none rest) := by
  have hcaller : callerCheck .producer (.rbWriteN bs) (s.setSched rest) = none := by
    simp [callerCheck, callers, busyCaller, hquiet]
  have hdecode : decode (s.setSched rest).cfg (.writeN bs) = .ok (.rbWriteN bs) := rfl
  rw [step_cons hsched]
  exact (startStep_decoded hdecode hcaller).trans (enter_rbWriteN (s := s.setSched rest) hready)

end

/-- Settles O19: each entry leads into the run of steps above, which ends as the row run whole. -/
theorem producerStepsMakeWholeRuns : Obligations.ProducerStepsMakeWholeRuns := by
  intro s rest h hdx hrb hquiet
  have hready : ready [.dx, .rb] s = none := ready_dx_rb h.cfg_valid hdx hrb
  have hring : ready [.rb] s = none := ready_rb h hrb
  have hl : Legal (s.setSched rest) := h.setSched rest
  refine ⟨fun p hp hmoved hnone => ?_, fun p hp hsome hsched => ?_, fun bs k hk hsched => ?_⟩
  · obtain ⟨t, hall, hexec⟩ := exec_dxExtract_amid hl hready hquiet hp
    rw [State.setSched_reports, hnone, List.nil_append, extractAll_singleton] at hall
    have hrun := runSteps_extract (s := (positionSeen p (s.setSched rest)).setReports []) (q := []) (rest := rest) hready
      hmoved hall
    have henters (c : List Act) := exec_positionReport_enters (s := s.setSched c) hready hquiet hnone hp hmoved
    refine ⟨fun hsched => ⟨_, _, henters s.sched, hsched ▸ hrun, hexec⟩, fun hsched => ⟨_, ?_, hexec⟩⟩
    exact (runSteps_succ ((step_start_dxExtract hquiet hp hsched).trans (henters _))).trans hrun
  · obtain ⟨t, hall, hexec⟩ := exec_dxExtract_amid hl hready hquiet hp
    have hle : ∀ q ∈ s.reports ++ [p], q ≤ s.cfg.h := List.forall_mem_append.2 ⟨h.reports_le, List.forall_mem_singleton.2 hp⟩
    have hseen : Legal ((positionSeen p (s.setSched rest)).setReports []) := (hl.positionSeen p).setReports (by simp)
    have hrun := runSteps_serve (rest := rest) hseen hready hle hall
    have hwaits (c : List Act) := exec_positionReport_waits (s := s.setSched c) hready hquiet hsome hp
    exact ⟨_, (runSteps_succ ((step_start_dxExtract hquiet hp hsched).trans (hwaits _))).trans hrun, hexec⟩
  · obtain ⟨t, n, hw, -, hframe, -, hn, -⟩ := ringWriteN_contents hl bs
    obtain rfl : k = n := hk.trans hn.symm
    have hrun := runSteps_writing (s := s.setSched rest) (q := s.reports) (r := .none) (k := 0) (rest := rest) hring hw
    have hclosed : t.amid .quiescent s.reports (.stored k) rest = t.setResult (.stored k) :=
      amid_eq_setResult (by rw [hframe]; exact hquiet) (by rw [hframe]; rfl) (by rw [hframe]; rfl) _
    rw [Nat.zero_add, hclosed] at hrun
    refine ⟨_, (runSteps_succ (step_start_rbWriteN hring hquiet hsched)).trans hrun, ?_⟩
    exact (exec_rbWriteN_eq hl hrb bs).trans (by rw [hw, finishWith_ok])

end Sys2Proof.Machine
end

section
/-! SUPPORT. The drop counter (R26, R108): what no row and no step but DX.INIT and SYS.RESET lowers. -/

namespace Sys2Proof.Machine

section
variable {s t : State}

/-! ### The consumer's own steps (R41, R94, R180) -/

theorem drainRead_consumerFrame (h : drainRead s = .ok t) : ConsumerFrame s t := by
  unfold drainRead at h
  split at h
  · cases h
  next u hu =>
    cases h
    exact (ringRead_consumerFrame hu).setConsumer _
  next b u hu =>
    cases h
    exact (ringRead_consumerFrame hu).setConsumer _

theorem readNStep_consumerFrame {left : Nat} {got : Bytes} {r : Result} (h : readNStep left got s = .ok (r, t)) :
    ConsumerFrame s t := by
  unfold readNStep at h
  split at h
  · cases h
    exact (ConsumerFrame.refl s).setConsumer _
  · split at h
    · cases h
    next u hu =>
      cases h
      exact (ringRead_consumerFrame hu).setConsumer _
    next b u hu =>
      cases h
      exact (ringRead_consumerFrame hu).setConsumer _

theorem wakeStep_consumerFrame (h : wakeStep s = .next t) : ConsumerFrame s t := by
  unfold wakeStep at h
  split at h
  · cases h
    exact (wakeUp_consumerFrame s).setResult _
  · cases h
    exact .refl _

/-- The row of a stream byte is the consumer's (R213). -/
theorem callers_pdClass_instr (r : PdClass) (b : Byte) : callers (r.instr b) = [.consumer] := by
  cases r <;> rfl

/-- The consumer's next step writes only what the consumer owns. -/
theorem consumerStep_consumerFrame (h : consumerStep s = .next t) : ConsumerFrame s t := by
  unfold consumerStep at h
  split at h
  · exact wakeStep_consumerFrame (guarded_eq_next.1 h).2
  · exact guarded_finish_consumerFrame (fun _ => drainRead_consumerFrame) h
  · exact ((ConsumerFrame.refl s).setConsumer _).trans
      (exec_consumerFrame (callers_pdClass_instr _ _) (guarded_eq_next.1 h).2)
  · exact guarded_finishWith_consumerFrame (fun _ _ => readNStep_consumerFrame) h

/-! ### The ring leaves the extractor alone (R91, R94) -/

theorem ringWrite_dx {b : Byte} {ok : Bool} (h : ringWrite b s = .ok (ok, t)) : t.dx = s.dx := by
  unfold ringWrite at h
  split at h
  · cases h
    rfl
  · split at h
    · cases h
    · cases h
      rfl

theorem ringWriteN_dx {bs : Bytes} {k : Nat} (h : ringWriteN bs s = .ok (k, t)) : t.dx = s.dx := by
  induction bs generalizing s k with
  | nil =>
    cases h
    rfl
  | cons b bs ih =>
    rcases ringWriteN_cons_eq_ok h with ⟨-, hw⟩ | ⟨n, u, -, hw, hrest⟩
    · exact ringWrite_dx hw
    · exact (ih hrest).trans (ringWrite_dx hw)

theorem writeNStep_dx {todo : Bytes} {k : Nat} {r : Result} (h : writeNStep todo k s = .ok (r, t)) : t.dx = s.dx := by
  unfold writeNStep at h
  split at h
  · cases h
    rfl
  · split at h
    · cases h
    next u hu =>
      cases h
      exact (ringWrite_dx hu).trans rfl
    next u hu =>
      cases h
      exact (ringWrite_dx hu).trans rfl

/-! ### The extractor only counts up (R102, R108) -/

theorem le_satInc (w v : Nat) : v ≤ satInc w v := by
  unfold satInc
  split <;> omega

theorem pushIndex_drops_le {i : Nat} (h : pushIndex i s = .ok t) : s.dx.drops ≤ t.dx.drops := by
  unfold pushIndex push at h
  split at h
  · cases h
  · split at h
    · cases h
    next u hu =>
      cases h
      exact (congrArg Extractor.drops (ringWrite_dx hu)).ge
    next u hu =>
      cases h
      rw [← ringWrite_dx hu]
      exact le_satInc _ _

theorem pushAll_drops_le {l : List Nat} (h : pushAll l s = .ok t) : s.dx.drops ≤ t.dx.drops := by
  induction l generalizing s with
  | nil =>
    cases h
    exact le_rfl
  | cons i l ih =>
    obtain ⟨u, hu, ht⟩ := pushAll_cons_eq_ok h
    exact (pushIndex_drops_le hu).trans (ih ht)

theorem extract_drops_le {p : Nat} (h : extract p s = .ok t) : s.dx.drops ≤ t.dx.drops := by
  by_cases hlast : p = s.dx.last
  · rw [extract_at_last hlast] at h
    cases h
    exact le_rfl
  · obtain ⟨u, hu, rfl⟩ := extract_moved_eq_ok hlast h
    exact (pushAll_drops_le hu).trans_eq rfl

theorem extractAll_drops_le {l : List Nat} (h : extractAll l s = .ok t) : s.dx.drops ≤ t.dx.drops := by
  induction l generalizing s with
  | nil =>
    cases h
    exact le_rfl
  | cons p l ih =>
    unfold extractAll at h
    split at h
    · cases h
    next u hu => exact (extract_drops_le hu).trans (ih h)

theorem extractBegin_dx (p : Nat) (s : State) : (extractBegin p s).dx = s.dx := by
  unfold extractBegin
  split <;> rfl

theorem reportPosition_dx (p : Nat) (s : State) : (reportPosition p s).dx = s.dx := by
  unfold reportPosition
  split
  · exact extractBegin_dx p s
  · rfl

theorem extractStep_drops_le {p : Nat} {todo : List Nat} (h : extractStep p todo s = .ok t) : s.dx.drops ≤ t.dx.drops := by
  cases todo with
  | nil =>
    cases h
    exact le_rfl
  | cons i todo =>
    obtain ⟨u, hu, rfl⟩ := except_map_eq_ok.1 h
    exact (pushIndex_drops_le hu).trans_eq rfl

/-! ### The rows -/

section
variable {check : Option Refusal}

theorem guarded_finish_drops_le {r : Result} {x : Except Fault State} (hx : ∀ u, x = .ok u → s.dx.drops ≤ u.dx.drops)
    (h : guarded check (finish r x) = .next t) : s.dx.drops ≤ t.dx.drops := by
  obtain ⟨u, hu, rfl⟩ := finish_eq_next.1 (guarded_eq_next.1 h).2
  exact hx u hu

theorem guarded_finishWith_dx {α : Type} {g : α → Result} {x : Except Fault (α × State)}
    (hx : ∀ a u, x = .ok (a, u) → u.dx = s.dx) (h : guarded check (finishWith g x) = .next t) : s.dx.drops ≤ t.dx.drops := by
  obtain ⟨a, u, hu, rfl⟩ := finishWith_eq_next.1 (guarded_eq_next.1 h).2
  exact (congrArg Extractor.drops (hx a u hu)).ge

end

/-- No row but DX.INIT and SYS.RESET lowers the counter (R108). -/
theorem exec_drops_le {i : Instr} (hinit : i ≠ .dxInit) (hreset : i ≠ .sysReset) (h : exec i s = .next t) :
    s.dx.drops ≤ t.dx.drops := by
  cases i with
  | dxInit => exact absurd rfl hinit
  | sysReset => exact absurd rfl hreset
  | rbInit | rbIsEmpty | dxReset | sysRxReinit | pdInit | bfInit | lpInit | frameOk | frameLenAbort | frameCsumFail | lineCmd
  | lineUnknown =>
    rw [eq_of_guarded_finish h]
    exact le_rfl
  | positionReport p =>
    rw [eq_of_guarded_finish h]
    exact (congrArg Extractor.drops (reportPosition_dx p (positionSeen p s))).ge
  | rbWrite b => exact guarded_finishWith_dx (fun _ _ => ringWrite_dx) h
  | rbWriteN bs => exact guarded_finishWith_dx (fun _ _ => ringWriteN_dx) h
  | dxExtract p => exact guarded_finish_drops_le (fun _ => extractAll_drops_le (s := (positionSeen p s).setReports [])) h
  | _ => exact (exec_consumerFrame rfl h).drops.ge

/-- Entering a row begins a phase, which leaves the counter alone, or runs it (R94, R106, R180). -/
theorem enter_drops_le {i : Instr} (hinit : i ≠ .dxInit) (hreset : i ≠ .sysReset) (h : enter i s = .next t) :
    s.dx.drops ≤ t.dx.drops := by
  unfold enter at h
  split at h
  · rw [eq_of_guarded_finish h]
    exact le_rfl
  · rw [eq_of_guarded_finish h]
    exact le_rfl
  next p =>
    rw [eq_of_guarded_finish h]
    exact (congrArg Extractor.drops (reportPosition_dx p (positionSeen p s))).ge
  · exact (wakeStep_consumerFrame (guarded_eq_next.1 h).2).drops.ge
  · exact exec_drops_le hinit hreset h

/-! ### The items of the schedule -/

theorem serveReport_dx (h : serveReport s = .next t) : t.dx = s.dx := by
  unfold serveReport at h
  split at h
  next p ps _ =>
    cases h
    exact extractBegin_dx p (s.setReports ps)
  · cases h
    rfl

theorem producerStep_drops_le (h : producerStep s = .next t) : s.dx.drops ≤ t.dx.drops := by
  unfold producerStep at h
  split at h
  · exact guarded_finish_drops_le (fun _ => extractStep_drops_le) h
  · exact (congrArg Extractor.drops (serveReport_dx (guarded_eq_next.1 h).2)).ge
  · exact guarded_finishWith_dx (fun _ _ => writeNStep_dx) h

/-- What the environment stores is no part of the extractor (R62). -/
theorem environmentStore_dx {b : Byte} (h : environmentStore b s = .ok t) : t.dx = s.dx := by
  unfold environmentStore at h
  split at h
  · cases h
  · cases h
    rfl

/-- No item of the schedule lowers the counter, unless it is a transaction of DX.INIT or SYS.RESET (R108). -/
theorem perform_drops_le {a : Act} (h : perform a s = .next t)
    (hi : ∀ who code i, a = .transact who code ∨ a = .start who code → decode s.cfg code = .ok i →
      i ≠ .dxInit ∧ i ≠ .sysReset) : s.dx.drops ≤ t.dx.drops := by
  cases a with
  | transact who code =>
    simp only [perform, transactStep] at h
    split at h
    · cases h
    next i hd =>
      obtain ⟨hinit, hreset⟩ := hi who code i (.inl rfl) hd
      exact exec_drops_le hinit hreset (guarded_eq_next.1 h).2
  | start who code =>
    simp only [perform, startStep] at h
    split at h
    · cases h
    next i hd =>
      obtain ⟨hinit, hreset⟩ := hi who code i (.inr rfl) hd
      exact enter_drops_le hinit hreset (guarded_eq_next.1 h).2
  | producer => exact producerStep_drops_le h
  | consumer => exact (consumerStep_consumerFrame h).drops.ge
  | receive b => exact guarded_finish_drops_le (fun _ hu => (congrArg Extractor.drops (environmentStore_dx hu)).ge) h
  | restart =>
    rw [eq_of_guarded_finish h]
    exact le_rfl

end

/-- Settles O59: every item of the schedule, and the range `Legal` gives the counter. -/
theorem dropCounterIsMonotonic : Obligations.DropCounterIsMonotonic := by
  intro s t h hstep
  have ht : Legal t := (ensures_iff.1 (step_safe h)).2 t hstep
  refine ⟨Nat.le_sub_one_of_lt ht.drops_lt, fun hi => ?_⟩
  cases hsched : s.sched with
  | nil =>
    rw [step_nil hsched] at hstep
    cases hstep
    exact le_rfl
  | cons a rest =>
    rw [step_cons hsched] at hstep
    refine perform_drops_le (s := s.setSched rest) hstep fun who code i ha => hi who code rest i ?_
    rcases ha with rfl | rfl
    · exact .inl hsched
    · exact .inr hsched

end Sys2Proof.Machine
end

section
/-! SUPPORT. The dispatcher's classes in `Idle` (R76, R127): one condition a class, and how many byte values have each. -/

namespace Sys2Proof.Machine

/-! ### One condition a class -/

section
variable {c : Cfg} {b : Byte}

theorem pdClass_idle_of_isPrintable (h : isPrintable b = true) : pdClass c .idle b = .printable := if_pos h

theorem pdClass_idle_of_not_isLineStart (h : isLineStart b = false) :
    pdClass c .idle b = if b = c.hdr then .header else .noise := by
  obtain ⟨hp, hcr, hlf⟩ := isLineStart_false_iff.1 h
  simp [pdClass, hp, hcr, hlf]

theorem isLineStart_iff_pdClass_idle :
    isLineStart b = true ↔ pdClass c .idle b = .printable ∨ pdClass c .idle b = .cr ∨ pdClass c .idle b = .lf := by
  rcases pdClass_idle c b with ⟨hb, h⟩ | ⟨hb, h⟩ | ⟨hb, h⟩ | ⟨hls, -, h⟩ | ⟨hls, -, h⟩ <;> rw [h]
  · simp [isLineStart_iff, hb]
  · simp [isLineStart_iff, hb]
  · simp [isLineStart_iff, hb]
  · simp [hls]
  · simp [hls]

/-- `HDR` is no line-start byte, so every byte equal to it has the header's class (R77). -/
theorem pdClass_idle_header_iff (hv : c.valid = true) : pdClass c .idle b = .header ↔ b = c.hdr := by
  constructor
  · intro h
    simpa [h, PdClass.Admits] using pdClass_admits (c := c) (st := .idle) (b := b)
  · rintro rfl
    rw [pdClass_idle_of_not_isLineStart (Cfg.valid_hdr hv), if_pos rfl]

theorem pdClass_idle_noise_iff : pdClass c .idle b = .noise ↔ isLineStart b = false ∧ b ≠ c.hdr := by
  constructor
  · intro h
    have hls : isLineStart b = false := by
      rw [← Bool.not_eq_true, isLineStart_iff_pdClass_idle (c := c), h]
      simp
    refine ⟨hls, fun hb => ?_⟩
    rw [pdClass_idle_of_not_isLineStart hls, if_pos hb] at h
    cases h
  · rintro ⟨hls, hb⟩
    rw [pdClass_idle_of_not_isLineStart hls, if_neg hb]

end

/-! ### How many byte values have each class -/

theorem countP_isLineStart : (List.range 256).countP (fun k => isLineStart (BitVec.ofNat 8 k)) = 97 := by decide +kernel

theorem countP_eq_byte (v : Byte) : (List.range 256).countP (fun k => decide (BitVec.ofNat 8 k = v)) = 1 := by
  have hmem : v.toNat ∈ List.range 256 := List.mem_range.2 v.isLt
  rw [← List.count_eq_one_of_mem List.nodup_range hmem, List.count]
  refine List.countP_congr fun k hk => ?_
  have hk' := List.mem_range.1 hk
  simp [← BitVec.toNat_inj, Nat.mod_eq_of_lt hk']

/-- Every byte is in exactly one of the three classes. -/
theorem countP_classes {c : Cfg} (hv : c.valid = true) (bs : Bytes) :
    bs.countP isLineStart + bs.countP (fun b => decide (b = c.hdr)) +
      bs.countP (fun b => decide (pdClass c .idle b = .noise)) = bs.length := by
  induction bs with
  | nil => rfl
  | cons b rest ih =>
    simp only [List.countP_cons, List.length_cons, ← ih, decide_eq_true_eq, pdClass_idle_noise_iff]
    cases hls : isLineStart b with
    | true =>
      have hb : b ≠ c.hdr := fun hb => by simp [hb, Cfg.valid_hdr hv] at hls
      simp [hb]
      omega
    | false => by_cases hb : b = c.hdr <;> simp [hb] <;> omega

/-- The byte values that start no line and are not `HDR`. -/
theorem countP_noise {c : Cfg} (hv : c.valid = true) :
    (List.range 256).countP (fun k => decide (pdClass c .idle (BitVec.ofNat 8 k) = .noise)) = 158 := by
  have hall := countP_classes hv ((List.range 256).map (BitVec.ofNat 8))
  simp only [List.countP_map, List.length_map, List.length_range, Function.comp_def, countP_isLineStart, countP_eq_byte] at hall
  omega

/-- Settles O4: the classes by their conditions, and the counts as every byte is in exactly one class. -/
theorem byteClassesOfIdle : Obligations.ByteClassesOfIdle := by
  intro c hv
  simp only [← List.countP_eq_length_filter, pdClass_idle_header_iff hv]
  refine ⟨fun b => ⟨?_, isLineStart_iff_pdClass_idle, trivial, pdClass_idle_noise_iff.symm⟩, countP_isLineStart,
    countP_eq_byte c.hdr, countP_noise hv⟩
  rw [isLineStart_iff]
  simp [isPrintable, byteCr, byteLf]

end Sys2Proof.Machine
end

section
/-! SUPPORT. The dispatcher's rows (R121 to R128): which parser PD.STEP calls in each state, and what its completion does. -/

namespace Sys2Proof.Machine

section
variable {s u : State} {b : Byte} {d : Bool}

/-! ### PD.STEP by state and byte class (R121 to R125) -/

theorem pdClassAt_idle (hst : s.pd.state = .idle) : pdClassAt s b = pdClass s.cfg .idle b := by rw [pdClassAt, hst]

theorem pdClassAt_header (hv : s.cfg.valid = true) (hst : s.pd.state = .idle) : pdClassAt s s.cfg.hdr = .header := by
  rw [pdClassAt_idle hst, pdClass_idle_header_iff hv]

theorem pdClassAt_noise (hst : s.pd.state = .idle) (hls : isLineStart b = false) (hb : b ≠ s.cfg.hdr) :
    pdClassAt s b = .noise := by
  rw [pdClassAt_idle hst, pdClass_idle_noise_iff]
  exact ⟨hls, hb⟩

theorem pdClassAt_inLine (hst : s.pd.state = .inLineFrame) : pdClassAt s b = .inLine := by rw [pdClassAt, hst, pdClass]

theorem pdClassAt_inBin (hst : s.pd.state = .inBinaryFrame) : pdClassAt s b = .inBin := by rw [pdClassAt, hst, pdClass]

theorem dispatchStep_lineStart (hst : s.pd.state = .idle) (hls : isLineStart b = true) :
    dispatchStep b s = backToIdle (lineStep b (s.setPd .inLineFrame)) := by
  rw [dispatchStep, pdClassAt_idle hst]
  rcases (isLineStart_iff_pdClass_idle (c := s.cfg)).1 hls with h | h | h <;> rw [h, pdAct]

theorem setPd_eq_self {st : PdState} (hst : s.pd.state = st) : s.setPd st = s := by
  subst hst
  rfl

/-! ### A parser's completion (R121, R122, R124, R125) -/

/-- The row of a byte's own class is PD.STEP (R128). -/
theorem exec_instr_of_pdClassAt {r : PdClass} (h : pdClassAt s b = r) : exec (r.instr b) s = exec (.pdStep b) s := by
  rw [← h]
  exact (byteStepsRunTheirRow s b).1.symm

/-- What the called parser leaves, shown or not, with the dispatcher in `Idle` if it is done. -/
theorem exec_pdStep_of_parser {st : PdState} {x : Except Fault (Bool × State)} (hr : ready [.pd, .bf, .lp] s = none)
    (hstep : dispatchStep b s = backToIdle x) (hx : x = .ok (d, u)) (hpd : u.pd.state = st) (v : Result) :
    exec (.pdStep b) s = .next { u.setResult v with pd := { state := if d then .idle else st }, result := .none } := by
  rw [hx, backToIdle_ok] at hstep
  rw [exec_pdStep_ok hr hstep]
  subst hpd
  cases d <;> rfl

theorem frameEnds_iff :
    frameEnds s b = true ↔ (s.bf.state = .readLen ∧ s.cfg.maxp ≤ b.toNat) ∨ s.bf.state = .readChecksum := by
  simp [frameEnds, lenTooLong]

/-- The line parser's turn, in `InLineFrame` (R121, R124): LP.STEP completes, and PD.STEP follows its completion. -/
theorem exec_pdStep_of_lineStep (h : Legal s) (hi : s.parsersInited)
    (hstep : dispatchStep b s = backToIdle (lineStep b (s.setPd .inLineFrame))) :
    ∃ u d, exec (.lpStep b) (s.setPd .inLineFrame) = .next u ∧ u.result = .done d ∧ (d = true ↔ b = 0x0D ∨ b = 0x0A) ∧
      exec (.pdStep b) s = .next { u with pd := { state := if d then .idle else .inLineFrame }, result := .none } := by
  have hr := ready_pd_bf_lp h.cfg_valid hi
  obtain ⟨u, es, hline, hframe, -⟩ := lineStep_spec (h.setPd .inLineFrame) b
  have hpd : u.pd.state = .inLineFrame := by rw [hframe]; rfl
  have hlp : ready [.lp] (s.setPd .inLineFrame) = none := ready_of_subset (s := s) hr (by simp)
  refine ⟨u.setResult (.done (isTerm b)), isTerm b, ?_, rfl, isTerm_iff, exec_pdStep_of_parser hr hstep hline hpd _⟩
  simp only [exec, execLpStep, hlp, guarded_none, hline, finishWith_ok]

/-- The frame parser's turn, in `InBinaryFrame` (R122, R125): BF.STEP completes, and PD.STEP follows its completion. -/
theorem exec_pdStep_of_frameStep (h : Legal s) (hi : s.parsersInited)
    (hstep : dispatchStep b s = backToIdle (frameStep b (s.setPd .inBinaryFrame))) :
    ∃ u d, exec (.bfStep b) (s.setPd .inBinaryFrame) = .next u ∧ u.result = .done d ∧
      (d = true ↔ (s.bf.state = .readLen ∧ s.cfg.maxp ≤ b.toNat) ∨ s.bf.state = .readChecksum) ∧
      exec (.pdStep b) s = .next { u with pd := { state := if d then .idle else .inBinaryFrame }, result := .none } := by
  have hr := ready_pd_bf_lp h.cfg_valid hi
  obtain ⟨u, es, hbyte, hframe, -⟩ := frameStep_spec (h.setPd .inBinaryFrame) b
  change frameStep b (s.setPd .inBinaryFrame) = .ok (frameEnds s b, u) at hbyte
  have hpd : u.pd.state = .inBinaryFrame := by rw [hframe]; rfl
  have hbf : ready [.bf] (s.setPd .inBinaryFrame) = none := ready_of_subset (s := s) hr (by simp)
  refine ⟨u.setResult (.done (frameEnds s b)), frameEnds s b, ?_, rfl, frameEnds_iff, exec_pdStep_of_parser hr hstep hbyte hpd _⟩
  simp only [exec, execBfStep, hbf, guarded_none, hbyte, finishWith_ok]

end

/-! ### The statements -/

/-- Settles O22: everything PD.STEP can do, behind its check. -/
theorem pdStepCompletesWithFrame : Obligations.PdStepCompletesWithFrame := by
  intro s b h hi
  obtain ⟨t, es, hstep, hes, hframe, -, hone⟩ := dispatchStep_spec h b
  refine ⟨t.setResult .none, es, exec_pdStep_ok (ready_pd_bf_lp h.cfg_valid hi) hstep, hes, ?_, hone⟩
  exact congrArg (fun v : State => v.setResult .none) hframe

/-- Settles O23: the three rows are PD.STEP on their byte. -/
theorem pdLineStartRows : Obligations.PdLineStartRows := by
  intro s b h hi hst hls
  obtain ⟨u, d, hparser, hres, hdone, hpd⟩ := exec_pdStep_of_lineStep h hi (dispatchStep_lineStart hst hls)
  refine ⟨u, d, _, hparser, hres, rfl, hdone, fun hp => ?_, ?_, ?_⟩
  · rw [← hpd]
    exact exec_instr_of_pdClassAt (r := .printable) (by rw [pdClassAt_idle hst, pdClass_idle_of_isPrintable hp])
  · rintro rfl
    rw [← hpd]
    exact exec_instr_of_pdClassAt (r := .cr) (by rw [pdClassAt_idle hst]; rfl)
  · rintro rfl
    rw [← hpd]
    exact exec_instr_of_pdClassAt (r := .lf) (by rw [pdClassAt_idle hst]; rfl)

/-- Settles O24: `HDR` completes only behind a broken joint invariant (R122), and noise calls no parser (R123). -/
theorem pdHeaderAndNoiseRows : Obligations.PdHeaderAndNoiseRows := by
  intro s h hi hst
  refine ⟨?_, fun b hls hb => ?_⟩
  · have hclass := pdClassAt_header h.cfg_valid hst
    obtain ⟨u, d, hparser, hres, hdone, hpd⟩ := exec_pdStep_of_frameStep h hi (by rw [dispatchStep, hclass, pdAct])
    refine ⟨u, d, hparser, hres, (exec_instr_of_pdClassAt hclass).trans hpd, fun hw => ?_⟩
    simpa [hw] using hdone
  · have hclass := pdClassAt_noise hst hls hb
    calc exec (.pdIdleNoise b) s = exec (.pdStep b) s := exec_instr_of_pdClassAt hclass
      _ = .next (s.setResult .none) := exec_pdStep_ok (ready_pd_bf_lp h.cfg_valid hi) (by rw [dispatchStep, hclass, pdAct])

/-- Settles O25: inside a frame, the state alone chooses the parser. -/
theorem pdInFrameRows : Obligations.PdInFrameRows := by
  intro s b h hi
  refine ⟨fun hst => ?_, fun hst => ?_⟩
  · have hclass := pdClassAt_inLine (b := b) hst
    have hrow : exec (.pdInLine b) s = exec (.pdStep b) s := exec_instr_of_pdClassAt hclass
    rw [hrow]
    simpa only [setPd_eq_self hst] using
      exec_pdStep_of_lineStep h hi (by rw [dispatchStep, hclass, pdAct, setPd_eq_self hst])
  · have hclass := pdClassAt_inBin (b := b) hst
    have hrow : exec (.pdInBin b) s = exec (.pdStep b) s := exec_instr_of_pdClassAt hclass
    rw [hrow]
    simpa only [setPd_eq_self hst] using
      exec_pdStep_of_frameStep h hi (by rw [dispatchStep, hclass, pdAct, setPd_eq_self hst])

end Sys2Proof.Machine
end

section
/-! SUPPORT. The frame parser's rows (R141 to R146): the role of a byte by the parser's state, and each row in closed form. -/

namespace Sys2Proof.Machine

section
variable {s : State} {b : Byte}

/-! ### The role of a byte by the parser's state (R78) -/

theorem bfRoleAt_waitHeader (hst : s.bf.state = .waitHeader) :
    bfRoleAt s b = if b = s.cfg.hdr then .header else .other := by
  rw [bfRoleAt, hst, bfRole]

theorem bfRoleAt_readIds (hst : s.bf.state = .readIds) : bfRoleAt s b = idRole s.bf.idx := by rw [bfRoleAt, hst, bfRole]

theorem bfRoleAt_readLen (hst : s.bf.state = .readLen) :
    bfRoleAt s b = if s.cfg.maxp ≤ b.toNat then .tooLong else if b = 0 then .zero else .valid := by
  simp [bfRoleAt, hst, bfRole, lenTooLong]

/-- `MAXP` is at least 1 (R7), so the length 0 passes the guard. -/
theorem bfRoleAt_readLen_zero (hst : s.bf.state = .readLen) (hv : s.cfg.valid = true) : bfRoleAt s 0 = .zero := by
  obtain ⟨-, -, hmaxp, -⟩ := Cfg.valid_sizes hv
  have hshort : ¬ s.cfg.maxp ≤ (0 : Byte).toNat := Nat.not_le.2 hmaxp
  rw [bfRoleAt_readLen hst, if_neg hshort, if_pos rfl]

theorem bfRoleAt_readLen_valid (hst : s.bf.state = .readLen) (hlen : b.toNat < s.cfg.maxp) (hb : b ≠ 0) :
    bfRoleAt s b = .valid := by
  rw [bfRoleAt_readLen hst, if_neg (Nat.not_le.2 hlen), if_neg hb]

theorem bfRoleAt_readPayload (hst : s.bf.state = .readPayload) :
    bfRoleAt s b = if s.bf.pcur + 1 = s.bf.len.toNat then .payloadLast else .payload := by
  rw [bfRoleAt, hst, bfRole]

theorem bfRoleAt_readChecksum (hst : s.bf.state = .readChecksum) :
    bfRoleAt s b = if b = s.bf.csum then .csumMatch else .csumMismatch := by
  simp [bfRoleAt, hst, bfRole, csumOk]

/-! ### The rows behind their checks -/

theorem ready_bf (hv : s.cfg.valid = true) (hi : s.inited.bf = true) : ready [.bf] s = none :=
  ready_eq_none.2 ⟨hv, by simp [Inited.has, hi]⟩

/-- A row passes its check on a byte that has its role, and runs the role's body. -/
theorem bfRow_ok {r : BfRole} {d : Bool} {t : State} (hv : s.cfg.valid = true) (hi : s.inited.bf = true)
    (hrole : bfRoleAt s b = r) (hact : bfAct r b s = .ok (d, t)) : bfRow r b s = .next (t.setResult (.done d)) := by
  rw [bfRow, or_needRow_of_applies _ (by simp [hrole]), ready_bf hv hi, guarded_none, hact, finishWith_ok]

theorem exec_bfStep_ok {d : Bool} {t : State} (hv : s.cfg.valid = true) (hi : s.inited.bf = true)
    (h : frameStep b s = .ok (d, t)) : exec (.bfStep b) s = .next (t.setResult (.done d)) := by
  simp only [exec, execBfStep, ready_bf hv hi, guarded_none, h, finishWith_ok]

end

/-- A checksum is awaited only behind a legal length (R144). -/
theorem Legal.len_lt_of_readChecksum {s : State} (h : Legal s) (hst : s.bf.state = .readChecksum) :
    s.bf.len.toNat < s.cfg.maxp := by
  have hrange := h.bf_ranges
  rw [FrameParser.rangesOk, hst] at hrange
  exact hrange

/-! ### The statements -/

/-- Settles O26: the role by the byte in `WaitHeader`, by the index in `ReadIds`. -/
theorem bfHeaderAndIdRows : Obligations.BfHeaderAndIdRows := by
  refine fun s b hv hi => ⟨fun hst => ⟨?_, fun hb => ?_⟩, fun hst => ?_⟩
  · exact bfRow_ok hv hi ((bfRoleAt_waitHeader hst).trans (if_pos rfl)) rfl
  · exact bfRow_ok hv hi ((bfRoleAt_waitHeader hst).trans (if_neg hb)) rfl
  · have hrole := bfRoleAt_readIds (b := b) hst
    refine ⟨fun hidx => ?_, fun hidx => ?_, fun hidx => ?_, fun hidx => ?_⟩ <;>
    · rw [hidx] at hrole
      exact bfRow_ok hv hi hrole rfl

/-- Settles O27: the length guard first, then the test for zero (R144, R210). -/
theorem bfReadLenRows : Obligations.BfReadLenRows := by
  refine fun s b hv hi hst => ⟨fun hlong => ?_, ?_, fun hlen hb => ?_⟩
  · exact bfRow_ok hv hi ((bfRoleAt_readLen hst).trans (if_pos hlong)) rfl
  · have hcsum : csumAdd s.bf.csum 0 = s.bf.csum := BitVec.add_zero _
    have hrow := bfRow_ok hv hi (bfRoleAt_readLen_zero hst hv) rfl
    rw [hcsum] at hrow
    exact hrow
  · exact bfRow_ok hv hi (bfRoleAt_readLen_valid hst hlen hb) rfl

/-- Settles O28: both rows store at the cursor, which is inside `PAYLOAD`. -/
theorem bfReadPayloadRows : Obligations.BfReadPayloadRows := by
  intro s b h hi hst
  refine ⟨_, Memory.read_write h.payload_wf s.bf.pcur b, fun hmore => ?_, fun hlast => ?_⟩
  · have hrole := (bfRoleAt_readPayload (b := b) hst).trans (if_neg (Nat.ne_of_lt hmore))
    have hrow := bfRow_ok h.cfg_valid hi hrole (payloadStore_ok h.pcur_lt _ b)
    rw [← hst] at hrow
    exact hrow
  · exact bfRow_ok h.cfg_valid hi ((bfRoleAt_readPayload hst).trans (if_pos hlast)) (payloadStore_ok h.pcur_lt _ b)

/-- Settles O29: the two roles of a checksum byte; a delivered payload is inside `PAYLOAD`. -/
theorem bfReadChecksumRows : Obligations.BfReadChecksumRows := by
  refine fun s b h hi hst => ⟨fun hb => ?_, fun hb => ?_⟩
  · exact bfRow_ok h.cfg_valid hi ((bfRoleAt_readChecksum hst).trans (if_pos hb))
      (frameDeliver_ok (h.len_lt_of_readChecksum hst).le)
  · exact bfRow_ok h.cfg_valid hi ((bfRoleAt_readChecksum hst).trans (if_neg hb)) rfl

/-- Settles O30: everything BF.STEP can do, behind its check. -/
theorem bfStepResultLaw : Obligations.BfStepResultLaw := by
  intro s b h hi
  obtain ⟨t, es, hstep, hframe, -, hends, hgoes, -⟩ := frameStep_spec h b
  refine ⟨t.setResult (.done (frameEnds s b)), frameEnds s b, es, exec_bfStep_ok h.cfg_valid hi hstep, ?_,
    frameEnds_iff, hends, hgoes⟩
  exact congrArg (fun v : State => v.setResult _) hframe

end Sys2Proof.Machine
end

section
/-! SUPPORT. A frame on the wire (R71 to R74, R86): its bytes through PD.STEP, field by field. -/

namespace Sys2Proof

theorem csum8_append (xs ys : Bytes) : csum8 (xs ++ ys) = csum8 xs + csum8 ys := by
  induction xs with
  | nil => simp [csum8]
  | cons b rest ih => simp [csum8, ih, BitVec.add_assoc]

/-- A length that fits LEN is what LEN says (R71). -/
theorem toNat_ofNat_length {bs : Bytes} (h : bs.length ≤ 255) : (BitVec.ofNat 8 bs.length).toNat = bs.length := by
  rw [BitVec.toNat_ofNat, Nat.mod_eq_of_lt (by omega)]

end Sys2Proof

namespace Sys2Proof.Machine

/-! ### A run of bytes stored (R145) -/

/-- A run of bytes stored at rising indices. -/
def Memory.writeRun : Memory → Nat → Bytes → Memory
  | m, _, [] => m
  | m, a, b :: rest => Memory.writeRun (m.write a b) (a + 1) rest

theorem Memory.read_writeRun {m : Memory} (h : m.wf = true) (a : Nat) (bs : Bytes) (c : Nat) :
    (m.writeRun a bs).read c = if a ≤ c then bs[c - a]?.getD (m.read c) else m.read c := by
  induction bs generalizing m a with
  | nil => simp [writeRun]
  | cons b rest ih =>
    rw [writeRun, ih (Memory.wf_write h a b), Memory.read_write h]
    rcases Nat.lt_trichotomy c a with hc | rfl | hc
    · rw [if_neg (by omega), if_neg (by omega), if_neg (by omega)]
    · simp
    · have hpos : c - a = c - (a + 1) + 1 := by omega
      rw [if_pos (by omega), if_neg (by omega), if_pos (by omega), hpos, List.getElem?_cons_succ]

/-- What a run leaves in front is the run. -/
theorem Memory.map_read_writeRun {m : Memory} (h : m.wf = true) (bs : Bytes) :
    (List.range bs.length).map (fun a => (m.writeRun 0 bs).read a) = bs := by
  refine List.ext_getElem (by simp) fun a _ ha => ?_
  simp [Memory.read_writeRun h, ha]

theorem Memory.read_writeRun_above {m : Memory} (h : m.wf = true) (bs : Bytes) {c : Nat} (hc : bs.length ≤ c) :
    (m.writeRun 0 bs).read c = m.read c := by
  simp [Memory.read_writeRun h, hc]

/-! ### PD.STEP inside a frame (R122, R125) -/

/-- The dispatcher inside a frame, with these registers in the frame parser. -/
def State.inFrame (s : State) (p : FrameParser) : State := (s.setPd .inBinaryFrame).setBf p

section
variable {s t : State} {p : FrameParser} {b : Byte}

theorem dispatchAll_cons {bs : Bytes} (h : dispatchStep b s = .ok t) : dispatchAll (b :: bs) s = dispatchAll bs t := by
  rw [dispatchAll, h]

theorem dispatchAll_append_ok {xs : Bytes} (h : dispatchAll xs s = .ok t) (ys : Bytes) :
    dispatchAll (xs ++ ys) s = dispatchAll ys t := by
  rw [dispatchAll_append, h]

/-- Inside a frame a byte runs the body of the role it has there. -/
theorem dispatchStep_inFrame {r : BfRole} (hrole : bfRoleAt (s.inFrame p) b = r) :
    dispatchStep b (s.inFrame p) = backToIdle (bfAct r b (s.inFrame p)) := by
  rw [← hrole]
  rfl

/-- The header marker begins a frame (R122, R142). -/
theorem dispatchStep_header (hv : s.cfg.valid = true) (hpd : s.pd.state = .idle) (hbf : s.bf.state = .waitHeader) :
    dispatchStep s.cfg.hdr s = .ok (s.inFrame { s.bf with csum := s.cfg.hdr, idx := 0, state := .readIds }) := by
  have hrole : bfRoleAt (s.setPd .inBinaryFrame) s.cfg.hdr = .header := (bfRoleAt_waitHeader hbf).trans (if_pos rfl)
  rw [dispatchStep, pdClassAt_header hv hpd, pdAct, frameStep, hrole]
  rfl

/-! ### The fields of a frame (R71) -/

/-- The frame parser before LEN, with the header and the four IDs behind it (R142, R143). -/
def FrameParser.atLen (p : FrameParser) (hdr dev sys msg seq : Byte) : FrameParser :=
  { p with
    state := .readLen, idx := 3, csum := csum8 [hdr, dev, sys, msg, seq], dev := dev, sys := sys, msg := msg, seq := seq }

/-- The header and the four IDs (R142, R143): after the header the index alone gives each byte its role. -/
theorem dispatchAll_frameHead (hv : s.cfg.valid = true) (hpd : s.pd.state = .idle) (hbf : s.bf.state = .waitHeader)
    (dev sys msg seq : Byte) :
    dispatchAll [s.cfg.hdr, dev, sys, msg, seq] s = .ok (s.inFrame (s.bf.atLen s.cfg.hdr dev sys msg seq)) := by
  have hcsum : csum8 [s.cfg.hdr, dev, sys, msg, seq] = s.cfg.hdr + dev + sys + msg + seq := by
    simp [csum8, BitVec.add_assoc]
  rw [dispatchAll_cons (dispatchStep_header hv hpd hbf), FrameParser.atLen, hcsum]
  rfl

/-- A legal length that is not 0 (R144). -/
theorem dispatchStep_len (hst : p.state = .readLen) (hlen : b.toNat < s.cfg.maxp) (hb : b ≠ 0) :
    dispatchStep b (s.inFrame p) =
      .ok (s.inFrame { p with len := b, csum := p.csum + b, pcur := 0, state := .readPayload }) := by
  rw [dispatchStep_inFrame (bfRoleAt_readLen_valid hst hlen hb)]
  rfl

/-- The length 0 (R144). -/
theorem dispatchStep_len_zero (hst : p.state = .readLen) (hv : s.cfg.valid = true) :
    dispatchStep 0 (s.inFrame p) = .ok (s.inFrame { p with len := 0, csum := p.csum + 0, state := .readChecksum }) := by
  rw [dispatchStep_inFrame (bfRoleAt_readLen_zero hst hv)]
  rfl

/-- A length at or above `MAXP` (R144, R203). -/
theorem dispatchStep_len_tooLong (hst : p.state = .readLen) (hlen : s.cfg.maxp ≤ b.toNat) :
    dispatchStep b (s.inFrame p) =
      .ok (((s.setPd .idle).setBf { p with len := b, csum := p.csum + b, state := .waitHeader }).emit (.frameLenAbort b)) := by
  rw [dispatchStep_inFrame ((bfRoleAt_readLen hst).trans (if_pos hlen))]
  rfl

/-- A payload byte (R145): the state behind it is the checksum's or the payload's. -/
theorem dispatchStep_payload (hst : p.state = .readPayload) (hpcur : p.pcur < s.cfg.maxp) :
    dispatchStep b (s.inFrame p) = .ok (s.inFrame { p with
      payload := p.payload.write p.pcur b, csum := p.csum + b, pcur := p.pcur + 1,
      state := if p.pcur + 1 = p.len.toNat then .readChecksum else .readPayload }) := by
  have hrole := bfRoleAt_readPayload (s := s.inFrame p) (b := b) hst
  have hstore := payloadStore_ok (s := s.inFrame p) hpcur
  by_cases hlast : p.pcur + 1 = p.len.toNat
  · rw [dispatchStep_inFrame (hrole.trans (if_pos hlast)), bfAct, hstore, if_pos hlast]
    rfl
  · rw [dispatchStep_inFrame (hrole.trans (if_neg hlast)), bfAct, hstore, if_neg hlast]
    rfl

/-- The rest of a payload (R145): stored in order, and the checksum awaited. -/
theorem dispatchAll_payload {bs : Bytes} (hst : p.state = .readPayload) (hne : bs ≠ [])
    (hlen : p.pcur + bs.length = p.len.toNat) (hmaxp : p.len.toNat < s.cfg.maxp) :
    dispatchAll bs (s.inFrame p) = .ok (s.inFrame { p with
      payload := p.payload.writeRun p.pcur bs, csum := p.csum + csum8 bs, pcur := p.len.toNat, state := .readChecksum }) := by
  induction bs generalizing p with
  | nil => exact absurd rfl hne
  | cons b rest ih =>
    rw [List.length_cons] at hlen
    rw [dispatchAll_cons (dispatchStep_payload hst (by omega))]
    by_cases hlast : p.pcur + 1 = p.len.toNat
    · obtain rfl : rest = [] := List.eq_nil_of_length_eq_zero (by omega)
      simp [dispatchAll, hlast, csum8, Memory.writeRun]
    · have hrest : rest ≠ [] := by rintro rfl; exact hlast hlen
      have hcsum : p.csum + b + csum8 rest = p.csum + csum8 (b :: rest) := BitVec.add_assoc _ _ _
      rw [if_neg hlast, ← hcsum]
      exact ih rfl hrest (by dsimp only; omega) hmaxp

/-- LEN and the payload behind it (R144, R145). An empty payload leaves the cursor where it was. -/
theorem dispatchAll_len_payload {bs : Bytes} (hst : p.state = .readLen) (hv : s.cfg.valid = true)
    (hlen : bs.length < s.cfg.maxp) :
    ∃ k, dispatchAll (BitVec.ofNat 8 bs.length :: bs) (s.inFrame p) = .ok (s.inFrame { p with
      len := BitVec.ofNat 8 bs.length, payload := p.payload.writeRun 0 bs,
      csum := p.csum + csum8 (BitVec.ofNat 8 bs.length :: bs), pcur := k, state := .readChecksum }) := by
  have hsizes := Cfg.valid_sizes hv
  have hlenByte : (BitVec.ofNat 8 bs.length).toNat = bs.length := toNat_ofNat_length (by omega)
  by_cases hbs : bs = []
  · subst hbs
    exact ⟨p.pcur, dispatchAll_cons (dispatchStep_len_zero hst hv)⟩
  · have hpos := List.length_pos_iff.2 hbs
    have hzero : BitVec.ofNat 8 bs.length ≠ 0 := by
      intro h0
      rw [h0] at hlenByte
      exact hpos.ne hlenByte
    have hlt : (BitVec.ofNat 8 bs.length).toNat < s.cfg.maxp := by omega
    refine ⟨(BitVec.ofNat 8 bs.length).toNat, (dispatchAll_cons (dispatchStep_len hst hlt hzero)).trans ?_⟩
    rw [dispatchAll_payload rfl hbs (by simp [hlenByte]) hlt, BitVec.add_assoc, ← csum8]

/-- The checksum byte (R146, R204). -/
theorem dispatchStep_checksum (hst : p.state = .readChecksum) (hlen : p.len.toNat ≤ s.cfg.maxp) :
    dispatchStep b (s.inFrame p) = .ok (((s.setPd .idle).setBf { p with state := .waitHeader }).emit
      (if b = p.csum then
        .frameOk p.dev p.sys p.msg p.seq p.len ((List.range p.len.toNat).map (fun a => p.payload.read a))
       else .frameCsumFail p.csum b)) := by
  have hrole := bfRoleAt_readChecksum (s := s.inFrame p) (b := b) hst
  by_cases hb : b = p.csum
  · rw [dispatchStep_inFrame (hrole.trans (if_pos hb)), bfAct, frameDeliver_ok (s := s.inFrame p) hlen, if_pos hb]
    rfl
  · rw [dispatchStep_inFrame (hrole.trans (if_neg hb)), if_neg hb]
    rfl

/-! ### Whole frames -/

/-- The frame parser before the checksum byte, with the rest of the frame behind it (R142 to R145); the cursor is somewhere. -/
def FrameParser.atChecksum (p : FrameParser) (cursor : Nat) (csum dev sys msg seq : Byte) (payload : Bytes) : FrameParser :=
  { state := .readChecksum, idx := 3, csum := csum, dev := dev, sys := sys, msg := msg, seq := seq,
    len := BitVec.ofNat 8 payload.length, pcur := cursor, payload := p.payload.writeRun 0 payload }

variable (dev sys msg seq csum : Byte) {payload : Bytes}

/-- A frame of legal length up to its checksum, whose accumulator is then the `csum8` of its bytes (R72, R147). -/
theorem dispatchAll_frameBody (hv : s.cfg.valid = true) (hpd : s.pd.state = .idle) (hbf : s.bf.state = .waitHeader)
    (hlen : payload.length < s.cfg.maxp) :
    ∃ k, dispatchAll (frameBody s.cfg dev sys msg seq payload) s =
      .ok (s.inFrame (s.bf.atChecksum k (csum8 (frameBody s.cfg dev sys msg seq payload)) dev sys msg seq payload)) := by
  have hbytes : frameBody s.cfg dev sys msg seq payload =
      [s.cfg.hdr, dev, sys, msg, seq] ++ (BitVec.ofNat 8 payload.length :: payload) := rfl
  obtain ⟨k, hbody⟩ :=
    dispatchAll_len_payload (s := s) (p := s.bf.atLen s.cfg.hdr dev sys msg seq) rfl hv hlen
  refine ⟨k, ?_⟩
  rw [hbytes, dispatchAll_append_ok (dispatchAll_frameHead hv hpd hbf dev sys msg seq), hbody, csum8_append]
  rfl

/-- A whole frame of legal length: delivered or reported, and everything idle again (R146). -/
theorem dispatchAll_frameBytes (h : Legal s) (hpd : s.pd.state = .idle) (hbf : s.bf.state = .waitHeader)
    (hlen : payload.length < s.cfg.maxp) :
    ∃ p, dispatchAll (frameBytes s.cfg dev sys msg seq payload csum) s = .ok ((s.setBf p).emit
        (if csum = csum8 (frameBody s.cfg dev sys msg seq payload)
          then .frameOk dev sys msg seq (BitVec.ofNat 8 payload.length) payload
          else .frameCsumFail (csum8 (frameBody s.cfg dev sys msg seq payload)) csum)) ∧
      p.state = .waitHeader ∧ ∀ a, payload.length ≤ a → p.payload.read a = s.bf.payload.read a := by
  have hsizes := Cfg.valid_sizes h.cfg_valid
  have hlenByte : (BitVec.ofNat 8 payload.length).toNat = payload.length := toNat_ofNat_length (by omega)
  obtain ⟨k, hbody⟩ := dispatchAll_frameBody dev sys msg seq h.cfg_valid hpd hbf hlen
  refine ⟨{ s.bf.atChecksum k (csum8 (frameBody s.cfg dev sys msg seq payload)) dev sys msg seq payload with
    state := .waitHeader }, ?_, rfl, fun a => Memory.read_writeRun_above h.payload_wf payload⟩
  have hread := Memory.map_read_writeRun h.payload_wf payload
  rw [frameBytes, dispatchAll_append_ok hbody,
    dispatchAll_cons (dispatchStep_checksum rfl (hlenByte.trans_le hlen.le)), dispatchAll, setPd_eq_self hpd]
  simp only [FrameParser.atChecksum, hlenByte, hread]

/-- A frame whose LEN is at or above `MAXP`, up to LEN (R144). -/
theorem dispatchAll_overlong (hv : s.cfg.valid = true) (hpd : s.pd.state = .idle) (hbf : s.bf.state = .waitHeader)
    {len : Byte} (hlen : s.cfg.maxp ≤ len.toNat) :
    ∃ p, dispatchAll [s.cfg.hdr, dev, sys, msg, seq, len] s = .ok ((s.setBf p).emit (.frameLenAbort len)) ∧
      p.state = .waitHeader ∧ p.payload = s.bf.payload := by
  refine ⟨{ s.bf.atLen s.cfg.hdr dev sys msg seq with
    len := len, csum := (s.bf.atLen s.cfg.hdr dev sys msg seq).csum + len, state := .waitHeader }, ?_, rfl, rfl⟩
  calc dispatchAll ([s.cfg.hdr, dev, sys, msg, seq] ++ [len]) s
      = dispatchAll [len] (s.inFrame (s.bf.atLen s.cfg.hdr dev sys msg seq)) :=
        dispatchAll_append_ok (dispatchAll_frameHead hv hpd hbf dev sys msg seq) [len]
    _ = .ok _ := dispatchAll_cons (dispatchStep_len_tooLong rfl hlen)
    _ = _ := by rw [setPd_eq_self hpd]

end

/-- Bytes fed in two runs. -/
theorem feed_append {row : Byte → Instr} {xs : Bytes} {s t : State} (h : feed row xs s = .next t) (ys : Bytes) :
    feed row (xs ++ ys) s = feed row ys t := by
  induction xs generalizing s with
  | nil => cases h; rfl
  | cons x rest ih =>
    simp only [List.cons_append, feed] at h ⊢
    cases hx : exec (row x) s with
    | next u =>
      rw [hx] at h
      exact ih h
    | fault f | refused r =>
      rw [hx] at h
      cases h

/-! ### The statements -/

/-- Settles O38: FRAME is its bytes through PD.STEP, from `Idle` and `WaitHeader`. -/
theorem frameRoundTrip : Obligations.FrameRoundTrip := by
  intro s dev sys msg seq csum payload h hi hpd hbf hlen
  obtain ⟨p, hrun, hstate, hpayload⟩ := dispatchAll_frameBytes dev sys msg seq csum h hpd hbf hlen
  refine ⟨((s.setBf p).emit _).setResult .none, ?_, rfl, hstate, hpayload⟩
  simp only [exec, execFrame, ready_pd_bf_lp h.cfg_valid hi, guarded_none, hrun, finish_ok]
  rfl

/-- Settles O39: the first six bytes end the frame, and what FRAME feeds behind them is the rest. -/
theorem overlongFrameIsCutAtLen : Obligations.OverlongFrameIsCutAtLen := by
  intro s dev sys msg seq csum payload h hi hpd hbf hmaxp hlen
  have hlong : s.cfg.maxp ≤ (BitVec.ofNat 8 payload.length).toNat := by rwa [toNat_ofNat_length hlen]
  obtain ⟨p, hrun, hstate, hpayload⟩ := dispatchAll_overlong dev sys msg seq h.cfg_valid hpd hbf hlong
  obtain ⟨⟨t, hexec, hfeed⟩, -⟩ := wireUnitsAreTheirBytes s dev sys msg seq csum 0 payload [] h hi
  have hcut := feed_pdStep_of_dispatchAll h hi hrun
  rw [List.append_assoc, feed_append hcut] at hfeed
  exact ⟨_, t, hcut, rfl, hstate, hpayload, hfeed, hexec⟩

end Sys2Proof.Machine
end

section
/-! SUPPORT. Tokenize and Lookup (R164, R165): the split at the first whitespace byte, and the scan for an exact name. -/

namespace Sys2Proof

/-! ### Tokenize (R164) -/

section
variable {isWs : Byte → Bool} {cmd : Bytes}

theorem tokenize_of_no_ws (h : ∀ b ∈ cmd, isWs b = false) : tokenize isWs cmd = (cmd, none) := by
  induction cmd with
  | nil => rfl
  | cons b rest ih =>
    obtain ⟨hb, hrest⟩ := List.forall_mem_cons.1 h
    simp [tokenize, hb, ih hrest]

theorem tokenize_append_ws {w : Byte} (h : ∀ b ∈ cmd, isWs b = false) (hw : isWs w = true) (arg : Bytes) :
    tokenize isWs (cmd ++ w :: arg) = (cmd, some arg) := by
  induction cmd with
  | nil => simp [tokenize, hw]
  | cons b rest ih =>
    obtain ⟨hb, hrest⟩ := List.forall_mem_cons.1 h
    simp [tokenize, hb, ih hrest]

end

/-- A string has no whitespace byte, or a first one. -/
theorem no_ws_or_first_ws (isWs : Byte → Bool) (s : Bytes) :
    (∀ b ∈ s, isWs b = false) ∨
      ∃ cmd w arg, (∀ b ∈ cmd, isWs b = false) ∧ isWs w = true ∧ s = cmd ++ w :: arg := by
  cases h : s.find? isWs with
  | none => exact .inl (by simpa using h)
  | some w =>
    obtain ⟨hw, cmd, arg, hs, hcmd⟩ := List.find?_eq_some_iff_append.1 h
    exact .inr ⟨cmd, w, arg, by simpa using hcmd, hw, hs⟩

/-! ### Lookup (R165) -/

theorem lookup_eq_findIdx? (table : List Bytes) (cmd : Bytes) : lookup table cmd = table.findIdx? (· = cmd) := by
  induction table with
  | nil => rfl
  | cons name rest ih => simp [lookup, List.findIdx?_cons, ih]

theorem lookup_eq_some_iff {table : List Bytes} {cmd : Bytes} {k : Nat} :
    lookup table cmd = some k ↔ table[k]? = some cmd ∧ ∀ j, j < k → table[j]? ≠ some cmd := by
  rw [lookup_eq_findIdx?, List.findIdx?_eq_some_iff_getElem]
  constructor
  · rintro ⟨hk, hname, hleast⟩
    refine ⟨by simpa [List.getElem?_eq_some_iff, hk] using hname, fun j hj => ?_⟩
    have hjk : j < table.length := hj.trans hk
    simpa [List.getElem?_eq_some_iff, hjk] using hleast j hj
  · rintro ⟨hname, hleast⟩
    obtain ⟨hk, hget⟩ := List.getElem?_eq_some_iff.1 hname
    refine ⟨hk, by simpa using hget, fun j hj => ?_⟩
    have hjk : j < table.length := hj.trans hk
    simpa [List.getElem?_eq_some_iff, hjk] using hleast j hj

theorem lookup_eq_none_iff {table : List Bytes} {cmd : Bytes} : lookup table cmd = none ↔ cmd ∉ table := by
  rw [lookup_eq_findIdx?, List.findIdx?_eq_none_iff]
  simp only [decide_eq_false_iff_not]
  exact ⟨fun h hmem => h cmd hmem rfl, fun h name hmem heq => h (heq ▸ hmem)⟩

theorem nodup_of_namesUnique {table : List Bytes} (h : namesUnique table = true) : table.Nodup := by
  induction table with
  | nil => exact List.nodup_nil
  | cons name rest ih =>
    simp only [namesUnique, Bool.and_eq_true, Bool.not_eq_true', List.contains_eq_mem, decide_eq_false_iff_not] at h
    obtain ⟨hfresh, hrest⟩ := h
    exact List.nodup_cons.2 ⟨hfresh, ih hrest⟩

/-! ### The statements -/

/-- Settles O34: a string is whole, or split at its first whitespace byte, and Tokenize gives that. -/
theorem tokenizeSplitsAtFirstWhitespace : Obligations.TokenizeSplitsAtFirstWhitespace := by
  refine fun isWs s cmd arg => ⟨fun htok => ?_, fun ⟨hcmd, harg⟩ => ?_⟩
  · rcases no_ws_or_first_ws isWs s with hnone | ⟨c, w, a, hc, hw, rfl⟩
    · rw [tokenize_of_no_ws hnone] at htok
      cases htok
      exact ⟨hnone, rfl⟩
    · rw [tokenize_append_ws hc hw] at htok
      cases htok
      exact ⟨hc, w, hw, rfl⟩
  · cases arg with
    | none =>
      obtain rfl : s = cmd := harg
      exact tokenize_of_no_ws hcmd
    | some a =>
      obtain ⟨w, hw, rfl⟩ := harg
      exact tokenize_append_ws hcmd hw a

/-- Settles O35: with unique names no position below a name's own holds it. -/
theorem lookupFindsExactName : Obligations.LookupFindsExactName := by
  refine fun table cmd => ⟨fun k => lookup_eq_some_iff, lookup_eq_none_iff, fun huniq k hk => ?_⟩
  refine lookup_eq_some_iff.2 ⟨hk, fun j hj hname => hj.ne ?_⟩
  obtain ⟨hlen, -⟩ := List.getElem?_eq_some_iff.1 hname
  exact (List.getElem?_inj hlen (nodup_of_namesUnique huniq)).1 (hname.trans hk.symm)

end Sys2Proof
end

section
/-! SUPPORT. The line parser's rows (R161 to R163): each is LP.STEP on its byte. -/

namespace Sys2Proof.Machine

section
variable {s t : State} {b : Byte}

/-! ### The rows behind their checks -/

theorem ready_lp (hv : s.cfg.valid = true) (hi : s.inited.lp = true) : ready [.lp] s = none :=
  ready_eq_none.2 ⟨hv, by simp [Inited.has, hi]⟩

theorem exec_lpStep_ok {d : Bool} (hv : s.cfg.valid = true) (hi : s.inited.lp = true)
    (h : lineStep b s = .ok (d, t)) : exec (.lpStep b) s = .next (t.setResult (.done d)) := by
  simp only [exec, execLpStep, ready_lp hv hi, guarded_none, h, finishWith_ok]

/-- The row of a byte's own role is LP.STEP (R163). -/
theorem exec_instr_of_lpRoleAt {r : LpRole} (h : lpRoleAt s b = r) : exec (r.instr b) s = exec (.lpStep b) s := by
  rw [← h]
  exact (byteStepsRunTheirRow s b).2.2.symm

/-- The terminator rows are LP.STEP on CR and on LF. -/
theorem exec_lpTerm {i : Instr} (hi : i = .lpTermCr ∨ i = .lpTermLf) (s : State) :
    ∃ b, isTerm b = true ∧ exec i s = exec (.lpStep b) s := by
  rcases hi with rfl | rfl
  · exact ⟨byteCr, rfl, exec_instr_of_lpRoleAt (r := .cr) rfl⟩
  · exact ⟨byteLf, rfl, exec_instr_of_lpRoleAt (r := .lf) rfl⟩

theorem lpRoleAt_of_not_isTerm (hb : isTerm b = false) :
    lpRoleAt s b = if s.lp.cur < s.cfg.l - 1 then .append else .overflow := by
  obtain ⟨hcr, hlf⟩ := isTerm_false_iff.1 hb
  rw [lpRoleAt, lpRole, if_neg hcr, if_neg hlf]

end

/-! ### The statements -/

/-- Settles O31: both terminators end the line alike, and the event is the executed line's. -/
theorem lpTerminatorRows : Obligations.LpTerminatorRows := by
  intro s i h hi hterm
  obtain ⟨b, hb, hrow⟩ := exec_lpTerm hterm s
  rw [hrow]
  refine ⟨fun hcur => ?_, fun hcur => ?_⟩
  · have hend : lineTerminate s = .ok s := by
      rw [lineTerminate_empty hcur, ← hcur]
      rfl
    exact exec_lpStep_ok h.cfg_valid hi (by rw [lineStep_term hb, hend]; rfl)
  · refine ⟨s.lp.buf.write s.lp.cur byteNul, (tokenize s.cfg.isWs s.lineText).1, (tokenize s.cfg.isWs s.lineText).2,
      rfl, ?_, Memory.read_write h.line_wf _ _⟩
    exact exec_lpStep_ok h.cfg_valid hi (by rw [lineStep_term hb, lineTerminate_exec h hcur]; rfl)

/-- Settles O32: the role is by the cursor, and the row of the byte's role is LP.STEP. -/
theorem lpByteRows : Obligations.LpByteRows := by
  intro s b h hi hcr hlf
  have hb : isTerm b = false := isTerm_false_iff.2 ⟨hcr, hlf⟩
  refine ⟨fun hroom => ⟨_, ?_, Memory.read_write h.line_wf _ _⟩, fun hfull => ?_⟩
  · exact (exec_instr_of_lpRoleAt ((lpRoleAt_of_not_isTerm hb).trans (if_pos hroom))).trans
      (exec_lpStep_ok h.cfg_valid hi (lineStep_append h hb hroom))
  · have hno : ¬ s.lp.cur < s.cfg.l - 1 := hfull.not_lt
    exact (exec_instr_of_lpRoleAt ((lpRoleAt_of_not_isTerm hb).trans (if_neg hno))).trans
      (exec_lpStep_ok h.cfg_valid hi (lineStep_overflow hb hno))

/-- Settles O33: everything LP.STEP can do, behind its check. -/
theorem lpStepResultLaw : Obligations.LpStepResultLaw := by
  intro s b h hi
  obtain ⟨t, es, hstep, hframe, hes, hlegal, hcur, -⟩ := lineStep_spec h b
  have hcfg : t.cfg = s.cfg := by rw [hframe]
  refine ⟨t.setResult (.done (isTerm b)), isTerm b, es, exec_lpStep_ok h.cfg_valid hi hstep, ?_, isTerm_iff,
    Nat.le_sub_one_of_lt (hcfg ▸ hlegal.cur_lt), hes, hcur⟩
  exact congrArg (fun v : State => v.setResult _) hframe

end Sys2Proof.Machine
end

section
/-! SUPPORT. Lines of many bytes (R75, R161, R166): what a run of bytes leaves in the line buffer, fed to LP.STEP or through
PD.STEP, and what the terminator then executes. -/

namespace Sys2Proof.Machine

/-! ### What stays of a long line (R166) -/

/-- The last `m mod L` of `m` bytes: what an empty line holds after them. -/
def lineTail (l : Nat) (bs : Bytes) : Bytes := bs.drop (bs.length - bs.length % l)

theorem length_lineTail (l : Nat) (bs : Bytes) : (lineTail l bs).length = bs.length % l := by
  have hle := Nat.mod_le bs.length l
  rw [lineTail, List.length_drop]
  omega

/-- One more byte is appended, or is the `L`-th and empties the line. -/
theorem lineTail_concat {l : Nat} (hl : 0 < l) (bs : Bytes) (b : Byte) :
    lineTail l (bs ++ [b]) = if bs.length % l + 1 < l then lineTail l bs ++ [b] else [] := by
  have hle := Nat.mod_le bs.length l
  have hlt := Nat.mod_lt bs.length hl
  have hnext : (bs.length + 1) % l = if bs.length % l + 1 < l then bs.length % l + 1 else 0 := by
    split
    · next hroom => rw [Nat.add_mod, Nat.mod_eq_of_lt (a := 1) (by omega), Nat.mod_eq_of_lt hroom]
    · next hfull =>
      obtain hlast : bs.length % l + 1 = l := by omega
      rw [← Nat.mod_add_mod, hlast, Nat.mod_self]
  rw [lineTail, List.length_append, List.length_singleton, hnext]
  split
  · next hroom =>
    rw [Nat.add_sub_add_right, List.drop_append_of_le_length (Nat.sub_le _ _), lineTail]
  · simp

/-- What a terminator executes (R161): a line that holds bytes. -/
def executed (c : Cfg) (text : Bytes) : List Event := if text = [] then [] else [lineEvent c text]

/-- A byte stored right behind the first `k`. -/
theorem Memory.map_read_write_end {m : Memory} (h : m.wf = true) (k : Nat) (b : Byte) :
    (List.range (k + 1)).map (fun a => (m.write k b).read a) = (List.range k).map (fun a => m.read a) ++ [b] := by
  have hbelow : (List.range k).map (fun a => (m.write k b).read a) = (List.range k).map (fun a => m.read a) :=
    List.map_congr_left fun a ha => by rw [Memory.read_write h, if_neg (List.mem_range.1 ha).ne]
  rw [List.range_succ, List.map_append, hbelow]
  simp [Memory.read_write h]

section
variable {s : State} {b : Byte}

@[simp] theorem State.length_lineText (s : State) : s.lineText.length = s.lp.cur := by simp [State.lineText]

theorem State.lineText_eq_nil (h : s.lp.cur = 0) : s.lineText = [] := by simp [State.lineText, h]

/-- The cursor counts the bytes held. -/
theorem State.cur_of_lineText {l : Nat} {bs : Bytes} (h : s.lineText = lineTail l bs) : s.lp.cur = bs.length % l := by
  rw [← State.length_lineText, h, length_lineTail]

/-! ### One byte (R161, R162) -/

theorem Legal.of_lineStep {d : Bool} {t : State} (h : Legal s) (hstep : lineStep b s = .ok (d, t)) : Legal t := by
  obtain ⟨_, u, hspec, hlegal⟩ := lineStep_legal h b
  cases hstep.symm.trans hspec
  exact hlegal

/-- A byte that is no terminator joins the line, or empties a full one. -/
theorem lineStep_byte (h : Legal s) (hb : isTerm b = false) :
    ∃ p, lineStep b s = .ok (false, s.setLp p) ∧ Legal (s.setLp p) ∧
      (s.setLp p).lineText = if s.lp.cur + 1 < s.cfg.l then s.lineText ++ [b] else [] := by
  by_cases hroom : s.lp.cur + 1 < s.cfg.l
  · have happend := lineStep_append h hb (Nat.lt_sub_of_add_lt hroom)
    refine ⟨_, happend, h.of_lineStep happend, ?_⟩
    rw [if_pos hroom]
    exact Memory.map_read_write_end h.line_wf s.lp.cur b
  · have hover := lineStep_overflow (s := s) hb (by omega)
    exact ⟨_, hover, h.of_lineStep hover, by rw [if_neg hroom, State.lineText_eq_nil rfl]⟩

/-- A terminator executes the line and empties it. -/
theorem lineStep_term_executes (h : Legal s) (hb : isTerm b = true) :
    ∃ p, lineStep b s = .ok (true, { s with lp := p, trace := s.trace ++ executed s.cfg s.lineText }) ∧ p.cur = 0 := by
  by_cases hcur : s.lp.cur = 0
  · refine ⟨{ s.lp with cur := 0 }, ?_, rfl⟩
    rw [lineStep_term hb, lineTerminate_empty hcur, executed, if_pos (State.lineText_eq_nil hcur), List.append_nil]
    rfl
  · have hne : s.lineText ≠ [] := fun hnil => hcur (by rw [← State.length_lineText, hnil, List.length_nil])
    refine ⟨{ cur := 0, buf := s.lp.buf.write s.lp.cur byteNul }, ?_, rfl⟩
    rw [lineStep_term hb, lineTerminate_exec h (Nat.pos_of_ne_zero hcur), executed, if_neg hne]
    rfl

/-! ### A run of bytes (R75, R166) -/

/-- A run of bytes given to LP.STEP, from an empty line. -/
theorem feed_lpStep {bs : Bytes} (h : Legal s) (hi : s.inited.lp = true) (hcur : s.lp.cur = 0)
    (hbs : ∀ b ∈ bs, isTerm b = false) :
    ∃ p r, feed .lpStep bs s = .next ((s.setLp p).setResult r) ∧ Legal (s.setLp p) ∧
      (s.setLp p).lineText = lineTail s.cfg.l bs := by
  induction bs using List.reverseRecOn with
  | nil => exact ⟨s.lp, s.result, rfl, h, State.lineText_eq_nil hcur⟩
  | append_singleton bs b ih =>
    obtain ⟨hinit, hb⟩ := List.forall_mem_append.1 hbs
    obtain ⟨p, r, hfeed, hlegal, htext⟩ := ih hinit
    have hlen : p.cur = bs.length % s.cfg.l := State.cur_of_lineText htext
    obtain ⟨q, hstep, hlegal', htext'⟩ :=
      lineStep_byte (hlegal.setResult r) (hb b (List.mem_singleton_self b))
    refine ⟨q, .done false, ?_, hlegal'.of_eq rfl rfl rfl rfl rfl rfl rfl rfl, ?_⟩
    · rw [feed_append hfeed]
      simp only [feed, exec_lpStep_ok (hlegal.setResult r).cfg_valid hi hstep]
      rfl
    · rw [lineTail_concat h.l_pos, ← htext, ← hlen]
      exact htext'

/-- Inside a line a byte goes to the line parser (R124). -/
theorem dispatchStep_inLine (hpd : s.pd.state = .inLineFrame) : dispatchStep b s = backToIdle (lineStep b s) := by
  rw [dispatchStep, pdClassAt_inLine hpd, pdAct]

/-- A run of bytes through PD.STEP inside a line, with room for it. -/
theorem dispatchAll_inLine {bs : Bytes} (h : Legal s) (hpd : s.pd.state = .inLineFrame)
    (hbs : ∀ b ∈ bs, isTerm b = false) (hroom : s.lp.cur + bs.length < s.cfg.l) :
    ∃ p, dispatchAll bs s = .ok (s.setLp p) ∧ Legal (s.setLp p) ∧ (s.setLp p).lineText = s.lineText ++ bs := by
  induction bs generalizing s with
  | nil => exact ⟨s.lp, rfl, h, (List.append_nil _).symm⟩
  | cons b rest ih =>
    obtain ⟨hb, hrest⟩ := List.forall_mem_cons.1 hbs
    rw [List.length_cons] at hroom
    obtain ⟨p, hstep, hlegal, htext⟩ := lineStep_byte h hb
    rw [if_pos (by omega)] at htext
    have hcur : p.cur = s.lp.cur + 1 := by simpa using congrArg List.length htext
    obtain ⟨q, hrun, hlegal', htext'⟩ := ih hlegal hpd hrest (by rw [State.setLp_lp, State.setLp_cfg]; omega)
    refine ⟨q, ?_, hlegal', ?_⟩
    · rw [dispatchAll_cons (by rw [dispatchStep_inLine hpd, hstep, backToIdle_ok, if_neg Bool.false_ne_true])]
      exact hrun
    · rw [List.append_cons, ← htext]
      exact htext'

/-- A line's first byte puts the dispatcher inside the line (R121). -/
theorem dispatchAll_lineStart {bs : Bytes} (hpd : s.pd.state = .idle) (hls : isLineStart b = true) :
    dispatchAll (b :: bs) s = dispatchAll (b :: bs) (s.setPd .inLineFrame) := by
  have hfirst : dispatchStep b s = dispatchStep b (s.setPd .inLineFrame) :=
    (dispatchStep_lineStart hpd hls).trans (dispatchStep_inLine rfl).symm
  rw [dispatchAll, hfirst, dispatchAll]

/-- A whole line that fits, from `Idle`: executed, and everything idle again. -/
theorem dispatchAll_encodeLine {text : Bytes} {term : Byte} (h : Legal s) (hpd : s.pd.state = .idle) (hcur : s.lp.cur = 0)
    (htext : ∀ b ∈ text, isTerm b = false) (hterm : isTerm term = true) (hlen : text.length < s.cfg.l)
    (hfirst : ∀ b, text.head? = some b → isPrintable b = true) :
    ∃ p, dispatchAll (encodeLine text term) s =
      .ok { s with lp := p, trace := s.trace ++ executed s.cfg text } ∧ p.cur = 0 := by
  have henter : dispatchAll (encodeLine text term) s = dispatchAll (encodeLine text term) (s.setPd .inLineFrame) := by
    cases text with
    | nil => exact dispatchAll_lineStart hpd (isLineStart_iff.2 (.inr (isTerm_iff.1 hterm)))
    | cons b rest => exact dispatchAll_lineStart hpd (isLineStart_iff.2 (.inl (hfirst b rfl)))
  obtain ⟨p, hrun, hlegal, hheld⟩ :=
    dispatchAll_inLine (h.setPd .inLineFrame) rfl htext (by rw [State.setPd_lp, hcur, Nat.zero_add]; exact hlen)
  rw [State.lineText_eq_nil (s := s.setPd .inLineFrame) hcur, List.nil_append] at hheld
  obtain ⟨q, hend, hq⟩ := lineStep_term_executes hlegal hterm
  refine ⟨q, ?_, hq⟩
  rw [henter, encodeLine, dispatchAll_append_ok hrun, dispatchAll_cons (by rw [dispatchStep_inLine rfl, hend, backToIdle_ok]),
    dispatchAll, hheld, ← setPd_eq_self hpd]
  rfl

end

/-! ### The statements -/

/-- Settles O36: the run leaves the line's tail, and the terminator executes what is left. -/
theorem lineCursorLaw : Obligations.LineCursorLaw := by
  intro s bs term h hi hcur hbs hterm
  obtain ⟨p, r, hfeed, hlegal, htext⟩ := feed_lpStep h hi hcur hbs
  obtain ⟨q, hend, -⟩ := lineStep_term_executes (hlegal.setResult r) hterm
  refine ⟨_, _, hfeed, State.cur_of_lineText htext, htext, rfl, exec_lpStep_ok h.cfg_valid hi hend, ?_⟩
  change s.trace ++ executed s.cfg (s.setLp p).lineText = _
  rw [htext, executed]
  congr 1
  exact if_congr (by rw [← List.length_eq_zero_iff, length_lineTail]) rfl rfl

/-- Settles O40: LINE is its bytes through PD.STEP, from `Idle` and an empty line. -/
theorem lineIsExecutedWhole : Obligations.LineIsExecutedWhole := by
  intro s text term h hi hpd hcur htext hterm hlen hfirst
  have hpos := h.l_pos
  obtain ⟨p, hrun, hp⟩ := dispatchAll_encodeLine h hpd hcur htext hterm (by omega) hfirst
  refine ⟨State.setResult { s with lp := p, trace := s.trace ++ executed s.cfg text } .none, ?_, hp, rfl⟩
  simp only [exec, execLine, ready_pd_bf_lp h.cfg_valid hi, guarded_none, hrun, finish_ok]

end Sys2Proof.Machine
end

section
/-! SUPPORT. The consumer's own steps (R84, R94, R128, R180, R218): one in closed form, phase by phase. -/

namespace Sys2Proof.Machine

section
variable {s : State} {b : Byte} {n : Nat} {got : Bytes}

/-! ### At the wait (R180, R218) -/

theorem wakeStep_blocked (h : s.dx.wake = false) : wakeStep s = .next s := by simp [wakeStep, h]

theorem wakeStep_awake (h : s.dx.wake = true) : wakeStep s = .next ((wakeUp s).setResult .none) := by simp [wakeStep, h]

theorem consumerStep_waiting (hready : ready [.rb, .dx, .pd, .bf, .lp] s = none) (hphase : s.consumer = .waiting) :
    consumerStep s = wakeStep s := by
  simp only [consumerStep, hphase, hready, guarded_none]

/-! ### In the drain (R128, R180) -/

theorem consumerStep_draining (hready : ready [.rb, .dx, .pd, .bf, .lp] s = none) (hphase : s.consumer = .draining none) :
    consumerStep s = finish .none (drainRead s) := by
  simp only [consumerStep, hphase, hready, guarded_none]

theorem consumerStep_drained (h : Legal s) (hready : ready [.rb, .dx, .pd, .bf, .lp] s = none)
    (hphase : s.consumer = .draining none) (hempty : s.rb.wr = s.rb.rd) :
    consumerStep s = .next ((s.setConsumer .waiting).setResult .none) := by
  rcases ringRead_cases h with ⟨-, hread⟩ | ⟨hne, -⟩
  · rw [consumerStep_draining hready hphase, drainRead, hread, finish_ok]
  · exact absurd hempty hne

theorem consumerStep_holds (h : Legal s) (hready : ready [.rb, .dx, .pd, .bf, .lp] s = none)
    (hphase : s.consumer = .draining none) (hne : s.rb.wr ≠ s.rb.rd) :
    consumerStep s = .next (((s.setRb { s.rb with rd := nextIndex s.cfg.n s.rb.rd }).setConsumer
      (.draining (some (s.rb.data.read s.rb.rd)))).setResult .none) := by
  rcases ringRead_cases h with ⟨hempty, -⟩ | ⟨-, hread⟩
  · exact absurd hempty hne
  · rw [consumerStep_draining hready hphase, drainRead, hread, finish_ok]

theorem consumerStep_held (hready : ready [.rb, .dx, .pd, .bf, .lp] s = none) (hphase : s.consumer = .draining (some b)) :
    consumerStep s = exec (streamInstr b s) (s.setConsumer (.draining none)) := by
  simp only [consumerStep, hphase, hready, guarded_none]

/-- The row of a held byte is PD.STEP on it (R128, R180). -/
theorem exec_streamInstr (b : Byte) (s : State) (c : ConsumerPhase) :
    exec (streamInstr b s) (s.setConsumer c) = exec (.pdStep b) (s.setConsumer c) :=
  exec_instr_of_pdClassAt rfl

/-! ### Inside RB.READ_N (R84, R94) -/

theorem consumerStep_reading (hready : ready [.rb] s = none) (hphase : s.consumer = .reading n got) :
    consumerStep s = finishWith id (readNStep n got s) := by
  simp only [consumerStep, hphase, hready, guarded_none]

theorem consumerStep_takes (h : Legal s) (hready : ready [.rb] s = none) (hphase : s.consumer = .reading (n + 1) got)
    (hne : s.rb.wr ≠ s.rb.rd) :
    consumerStep s = .next (((s.setRb { s.rb with rd := nextIndex s.cfg.n s.rb.rd }).setConsumer
      (.reading n (got ++ [s.rb.data.read s.rb.rd]))).setResult (.read (some (s.rb.data.read s.rb.rd)))) := by
  rcases readNStep_cases h (n + 1) got with ⟨hdone, -⟩ | ⟨m, hm, -, hstep⟩
  · simp [hne] at hdone
  · cases hm
    rw [consumerStep_reading hready hphase, hstep]
    rfl

theorem consumerStep_returns (h : Legal s) (hready : ready [.rb] s = none) (hphase : s.consumer = .reading n got)
    (hdone : n = 0 ∨ s.rb.wr = s.rb.rd) :
    consumerStep s = .next ((s.setConsumer .waiting).setResult (.bytes got)) := by
  rcases readNStep_cases h n got with ⟨-, hstep⟩ | ⟨m, rfl, hne, -⟩
  · rw [consumerStep_reading hready hphase, hstep]
    rfl
  · simp [hne] at hdone

theorem enter_rbReadN (hready : ready [.rb] s = none) :
    enter (.rbReadN n) s = .next ((s.setConsumer (.reading n [])).setResult .none) := by
  simp only [enter, hready, guarded_none, finish_ok]

end

/-! ### The statements -/

theorem State.allInited.parsersInited {s : State} (h : s.allInited) : s.parsersInited := by
  rw [State.allInited] at h
  simp [State.parsersInited, h]

/-- Settles O20: the step takes its item off the schedule, and is the consumer's step in each phase as above. -/
theorem consumerStepEffect : Obligations.ConsumerStepEffect := by
  intro s rest h hi
  refine ⟨fun hsched => ?_, fun n => enter_rbReadN (ready_of_allInited h.cfg_valid hi _)⟩
  let u := s.setSched rest
  have hstep : step s = consumerStep u := step_cons hsched
  have hu : Legal u := h.setSched rest
  have hready (l : List SubBlock) : ready l u = none := ready_of_allInited h.cfg_valid hi l
  rw [hstep]
  refine ⟨fun hphase hwake => ?_, fun hphase hwake => ?_, consumerStep_drained hu (hready _),
    consumerStep_holds hu (hready _), fun b hphase => ?_, fun n got => consumerStep_takes hu (hready _),
    fun n got => consumerStep_returns hu (hready _)⟩
  · exact (consumerStep_waiting (hready _) hphase).trans (wakeStep_blocked hwake)
  · exact (consumerStep_waiting (hready _) hphase).trans (wakeStep_awake hwake)
  · obtain ⟨t, -, hpd, -⟩ := pdStepCompletesWithFrame (u.setConsumer (.draining none)) b (hu.setConsumer _) hi.parsersInited
    exact ⟨t, hpd, (consumerStep_held (hready _) hphase).trans ((exec_streamInstr b u _).trans hpd)⟩

theorem decodeTableWord_eq_some {nbits w : Nat} {i : Instr} (h : decodeTableWord nbits w = some i) :
    (nbits = 8 ∧ w < 256) ∧ i = decodeStream Cfg.cfgT (.dispatcher .idle) (BitVec.ofNat 8 w) := by
  unfold decodeTableWord at h
  split at h
  next hbyte => exact ⟨hbyte, (Option.some.inj h).symm⟩
  · cases h

/-- Settles O48: a placed word is a byte held in `Idle`, with the consumer next on the schedule. -/
theorem stepRunsStreamByte : Obligations.StepRunsStreamByte := by
  intro s hv hi
  refine ⟨fun b rest hsched hphase => ?_, fun nbits w i hcfg hword => ?_⟩
  · rw [step_cons hsched]
    exact consumerStep_held (s := s.setSched rest) (ready_of_allInited hv hi _) hphase
  · obtain ⟨hbyte, rfl⟩ := decodeTableWord_eq_some hword
    let u := (s.setPd .idle).setConsumer (.draining (some (BitVec.ofNat 8 w)))
    have hplaced : s.withFetchWord nbits w = u.setSched (.consumer :: s.sched) := if_pos hbyte
    rw [hplaced, ← hcfg]
    exact consumerStep_held (s := u) (ready_of_allInited hv hi _) rfl

end Sys2Proof.Machine
end

section
/-! SUPPORT. CONS.DRAIN and RB.READ_N, whole and step by step (R94, R180), and a received byte's way to the parsers (R64,
R183). -/

namespace Sys2Proof.Machine

section
variable {s t : State}

/-! ### A run of bytes through PD.STEP, byte by byte (R128) -/

/-- Byte by byte, a run of stream bytes comes to the run all at once; only the result shown at its end is another. -/
theorem feed_pdStep_dispatchAll {bs : Bytes} (h : Legal s) (hi : s.parsersInited) (hrun : dispatchAll bs s = .ok t) :
    ∃ r, feed .pdStep bs s = .next (t.setResult r) := by
  cases bs with
  | nil =>
    cases hrun
    exact ⟨s.result, rfl⟩
  | cons b rest => exact ⟨.none, feed_pdStep_of_dispatchAll h hi hrun⟩

/-- PD.STEP on a run of bytes does not concern the parts it neither reads nor writes. -/
theorem dispatchAll_over_ok {bs : Bytes} (hrun : dispatchAll bs s = .ok t) (r : RingBuffer) (x : Extractor) (f : Inited)
    (c : ConsumerPhase) (v : Result) (sc : List Act) : dispatchAll bs (s.over r x f c v sc) = .ok (t.over r x f c v sc) := by
  rw [dispatchAll_over, hrun]
  rfl

/-! ### CONS.DRAIN as a row (R180, R218) -/

theorem drainCheck_waiting (hready : ready [.rb, .dx, .pd, .bf, .lp] s = none) (hphase : s.consumer = .waiting) :
    drainCheck s = none := by
  rw [drainCheck, hready, Option.none_or, needAtWait, if_pos hphase]

theorem exec_consDrain_blocked (hready : ready [.rb, .dx, .pd, .bf, .lp] s = none) (hphase : s.consumer = .waiting)
    (hwake : s.dx.wake = false) : exec .consDrain s = .next s := by
  simp [exec, execConsDrain, drainCheck_waiting hready hphase, hwake]

/-- What the drain leaves, when PD.STEP on the ring's bytes comes to `t`: the ring empty, the flag cleared, the consumer at its
wait. -/
def State.drained (s t : State) (rest : List Act) : State :=
  t.over { s.rb with rd := s.rb.wr } { s.dx with wake := false } s.inited .waiting .none rest

theorem exec_consDrain_awake (h : Legal s) (hready : ready [.rb, .dx, .pd, .bf, .lp] s = none) (hphase : s.consumer = .waiting)
    (hwake : s.dx.wake = true) (hrun : dispatchAll s.ringContents s = .ok t) :
    exec .consDrain s = .next (s.drained t s.sched) := by
  have hlen : (wakeUp s).ringContents.length < s.cfg.n := by
    rw [State.length_ringContents]
    exact occupancy_lt h.wr_lt h.rd_lt
  obtain ⟨u, hu, hdrain⟩ := drainLoop_spec h.wakeUp hlen
  have hover := dispatchAll_over_ok hrun s.rb { s.dx with wake := false } s.inited (.draining none) s.result s.sched
  obtain rfl : u = t.over s.rb { s.dx with wake := false } s.inited (.draining none) s.result s.sched :=
    Except.ok.inj (hu.symm.trans hover)
  simp only [exec, execConsDrain, drainCheck_waiting hready hphase, guarded_none, hwake, if_true, hdrain, finish_ok]
  rfl

/-! ### The drain step by step (R180) -/

theorem dispatchAll_cons_eq_ok {b : Byte} {bs : Bytes} (h : dispatchAll (b :: bs) s = .ok t) :
    ∃ u, dispatchStep b s = .ok u ∧ dispatchAll bs u = .ok t := by
  unfold dispatchAll at h
  split at h
  · cases h
  next u hu => exact ⟨u, hu, h⟩

/-- One RB.READ and the PD.STEP on the byte it gave. -/
theorem runSteps_drain_byte {b : Byte} {bs : Bytes} {rest : List Act} (h : Legal s) (hi : s.allInited)
    (hphase : s.consumer = .draining none) (hcont : s.ringContents = b :: bs) (hsched : s.sched = .consumer :: .consumer :: rest)
    (hbyte : dispatchStep b s = .ok t) :
    ∃ v, runSteps 2 s = .next v ∧ Legal v ∧ v.ringContents = bs ∧
      v = t.over { s.rb with rd := nextIndex s.cfg.n s.rb.rd } s.dx s.inited (.draining none) .none rest := by
  have hne : s.rb.wr ≠ s.rb.rd := fun he => by simp [(ringContents_eq_nil h.wr_lt h.rd_lt).2 he] at hcont
  -- The state as PD.STEP finds it: the byte is taken from the ring.
  let u : State := s.over { s.rb with rd := nextIndex s.cfg.n s.rb.rd } s.dx s.inited (.draining none) .none rest
  have hu : Legal u := h.released.of_eq rfl rfl rfl rfl rfl rfl rfl rfl
  have hrelease := ringContents_release (t := u) h.wr_lt h.rd_lt hne rfl rfl
  obtain ⟨rfl, rfl⟩ : b = s.rb.data.read s.rb.rd ∧ bs = u.ringContents := by simpa [hcont] using hrelease
  have hover := dispatchStep_over (s.rb.data.read s.rb.rd) s u.rb s.dx s.inited (.draining none) .none rest
  rw [hbyte] at hover
  have hpd := exec_pdStep_ok (s := u) (ready_of_allInited hu.cfg_valid hi _) hover
  have hlegal := (ensures_iff.1 (exec_safe hu _)).2 _ hpd
  obtain ⟨-, -, -, hholds, -⟩ := (consumerStepEffect s (.consumer :: rest) h hi).1 hsched
  -- The state between the two steps: the byte is held.
  let v : State := s.over u.rb s.dx s.inited (.draining (some (s.rb.data.read s.rb.rd))) .none (.consumer :: rest)
  have hv : Legal v := hu.of_eq rfl rfl rfl rfl rfl rfl rfl rfl
  obtain ⟨-, -, -, -, hheld, -⟩ := (consumerStepEffect v rest hv hi).1 rfl
  obtain ⟨w, hw, hstep⟩ := hheld _ rfl
  obtain rfl := Host.Outcome.next.inj (hpd.symm.trans hw)
  refine ⟨_, (runSteps_succ (hholds hphase hne)).trans (runSteps_succ hstep), hlegal, ?_, rfl⟩
  exact State.ringContents_congr (dispatchStep_consumerFrame hbyte).cfg rfl

/-- From inside the drain: one RB.READ and one PD.STEP per byte, and the RB.READ that finds the ring empty. -/
theorem runSteps_draining {bs : Bytes} {rest : List Act} (h : Legal s) (hi : s.allInited) (hphase : s.consumer = .draining none)
    (hcont : s.ringContents = bs) (hsched : s.sched = List.replicate (2 * bs.length + 1) .consumer ++ rest)
    (hrun : dispatchAll bs s = .ok t) :
    runSteps (2 * bs.length + 1) s = .next (t.over { s.rb with rd := s.rb.wr } s.dx s.inited .waiting .none rest) := by
  induction bs generalizing s t with
  | nil =>
    have hempty := (ringContents_eq_nil h.wr_lt h.rd_lt).1 hcont
    obtain ⟨-, -, hdrained, -⟩ := (consumerStepEffect s rest h hi).1 hsched
    cases hrun
    rw [hempty]
    exact runSteps_succ (hdrained hphase hempty)
  | cons b bs ih =>
    obtain ⟨u, hbyte, hbytes⟩ := dispatchAll_cons_eq_ok hrun
    let later := List.replicate (2 * bs.length + 1) Act.consumer ++ rest
    obtain ⟨v, hsteps, hv, hvc, rfl⟩ := runSteps_drain_byte (rest := later) h hi hphase hcont hsched hbyte
    have hrest := ih hv hi rfl hvc rfl (dispatchAll_over_ok hbytes _ _ _ _ _ _)
    rw [List.length_cons, show 2 * (bs.length + 1) + 1 = 2 + (2 * bs.length + 1) by omega, runSteps_add _ hsteps]
    exact hrest

/-! ### RB.READ_N step by step (R94) -/

/-- The state `s` while the consumer is in phase `ph`, with the result `r` shown and the schedule `c`. -/
def State.amidRead (ph : ConsumerPhase) (r : Result) (c : List Act) (s : State) : State :=
  { s with consumer := ph, result := r, sched := c }

/-- RB.READ neither reads nor writes those fields (R92). -/
theorem ringRead_amidRead (s : State) (ph r c) :
    ringRead (s.amidRead ph r c) = (ringRead s).map (fun x => (x.1, x.2.amidRead ph r c)) := by
  rw [ringRead, ringRead, show (s.amidRead ph r c).rb = s.rb from rfl, show (s.amidRead ph r c).cfg = s.cfg from rfl]
  cases ringEmpty s.rb.wr s.rb.rd
  · cases memRead .rb s.cfg.n s.rb.rd s.rb.data <;> rfl
  · rfl

/-- Where these fields stand as they are to be, only the result is to be shown. -/
theorem amidRead_eq_setResult {ph c} (hphase : s.consumer = ph) (hsched : s.sched = c) (r : Result) :
    s.amidRead ph r c = s.setResult r := by
  subst hphase hsched
  rfl

/-- RB.READ_N ended at its first RB.READ, or went on behind it. -/
theorem ringReadN_succ_eq_ok {n : Nat} {bs : Bytes} (h : ringReadN (n + 1) s = .ok (bs, t)) :
    (bs = [] ∧ ringRead s = .ok (none, t)) ∨
      ∃ b rest u, bs = b :: rest ∧ ringRead s = .ok (some b, u) ∧ ringReadN n u = .ok (rest, t) := by
  unfold ringReadN at h
  split at h
  · cases h
  next u hu =>
    cases h
    exact .inl ⟨rfl, hu⟩
  next b u hu =>
    split at h
    · cases h
    next rest v hv =>
      cases h
      exact .inr ⟨b, rest, u, rfl, hu, hv⟩

theorem step_amidRead_reading {n : Nat} {got : Bytes} {r : Result} {rest : List Act} (hready : ready [.rb] s = none) :
    step (s.amidRead (.reading n got) r (.consumer :: rest)) =
      finishWith id (readNStep n got (s.amidRead (.reading n got) r rest)) :=
  consumerStep_reading (s := s.amidRead (.reading n got) r rest) hready rfl

/-- One step for each byte read and one for the return come to RB.READ_N run whole, its bytes included. -/
theorem runSteps_reading {n : Nat} {bs got : Bytes} {r : Result} {rest : List Act} (hready : ready [.rb] s = none)
    (h : ringReadN n s = .ok (bs, t)) :
    runSteps (bs.length + 1) (s.amidRead (.reading n got) r (List.replicate (bs.length + 1) .consumer ++ rest)) =
      .next (t.amidRead .waiting (.bytes (got ++ bs)) rest) := by
  induction n generalizing s bs got r with
  | zero =>
    cases h
    rw [List.append_nil]
    exact runSteps_succ (step_amidRead_reading hready)
  | succ n ih =>
    rcases ringReadN_succ_eq_ok h with ⟨rfl, hread⟩ | ⟨b, bs, u, rfl, hread, hrest⟩
    · rw [List.append_nil]
      refine runSteps_succ ((step_amidRead_reading hready).trans ?_)
      rw [readNStep, ringRead_amidRead, hread]
      rfl
    · let c := List.replicate (bs.length + 1) Act.consumer ++ rest
      have hstep : step (s.amidRead (.reading (n + 1) got) r (.consumer :: c)) =
          .next (u.amidRead (.reading n (got ++ [b])) (.read (some b)) c) := by
        rw [step_amidRead_reading hready, readNStep, ringRead_amidRead, hread]
        rfl
      have hframe := ringRead_consumerFrame hread
      have hready' : ready [.rb] u = none := by rw [ready, hframe.cfg, hframe.inited]; exact hready
      rw [List.append_cons]
      exact (runSteps_succ hstep).trans (ih hready' hrest)

/-! ### The entries -/

theorem step_start_consDrain {rest : List Act} (hphase : s.consumer = .waiting)
    (hsched : s.sched = .start .consumer (encode s.cfg .consDrain) :: rest) : step s = consumerStep (s.setSched rest) := by
  have hdecode : decode s.cfg (encode s.cfg .consDrain) = .ok .consDrain := rfl
  have hcaller : callerCheck .consumer .consDrain (s.setSched rest) = none := rfl
  rw [step_cons hsched, ← enter_consDrain_waiting (s := s.setSched rest) hphase]
  exact startStep_decoded (s := s.setSched rest) hdecode hcaller

theorem step_start_rbReadN {n : Nat} {rest : List Act} (hready : ready [.rb] s = none) (hphase : s.consumer = .waiting)
    (hsched : s.sched = .start .consumer (.readN n) :: rest) :
    step s = .next (s.amidRead (.reading n []) .none rest) := by
  have hcaller : callerCheck .consumer (.rbReadN n) (s.setSched rest) = none := by
    simp [callerCheck, callers, busyCaller, hphase]
  have hdecode : decode (s.setSched rest).cfg (.readN n) = .ok (.rbReadN n) := rfl
  rw [step_cons hsched]
  exact (startStep_decoded hdecode hcaller).trans (enter_rbReadN (s := s.setSched rest) hready)

/-! ### What PD.STEP does not read of the receiver -/

theorem lpAct_setRx (r : LpRole) (b : Byte) (s : State) (x : Receiver) :
    lpAct r b (s.setRx x) = (lpAct r b s).map (fun p => (p.1, p.2.setRx x)) := by
  have hterm : lineTerminate (s.setRx x) = (lineTerminate s).map (State.setRx · x) := by
    by_cases hcur : s.lp.cur = 0
    · rw [lineTerminate_empty hcur, lineTerminate_empty (s := s.setRx x) hcur]
      rfl
    · simp only [lineTerminate, State.setRx_lp, State.setRx_cfg, hcur, if_false]
      cases memWrite .line s.cfg.l s.lp.cur byteNul s.lp.buf with
      | error f => rfl
      | ok m =>
        simp only
        cases memReadUpTo .line s.cfg.l s.lp.cur m <;> rfl
  cases r with
  | cr | lf =>
    simp only [lpAct, hterm]
    cases lineTerminate s <;> rfl
  | append =>
    simp only [lpAct, lineAppend, State.setRx_lp, State.setRx_cfg]
    cases memWrite .line s.cfg.l s.lp.cur b s.lp.buf <;> rfl
  | overflow => rfl

theorem bfAct_setRx (r : BfRole) (b : Byte) (s : State) (x : Receiver) :
    bfAct r b (s.setRx x) = (bfAct r b s).map (fun p => (p.1, p.2.setRx x)) := by
  cases r with
  | payload | payloadLast =>
    simp only [bfAct, payloadStore, State.setRx_bf, State.setRx_cfg]
    cases memWrite .payload s.cfg.maxp s.bf.pcur b s.bf.payload <;> rfl
  | csumMatch =>
    simp only [bfAct, frameDeliver, State.setRx_bf, State.setRx_cfg]
    cases memReadUpTo .payload s.cfg.maxp s.bf.len.toNat s.bf.payload <;> rfl
  | header | other | device | system | msg | seq | tooLong | zero | valid | csumMismatch => rfl

theorem backToIdle_setRx (x : Receiver) (o : Except Fault (Bool × State)) :
    backToIdle (o.map (fun p => (p.1, p.2.setRx x))) = (backToIdle o).map (State.setRx · x) := by
  rcases o with f | ⟨_ | _, u⟩ <;> rfl

theorem pdAct_setRx (r : PdClass) (b : Byte) (s : State) (x : Receiver) :
    pdAct r b (s.setRx x) = (pdAct r b s).map (State.setRx · x) := by
  have hline (u : State) : backToIdle (lineStep b (u.setRx x)) = (backToIdle (lineStep b u)).map (State.setRx · x) :=
    (congrArg backToIdle (lpAct_setRx _ b u x)).trans (backToIdle_setRx x _)
  have hframe (u : State) : backToIdle (frameStep b (u.setRx x)) = (backToIdle (frameStep b u)).map (State.setRx · x) :=
    (congrArg backToIdle (bfAct_setRx _ b u x)).trans (backToIdle_setRx x _)
  cases r with
  | printable | cr | lf => exact hline (s.setPd .inLineFrame)
  | header => exact hframe (s.setPd .inBinaryFrame)
  | noise => rfl
  | inLine => exact hline s
  | inBin => exact hframe s

/-- PD.STEP does not read the receiver. -/
theorem dispatchAll_setRx (bs : Bytes) (s : State) (x : Receiver) :
    dispatchAll bs (s.setRx x) = (dispatchAll bs s).map (State.setRx · x) := by
  induction bs generalizing s with
  | nil => rfl
  | cons b rest ih =>
    have hstep : dispatchStep b (s.setRx x) = (dispatchStep b s).map (State.setRx · x) := pdAct_setRx _ b s x
    simp only [dispatchAll, hstep]
    cases dispatchStep b s with
    | error f => rfl
    | ok t => exact ih t

end

/-! ### The statements -/

/-- Settles O41: the drain loop's PD.STEPs are those of the ring's bytes, whatever ring, flag and phase are meanwhile. -/
theorem consDrainFeedsWholeRing : Obligations.ConsDrainFeedsWholeRing := by
  intro s h hi hphase
  have hready := ready_of_allInited h.cfg_valid hi [.rb, .dx, .pd, .bf, .lp]
  refine ⟨exec_consDrain_blocked hready hphase, fun hwake => ?_⟩
  obtain ⟨t, es, hrun, hframe, -⟩ := dispatchAll_spec h s.ringContents
  obtain ⟨r, hfeed⟩ := feed_pdStep_dispatchAll h hi.parsersInited hrun
  refine ⟨_, _, exec_consDrain_awake h hready hphase hwake hrun, hfeed, ?_⟩
  rw [hframe]
  rfl

/-- Settles O42: each entry leads into the run of steps above, which ends as the row run whole. -/
theorem consumerStepsMakeWholeRuns : Obligations.ConsumerStepsMakeWholeRuns := by
  intro s rest h hi hphase
  have hready (l : List SubBlock) : ready l s = none := ready_of_allInited h.cfg_valid hi l
  refine ⟨fun first hfirst hwake hsched => ?_, fun n hsched => ?_⟩
  · let later := List.replicate (2 * s.ringContents.length + 1) Act.consumer ++ rest
    obtain ⟨t, hrun, -⟩ := dispatchAll_legal h s.ringContents
    have hentry : step s = consumerStep (s.setSched later) := by
      rcases hfirst with rfl | rfl
      · exact step_cons hsched
      · exact step_start_consDrain hphase hsched
    have hwakes := (consumerStep_waiting (s := s.setSched later) (hready _) hphase).trans (wakeStep_awake hwake)
    have hdrain := runSteps_draining (s := (wakeUp (s.setSched later)).setResult .none) ((h.setSched later).wakeUp.setResult _)
      hi rfl rfl rfl (dispatchAll_over_ok hrun s.rb { s.dx with wake := false } s.inited (.draining none) .none later)
    have hwhole := exec_consDrain_awake (h.setSched rest) (hready _) hphase hwake
      (dispatchAll_over_ok hrun s.rb s.dx s.inited s.consumer s.result rest)
    exact ⟨_, (runSteps_succ (hentry.trans hwakes)).trans hdrain, hwhole⟩
  · have hring : (s.setSched rest).inited.rb = true := congrArg Inited.rb hi
    obtain ⟨t, hread, -, hframe, -⟩ := ringReadN_contents (h.setSched rest) n
    have hsteps := runSteps_reading (s := s.setSched rest) (got := []) (r := .none) (rest := rest) (hready _) hread
    have hclosed : t.amidRead .waiting (.bytes (s.ringContents.take n)) rest = t.setResult (.bytes (s.ringContents.take n)) :=
      amidRead_eq_setResult (by rw [hframe]; exact hphase) (by rw [hframe]; rfl) _
    rw [List.length_take] at hsteps
    refine ⟨_, (runSteps_succ (step_start_rbReadN (hready _) hphase hsched)).trans (hsteps.trans (congrArg _ hclosed)), ?_⟩
    exact (exec_rbReadN_eq (h.setSched rest) hring n).trans (congrArg (finishWith .bytes) hread)

/-- Settles O43: the whole window fits into the empty ring, and the drain feeds it to PD.STEP, which does not read the receiver. -/
theorem receivedBytesReachParsers : Obligations.ReceivedBytesReachParsers := by
  intro s p h hi hfree hphase hp hmoved hempty hfits
  obtain ⟨hquiet, hnone⟩ : s.producer = .quiescent ∧ s.reports = [] := by simpa [State.producerQuiet] using hfree
  obtain ⟨t, k, d, hx, hkd, hk, hcont, hdx, hframe, -⟩ :=
    exec_dxExtract_moved h (ready_of_allInited h.cfg_valid hi _) hquiet hp hnone hmoved
  rw [(ringContents_eq_nil h.wr_lt h.rd_lt).2 hempty] at hk hcont
  obtain rfl : k = (s.windowBytes p).length := by simpa [hfits] using hk
  obtain rfl : d = 0 := by simpa [State.windowBytes] using hkd
  have ht : Legal t := (ensures_iff.1 (exec_safe h _)).2 t hx
  have hti : t.allInited := (exec_producerFrame rfl hx).inited.trans hi
  have htphase : t.consumer = .waiting := (exec_producerFrame rfl hx).consumer.trans hphase
  have hwake : t.dx.wake = true := by rw [hdx]
  have hkept : t.dx.drops = s.dx.drops := by
    rw [hdx]
    exact Nat.min_eq_left (Nat.le_sub_one_of_lt h.drops_lt)
  have hbytes : t.ringContents = s.windowBytes p := by simpa using hcont
  obtain ⟨w, hrun, -⟩ := dispatchAll_legal h (s.windowBytes p)
  obtain ⟨r, hfeed⟩ := feed_pdStep_dispatchAll h hi.parsersInited hrun
  have hparts : t = (s.setRx t.rx).over t.rb t.dx s.inited s.consumer .none s.sched := by
    have hrb := congrArg State.rb hframe
    have hrx := congrArg State.rx hframe
    rw [hrb, hrx]
    exact hframe
  have hrx : dispatchAll t.ringContents (s.setRx t.rx) = .ok (w.setRx t.rx) := by
    rw [hbytes, dispatchAll_setRx, hrun]
    rfl
  have hover := dispatchAll_over_ok hrx t.rb t.dx s.inited s.consumer .none s.sched
  rw [← hparts] at hover
  have hdrain := exec_consDrain_awake ht (ready_of_allInited ht.cfg_valid hti _) htphase hwake hover
  exact ⟨t, _, _, hx, hdrain, hfeed, rfl, rfl, rfl, rfl, hkept, rfl⟩

end Sys2Proof.Machine
end

section
/-! SUPPORT. SYS.RESET and the five INITs (R42, R181): each writes its own sub-block, so their order does not matter. -/

namespace Sys2Proof.Machine

/-- The five INITs (R42). -/
def initRows : List Instr := [.rbInit, .dxInit, .pdInit, .bfInit, .lpInit]

/-- What an INIT leaves. -/
def initOf (s : State) : Instr → State
  | .rbInit => (ringInit s).setResult .none
  | .dxInit => (extractorInit s).setResult .none
  | .pdInit => (dispatcherInit s).setResult .none
  | .bfInit => (frameInit s).setResult .none
  | .lpInit => (lineInit s).setResult .none
  | _ => s

section
variable {s : State} {i j : Instr}

theorem mem_initRows : i ∈ initRows ↔ i = .rbInit ∨ i = .dxInit ∨ i = .pdInit ∨ i = .bfInit ∨ i = .lpInit := by
  simp [initRows]

/-- Between quiescent agents every INIT completes (R219). -/
theorem exec_init (hi : i ∈ initRows) (hv : s.cfg.valid = true) (hp : s.producerQuiet = true) (hc : s.consumerQuiet = true) :
    exec i s = .next (initOf s i) := by
  rcases mem_initRows.1 hi with rfl | rfl | rfl | rfl | rfl
  · exact exec_rbInit hv hp hc
  · exact exec_dxInit hv hp
  · exact exec_pdInit hv hc
  · exact exec_bfInit hv hc
  · exact exec_lpInit hv hc

/-- An INIT leaves configuration and agents as they are. -/
theorem initOf_quiet (s : State) (i : Instr) : (initOf s i).cfg = s.cfg ∧ (initOf s i).producerQuiet = s.producerQuiet ∧
    (initOf s i).consumerQuiet = s.consumerQuiet := by
  cases i <;> exact ⟨rfl, rfl, rfl⟩

/-- Two INITs write different sub-blocks, or the same one alike. -/
theorem initOf_comm (hi : i ∈ initRows) (hj : j ∈ initRows) (s : State) :
    initOf (initOf s i) j = initOf (initOf s j) i := by
  rcases mem_initRows.1 hi with rfl | rfl | rfl | rfl | rfl <;>
  rcases mem_initRows.1 hj with rfl | rfl | rfl | rfl | rfl <;>
  rfl

theorem runInstrs_inits_eq {l : List Instr} (hl : ∀ i ∈ l, i ∈ initRows) (hv : s.cfg.valid = true)
    (hp : s.producerQuiet = true) (hc : s.consumerQuiet = true) : runInstrs l s = .next (l.foldl initOf s) := by
  induction l generalizing s with
  | nil => rfl
  | cons i rest ih =>
    obtain ⟨hi, hrest⟩ := List.forall_mem_cons.1 hl
    obtain ⟨hcfg, hprod, hcons⟩ := initOf_quiet s i
    rw [runInstrs, exec_init hi hv hp hc]
    exact ih hrest (hcfg ▸ hv) (hprod.trans hp) (hcons.trans hc)

theorem exec_sysReset (hv : s.cfg.valid = true) (hp : s.producerQuiet = true) (hc : s.consumerQuiet = true) :
    exec .sysReset s = .next (initRows.foldl initOf s) := by
  simp only [exec, execSysReset, ready_init hv, needProducerQuiet_eq_none hp, needConsumerQuiet_eq_none hc, Option.or_none,
    guarded_none, finish_ok]
  rfl

/-- The five INITs leave the reset column (R42), and count what the receiver stored from position 0 (log 7). -/
theorem foldl_initOf (s : State) : initRows.foldl initOf s =
    { s with rb := { s.rb with wr := 0, rd := 0 }, dx := { last := 0, drops := 0, wake := false },
             pd := { state := .idle }, bf := { s.bf with state := .waitHeader, idx := 0 }, lp := { s.lp with cur := 0 },
             rx := { s.rx with unreported := (s.rx.pos + s.cfg.h) % s.cfg.h },
             inited := { rb := true, dx := true, pd := true, bf := true, lp := true }, result := .none } := by
  rw [← Nat.sub_zero (s.rx.pos + s.cfg.h)]
  rfl

end

/-- Settles O44: SYS.RESET is the five INITs in one order, and any two of them may change places. -/
theorem sysResetLeavesResetColumn : Obligations.SysResetLeavesResetColumn := by
  intro s hv hp hc
  refine ⟨_, exec_sysReset hv hp hc, foldl_initOf s, fun l hl => ?_⟩
  have hrows : ∀ i ∈ l, i ∈ initRows := fun i hi => hl.mem_iff.1 hi
  rw [runInstrs_inits_eq hrows hv hp hc]
  exact congrArg _ (hl.foldl_eq' (fun i hi j hj u => initOf_comm (hrows i hi) (hrows j hj) u) s)

end Sys2Proof.Machine
end

section
/-! SUPPORT. No wake-up is lost (R180): what gives the condition `WakeKept`, and every item of the schedule that keeps it. -/

namespace Sys2Proof.Machine

section
variable {s t : State}

/-! ### What gives the condition, and what carries it over a step -/

theorem wakeKept_of_empty (h : t.rb.wr = t.rb.rd) : WakeKept t := fun _ hne => absurd h hne

theorem wakeKept_of_wake (h : t.dx.wake = true) : WakeKept t := fun _ _ => .inl h

theorem wakeKept_of_draining {held : Option Byte} (h : t.consumer = .draining held) : WakeKept t := fun _ _ => .inr ⟨held, h⟩

theorem wakeKept_of_busy (h : t.producer ≠ .quiescent) : WakeKept t := fun hquiet => absurd hquiet h

/-- The result shown is no part of the condition. -/
theorem WakeKept.setResult (h : WakeKept s) (r : Result) : WakeKept (s.setResult r) := h

/-- A step that neither fills an empty ring nor writes the flag keeps the condition, unless it takes the consumer out of its
drain. -/
theorem WakeKept.carry (h : WakeKept s) (hproducer : t.producer = s.producer) (hring : s.rb.wr = s.rb.rd → t.rb.wr = t.rb.rd)
    (hdx : t.dx = s.dx) (hconsumer : ∀ held, s.consumer = .draining held → t.consumer = s.consumer) : WakeKept t := by
  intro hquiet hne
  rcases h (hproducer.symm.trans hquiet) (mt hring hne) with hwake | ⟨held, hheld⟩
  · exact .inl (hdx ▸ hwake)
  · exact .inr ⟨held, (hconsumer held hheld).trans hheld⟩

/-! ### Stream bytes (R121 to R125, R141, R163) -/

/-- What the row of a stream byte leaves alone of all that the condition reads and the consumer may write. -/
structure StreamFrame (s t : State) : Prop where
  rb : t.rb = s.rb
  dx : t.dx = s.dx
  consumer : t.consumer = s.consumer

theorem StreamFrame.setResult (h : StreamFrame s t) (r : Result) : StreamFrame s (t.setResult r) := { h with }

/-- Ring, extractor and consumer are as before where putting them back as they were changes nothing. -/
theorem streamFrame_of_over (h : t = t.over s.rb s.dx s.inited s.consumer s.result s.sched) : StreamFrame s t where
  rb := (congrArg State.rb h).trans rfl
  dx := (congrArg State.dx h).trans rfl
  consumer := (congrArg State.consumer h).trans rfl

theorem State.over_self (s : State) : s.over s.rb s.dx s.inited s.consumer s.result s.sched = s := rfl

theorem lineStep_streamFrame {b : Byte} {d : Bool} (h : lineStep b s = .ok (d, t)) : StreamFrame s t := by
  have hover := lineStep_over b s s.rb s.dx s.inited s.consumer s.result s.sched
  rw [s.over_self, h] at hover
  exact streamFrame_of_over (congrArg Prod.snd (Except.ok.inj hover))

theorem frameStep_streamFrame {b : Byte} {d : Bool} (h : frameStep b s = .ok (d, t)) : StreamFrame s t := by
  have hover := frameStep_over b s s.rb s.dx s.inited s.consumer s.result s.sched
  rw [s.over_self, h] at hover
  exact streamFrame_of_over (congrArg Prod.snd (Except.ok.inj hover))

theorem dispatchAll_streamFrame {bs : Bytes} (h : dispatchAll bs s = .ok t) : StreamFrame s t := by
  have hover := dispatchAll_over bs s s.rb s.dx s.inited s.consumer s.result s.sched
  rw [s.over_self, h] at hover
  exact streamFrame_of_over (Except.ok.inj hover)

theorem dispatchStep_streamFrame {b : Byte} (h : dispatchStep b s = .ok t) : StreamFrame s t :=
  dispatchAll_streamFrame (bs := [b]) (dispatchAll_cons h)

section
variable {check : Option Refusal}

theorem guarded_finish_streamFrame {r : Result} {x : Except Fault State} (hx : ∀ u, x = .ok u → StreamFrame s u)
    (h : guarded check (finish r x) = .next t) : StreamFrame s t := by
  obtain ⟨u, hu, rfl⟩ := finish_eq_next.1 (guarded_eq_next.1 h).2
  exact (hx u hu).setResult r

theorem guarded_finishWith_streamFrame {α : Type} {g : α → Result} {x : Except Fault (α × State)}
    (hx : ∀ a u, x = .ok (a, u) → StreamFrame s u) (h : guarded check (finishWith g x) = .next t) : StreamFrame s t := by
  obtain ⟨a, u, hu, rfl⟩ := finishWith_eq_next.1 (guarded_eq_next.1 h).2
  exact (hx a u hu).setResult (g a)

end

theorem pdRow_streamFrame {r : PdClass} {b : Byte} (h : pdRow r b s = .next t) : StreamFrame s t := by
  obtain rfl : pdClassAt s b = r := by simpa using applies_of_or_needRow (guarded_eq_next.1 h).1
  exact guarded_finish_streamFrame (fun _ => dispatchStep_streamFrame) h

theorem bfRow_streamFrame {r : BfRole} {b : Byte} (h : bfRow r b s = .next t) : StreamFrame s t := by
  obtain rfl : bfRoleAt s b = r := by simpa using applies_of_or_needRow (guarded_eq_next.1 h).1
  exact guarded_finishWith_streamFrame (fun _ _ => frameStep_streamFrame) h

theorem lpRow_streamFrame {r : LpRole} {b : Byte} (h : lpRow r b s = .next t) : StreamFrame s t := by
  obtain rfl : lpRoleAt s b = r := by simpa using applies_of_or_needRow (guarded_eq_next.1 h).1
  exact guarded_finishWith_streamFrame (fun _ _ => lineStep_streamFrame) h

/-- The consumer's rows but RB.READ, RB.READ_N and CONS.DRAIN are rows of stream bytes. -/
theorem exec_streamFrame {i : Instr} (hi : callers i = [.consumer]) (hread : i ≠ .rbRead) (hreadN : ∀ n, i ≠ .rbReadN n)
    (hdrain : i ≠ .consDrain) (h : exec i s = .next t) : StreamFrame s t := by
  cases i with
  | rbRead => exact absurd rfl hread
  | rbReadN n => exact absurd rfl (hreadN n)
  | consDrain => exact absurd rfl hdrain
  | pdStep b => exact guarded_finish_streamFrame (fun _ => dispatchStep_streamFrame) h
  | bfStep b => exact guarded_finishWith_streamFrame (fun _ _ => frameStep_streamFrame) h
  | lpStep b => exact guarded_finishWith_streamFrame (fun _ _ => lineStep_streamFrame) h
  | pdIdlePrintable | pdIdleCr | pdIdleLf | pdIdleHeader | pdIdleNoise | pdInLine | pdInBin => exact pdRow_streamFrame h
  | bfWaitHeaderHdr | bfWaitHeaderOther | bfReadIdsDevice | bfReadIdsSystem | bfReadIdsMsg | bfReadIdsSeq
  | bfReadLenTooLong | bfReadLenZero | bfReadLenValid | bfReadPayloadByte | bfReadPayloadLast
  | bfReadChecksumMatch | bfReadChecksumMismatch => exact bfRow_streamFrame h
  | lpTermCr | lpTermLf | lpByteAppend | lpByteOverflow => exact lpRow_streamFrame h
  | frame | line => exact guarded_finish_streamFrame (fun _ => dispatchAll_streamFrame) h
  | _ => simp [callers] at hi

/-! ### The extractor (R101, R107) -/

/-- An extraction is a no-op or sets the flag. -/
theorem extract_wakes {p : Nat} (h : extract p s = .ok t) : t = s ∨ t.dx.wake = true := by
  by_cases hlast : p = s.dx.last
  · rw [extract_at_last hlast] at h
    cases h
    exact .inl rfl
  · obtain ⟨u, -, rfl⟩ := extract_moved_eq_ok hlast h
    exact .inr rfl

theorem extractAll_wakes {l : List Nat} (h : extractAll l s = .ok t) : t = s ∨ t.dx.wake = true := by
  induction l generalizing s with
  | nil =>
    cases h
    exact .inl rfl
  | cons p rest ih =>
    unfold extractAll at h
    split at h
    · cases h
    next u hu =>
      rcases ih h with rfl | hwake
      · exact extract_wakes hu
      · exact .inr hwake

theorem WakeKept.extractBegin (h : WakeKept s) (p : Nat) : WakeKept (extractBegin p s) := by
  unfold Sys2Proof.Machine.extractBegin
  split
  · exact h
  · exact wakeKept_of_busy (by simp)

theorem WakeKept.reportPosition (h : WakeKept s) (p : Nat) : WakeKept (reportPosition p s) := by
  unfold Sys2Proof.Machine.reportPosition
  split
  · exact h.extractBegin p
  · exact h

/-! ### The ring (R92, R94) -/

/-- Taking bytes keeps the condition: it fills no empty ring. -/
theorem WakeKept.taking (h : WakeKept s) (hs : Legal s) (ht : Legal t)
    (hframe : t = s.setRb { s.rb with rd := t.rb.rd }) {k : Nat} (hcont : t.ringContents = s.ringContents.drop k) : WakeKept t := by
  refine h.carry (by rw [hframe]; rfl) (fun hempty => ?_) (by rw [hframe]; rfl) fun _ _ => by rw [hframe]; rfl
  rw [← ringContents_eq_nil hs.wr_lt hs.rd_lt] at hempty
  rw [← ringContents_eq_nil ht.wr_lt ht.rd_lt, hcont, hempty, List.drop_nil]

theorem WakeKept.ringRead (h : WakeKept s) (hs : Legal s) {o : Option Byte} (hread : ringRead s = .ok (o, t)) : WakeKept t := by
  obtain ⟨u, hu, hul, hframe, hcont, -⟩ := ringRead_contents hs
  obtain ⟨-, rfl⟩ := Prod.mk.inj (Except.ok.inj (hread.symm.trans hu))
  exact h.taking hs hul hframe (hcont.trans List.drop_one.symm)

theorem WakeKept.ringReadN (h : WakeKept s) (hs : Legal s) {k : Nat} {bs : Bytes} (hread : ringReadN k s = .ok (bs, t)) :
    WakeKept t := by
  obtain ⟨u, hu, hul, hframe, hcont, -⟩ := ringReadN_contents hs k
  obtain ⟨-, rfl⟩ := Prod.mk.inj (Except.ok.inj (hread.symm.trans hu))
  exact h.taking hs hul hframe hcont

/-- CONS.DRAIN does nothing without the flag, and empties the ring with it (R180, R218). -/
theorem execConsDrain_wakeKept (h : WakeKept s) (hs : Legal s) (hx : execConsDrain s = .next t) : WakeKept t := by
  obtain ⟨-, hrun⟩ := guarded_eq_next.1 hx
  split at hrun
  · have hlen : (wakeUp s).ringContents.length < s.cfg.n := by
      rw [State.length_ringContents]
      exact occupancy_lt hs.wr_lt hs.rd_lt
    obtain ⟨u, -, hdrain⟩ := drainLoop_spec hs.wakeUp hlen
    rw [hdrain] at hrun
    cases hrun
    exact wakeKept_of_empty rfl
  · cases hrun
    exact h

/-! ### The rows -/

/-- Every row but RB.WRITE, RB.WRITE_N and DX.INIT keeps the condition. -/
theorem exec_wakeKept {i : Instr} (h : WakeKept s) (hs : Legal s) (hwrite : ∀ b, i ≠ .rbWrite b)
    (hwriteN : ∀ bs, i ≠ .rbWriteN bs) (hinit : i ≠ .dxInit) (hx : exec i s = .next t) : WakeKept t := by
  cases i with
  | rbWrite b => exact absurd rfl (hwrite b)
  | rbWriteN bs => exact absurd rfl (hwriteN bs)
  | dxInit => exact absurd rfl hinit
  | rbInit | sysReset =>
    rw [eq_of_guarded_finish hx]
    exact wakeKept_of_empty rfl
  | rbIsEmpty | dxReset | pdInit | bfInit | lpInit | sysRxReinit | frameOk | frameLenAbort | frameCsumFail | lineCmd
  | lineUnknown =>
    rw [eq_of_guarded_finish hx]
    exact h
  | positionReport p =>
    have hseen : WakeKept (positionSeen p s) := h
    rw [eq_of_guarded_finish hx]
    exact hseen.reportPosition p
  | rbRead =>
    obtain ⟨o, u, hu, rfl⟩ := finishWith_eq_next.1 (guarded_eq_next.1 hx).2
    exact (h.ringRead hs hu).setResult _
  | rbReadN n =>
    obtain ⟨bs, u, hu, rfl⟩ := finishWith_eq_next.1 (guarded_eq_next.1 hx).2
    exact (h.ringReadN hs hu).setResult _
  | dxExtract p =>
    obtain ⟨u, hu, rfl⟩ := finish_eq_next.1 (guarded_eq_next.1 hx).2
    rcases extractAll_wakes hu with rfl | hwake
    · exact h
    · exact wakeKept_of_wake hwake
  | consDrain => exact execConsDrain_wakeKept h hs hx
  | _ =>
    have hframe := exec_streamFrame rfl (by simp) (by simp) (by simp) hx
    exact h.carry (exec_consumerFrame rfl hx).producer (fun he => by rw [hframe.rb, he]) hframe.dx fun _ _ => hframe.consumer

/-- The consumer calls RB.READ_N at its wait only (R219 (2)). -/
theorem waiting_of_callerCheck_rbReadN {who : Agent} {n : Nat} (h : callerCheck who (.rbReadN n) s = none) :
    s.consumer = .waiting := by
  by_contra hbusy
  cases who <;> simp [callerCheck, callers, busyCaller, hbusy] at h

theorem wakeStep_wakeKept (h : WakeKept s) (hx : wakeStep s = .next t) : WakeKept t := by
  unfold wakeStep at hx
  split at hx
  · cases hx
    exact wakeKept_of_draining rfl
  · cases hx
    exact h

/-- Entering a row keeps the condition, if RB.READ_N is entered at the wait. -/
theorem enter_wakeKept {i : Instr} (h : WakeKept s) (hs : Legal s) (hwrite : ∀ b, i ≠ .rbWrite b)
    (hwriteN : ∀ bs, i ≠ .rbWriteN bs) (hinit : i ≠ .dxInit) (hreadN : ∀ n, i = .rbReadN n → s.consumer = .waiting)
    (hx : enter i s = .next t) : WakeKept t := by
  unfold enter at hx
  split at hx
  next bs => exact absurd rfl (hwriteN bs)
  next n =>
    rw [eq_of_guarded_finish hx]
    exact h.carry rfl id rfl fun held hheld => by simp [hreadN n rfl] at hheld
  next p =>
    have hseen : WakeKept (positionSeen p s) := h
    rw [eq_of_guarded_finish hx]
    exact hseen.reportPosition p
  · exact wakeStep_wakeKept h (guarded_eq_next.1 hx).2
  · exact exec_wakeKept h hs hwrite hwriteN hinit hx

/-! ### The agents' own steps -/

/-- The producer's step ends an extraction with the flag set, or leaves the producer busy (R101, R107). -/
theorem producerStep_wakeKept (h : WakeKept s) (hwriting : ∀ todo k, s.producer ≠ .writing todo k)
    (hx : producerStep s = .next t) : WakeKept t := by
  unfold producerStep at hx
  split at hx
  next p todo _ =>
    obtain ⟨u, hu, rfl⟩ := finish_eq_next.1 (guarded_eq_next.1 hx).2
    cases todo with
    | nil =>
      cases hu
      exact wakeKept_of_wake rfl
    | cons i rest =>
      obtain ⟨v, -, rfl⟩ := except_map_eq_ok.1 hu
      exact wakeKept_of_busy (by simp)
  next =>
    have hserve := (guarded_eq_next.1 hx).2
    unfold serveReport at hserve
    split at hserve
    next p rest _ =>
      have hrest : WakeKept (s.setReports rest) := h
      cases hserve
      exact hrest.extractBegin p
    · cases hserve
      exact h
  next todo k hphase => exact absurd hphase (hwriting todo k)

/-- The consumer leaves its drain on an empty ring only (R180), and inside RB.READ_N it writes no flag (R94). -/
theorem consumerStep_wakeKept (h : WakeKept s) (hs : Legal s) (hx : consumerStep s = .next t) : WakeKept t := by
  unfold consumerStep at hx
  split at hx
  · exact wakeStep_wakeKept h (guarded_eq_next.1 hx).2
  · obtain ⟨u, hu, rfl⟩ := finish_eq_next.1 (guarded_eq_next.1 hx).2
    rcases ringRead_cases hs with ⟨hempty, hread⟩ | ⟨-, hread⟩
    · rw [drainRead, hread] at hu
      cases hu
      exact wakeKept_of_empty hempty
    · rw [drainRead, hread] at hu
      cases hu
      exact wakeKept_of_draining rfl
  next b _ =>
    have hrow := (guarded_eq_next.1 hx).2
    rw [exec_streamInstr] at hrow
    exact wakeKept_of_draining (exec_streamFrame rfl (by simp) (by simp) (by simp) hrow).consumer
  next left got hphase =>
    obtain ⟨r, u, hu, rfl⟩ := finishWith_eq_next.1 (guarded_eq_next.1 hx).2
    rcases readNStep_cases hs left got with ⟨-, hread⟩ | ⟨n, -, hne, hread⟩
    · rw [hread] at hu
      cases hu
      exact h.carry rfl id rfl fun held hheld => by simp [hphase] at hheld
    · rw [hread] at hu
      cases hu
      exact h.carry rfl (fun hempty => absurd hempty hne) rfl fun held hheld => by simp [hphase] at hheld

/-! ### The items of the schedule -/

theorem perform_wakeKept {a : Act} (h : WakeKept s) (hs : Legal s)
    (hi : ∀ who code i, a = .transact who code ∨ a = .start who code → decode s.cfg code = .ok i →
      (∀ b, i ≠ .rbWrite b) ∧ (∀ bs, i ≠ .rbWriteN bs) ∧ i ≠ .dxInit)
    (hwriting : ∀ todo k, a = .producer → s.producer ≠ .writing todo k) (hx : perform a s = .next t) : WakeKept t := by
  cases a with
  | transact who code =>
    simp only [perform, transactStep] at hx
    split at hx
    · cases hx
    next i hd =>
      obtain ⟨hwrite, hwriteN, hinit⟩ := hi who code i (.inl rfl) hd
      exact exec_wakeKept h hs hwrite hwriteN hinit (guarded_eq_next.1 hx).2
  | start who code =>
    simp only [perform, startStep] at hx
    split at hx
    · cases hx
    next i hd =>
      obtain ⟨hwrite, hwriteN, hinit⟩ := hi who code i (.inr rfl) hd
      obtain ⟨hcaller, henter⟩ := guarded_eq_next.1 hx
      refine enter_wakeKept h hs hwrite hwriteN hinit (fun n hn => ?_) henter
      subst hn
      exact waiting_of_callerCheck_rbReadN hcaller
  | producer => exact producerStep_wakeKept h (fun todo k => hwriting todo k rfl) hx
  | consumer => exact consumerStep_wakeKept h hs hx
  | receive b =>
    obtain ⟨u, hu, rfl⟩ := finish_eq_next.1 (guarded_eq_next.1 hx).2
    obtain ⟨v, hv, -, hframe⟩ := environmentStore_spec hs b
    obtain rfl : u = v := Except.ok.inj (hu.symm.trans hv)
    rw [hframe]
    exact h
  | restart =>
    rw [eq_of_guarded_finish hx]
    exact h

end

/-- Settles O57: every item of the schedule keeps the condition, by what its agent does. -/
theorem noWakeUpIsLost : Obligations.NoWakeUpIsLost := by
  intro s t hs h hstep hi hwriting
  cases hsched : s.sched with
  | nil =>
    rw [step_nil hsched] at hstep
    cases hstep
    exact h
  | cons a rest =>
    rw [step_cons hsched] at hstep
    refine perform_wakeKept (s := s.setSched rest) h (hs.setSched rest) (fun who code i ha => hi who code rest i ?_)
      (fun todo k ha => hwriting rest todo k (ha ▸ hsched)) hstep
    rw [hsched]
    exact ha.imp (congrArg (· :: rest)) (congrArg (· :: rest))

end Sys2Proof.Machine
end

section
/-! SUPPORT. The discipline of R219: which check of a row or of its caller refuses, and with what name; and the EVENT rows
(R14, R200). -/

namespace Sys2Proof.Machine

/-! ### A check that refuses -/

section
variable {check first : Option Refusal} {r : Refusal}

theorem guarded_refused (h : check = some r) (k : Out) : guarded check k = .refused r := by
  rw [h, guarded_some]

/-- The earlier of two checks decides. -/
theorem or_eq_some_of_left (h : check = some r) (later : Option Refusal) : check.or later = some r :=
  Option.or_eq_some_iff.2 (.inl h)

/-- The later of two checks decides where the earlier one passes. -/
theorem or_eq_some_of_right (hpass : first = none) (h : check = some r) : first.or check = some r :=
  Option.or_eq_some_iff.2 (.inr ⟨hpass, h⟩)

end

/-! ### Configuration and initialisation (R219 (1), (6)) -/

section
variable {s : State} {r : Refusal}

theorem ready_of_invalid (hv : s.cfg.valid = false) (l : List SubBlock) : ready l s = some .badConfiguration := by
  simp [ready, hv]

/-- A sub-block that is needed and not initialised: the first such one is named. -/
theorem ready_of_uninitialised {l : List SubBlock} (hv : s.cfg.valid = true) (h : ∃ b ∈ l, s.inited.has b = false) :
    ∃ b ∈ l, s.inited.has b = false ∧ ready l s = some (.uninitialised b) := by
  obtain ⟨b, hb, hflag⟩ := h
  cases hready : ready l s with
  | none => simp [(ready_eq_none.1 hready).2 b hb] at hflag
  | some r =>
    rcases ready_eq_some hready with ⟨hbad, -⟩ | ⟨-, c, hc, hcflag, rfl⟩
    · simp [hv] at hbad
    · exact ⟨c, hc, hcflag, rfl⟩

/-- Every row asks first for what it needs, before quiescence, position, phase or class. -/
theorem exec_refused_of_unready {i : Instr} (h : ready (needs i) s = some r) : exec i s = .refused r := by
  cases i with
  | rbInit | sysReset | dxExtract => exact guarded_refused (or_eq_some_of_left (or_eq_some_of_left h _) _) _
  | dxInit | dxReset | sysRxReinit | pdInit | bfInit | lpInit | consDrain | positionReport
  | pdIdlePrintable | pdIdleCr | pdIdleLf | pdIdleHeader | pdIdleNoise | pdInLine | pdInBin
  | bfWaitHeaderHdr | bfWaitHeaderOther | bfReadIdsDevice | bfReadIdsSystem | bfReadIdsMsg | bfReadIdsSeq
  | bfReadLenTooLong | bfReadLenZero | bfReadLenValid | bfReadPayloadByte | bfReadPayloadLast | bfReadChecksumMatch
  | bfReadChecksumMismatch | lpTermCr | lpTermLf | lpByteAppend | lpByteOverflow =>
    exact guarded_refused (or_eq_some_of_left h _) _
  | _ => exact guarded_refused h _

end

/-- Settles O50: the check that every row makes first refuses, by the configuration or by the sub-block. -/
theorem unreadyIsRefused : Obligations.UnreadyIsRefused := by
  refine fun i s => ⟨fun hv => exec_refused_of_unready (ready_of_invalid hv _), fun hv hneeds => ?_⟩
  obtain ⟨b, hb, hflag, hready⟩ := ready_of_uninitialised hv hneeds
  exact ⟨b, hb, hflag, exec_refused_of_unready hready⟩

/-! ### The EVENT rows (R14, R200) -/

theorem emitRow_eq {s : State} (hv : s.cfg.valid = true) (e : Event) :
    emitRow e s = .next { s with trace := s.trace ++ [e], result := .none } := by
  rw [emitRow, ready_init hv]
  rfl

/-- Settles O46: each EVENT row emits its record. -/
theorem eventRowsAppendToTrace : Obligations.EventRowsAppendToTrace :=
  fun _ _ _ _ _ _ _ _ _ _ _ _ _ hv =>
    ⟨emitRow_eq hv _, emitRow_eq hv _, emitRow_eq hv _, emitRow_eq hv _, emitRow_eq hv _⟩

/-! ### Quiescence (R219 (4), R236) -/

section
variable {s : State} {first : Option Refusal}

theorem producer_not_quiescent (hpass : first = none) (hq : s.producerQuiet = false) :
    first.or (needProducerQuiet s) = some (.notQuiescent .producer) :=
  or_eq_some_of_right hpass (by simp [needProducerQuiet, hq])

theorem consumer_not_quiescent (hpass : first = none) (hq : s.consumerQuiet = false) :
    first.or (needConsumerQuiet s) = some (.notQuiescent .consumer) :=
  or_eq_some_of_right hpass (by simp [needConsumerQuiet, hq])

end

/-- Settles O51: a driver operation that is ready stops at its check of quiescence, the producer's before the consumer's. -/
theorem unquietIsRefused : Obligations.UnquietIsRefused := by
  intro s hv hdx
  have hinit := ready_init hv
  have hready := ready_dx hv hdx
  simp only [List.forall_mem_cons, List.not_mem_nil, false_implies, implies_true, and_true]
  refine ⟨fun hp => ?_, fun hp hc => ?_, fun hc => ?_⟩
  · have hunquiet := producer_not_quiescent hinit hp
    have hunquietDx := producer_not_quiescent hready hp
    exact ⟨guarded_refused (or_eq_some_of_left hunquiet _) _, guarded_refused hunquiet _, guarded_refused hunquietDx _,
      guarded_refused (or_eq_some_of_left hunquiet _) _, guarded_refused hunquietDx _⟩
  · have hproducer : (ready [] s).or (needProducerQuiet s) = none := by
      rw [hinit, needProducerQuiet_eq_none hp, Option.or_none]
    have hunquiet := consumer_not_quiescent hproducer hc
    exact ⟨guarded_refused hunquiet _, guarded_refused hunquiet _⟩
  · have hunquiet := consumer_not_quiescent hinit hc
    exact ⟨guarded_refused hunquiet _, guarded_refused hunquiet _, guarded_refused hunquiet _⟩

/-! ### Callers (R219 (2), (7), R41, R213) -/

section
variable {s : State} {who : Agent} {code : Code} {rest : List Act} {i : Instr}

/-- A decoded item is checked for its caller, and then performed or entered. -/
theorem step_decoded (hsched : s.sched = .transact who code :: rest ∨ s.sched = .start who code :: rest)
    (hd : decode s.cfg code = .ok i) :
    ∃ run ∈ [exec, enter], step s = guarded (callerCheck who i s) (run i (s.setSched rest)) := by
  rcases hsched with hsched | hsched
  · refine ⟨exec, by simp, ?_⟩
    rw [step_cons hsched, perform, transactStep, State.setSched_cfg, hd]
    rfl
  · refine ⟨enter, by simp, ?_⟩
    rw [step_cons hsched, perform, startStep, State.setSched_cfg, hd]
    rfl

theorem step_refused_of_callerCheck {r : Refusal}
    (hsched : s.sched = .transact who code :: rest ∨ s.sched = .start who code :: rest) (hd : decode s.cfg code = .ok i)
    (h : callerCheck who i s = some r) : step s = .refused r := by
  obtain ⟨run, -, hstep⟩ := step_decoded hsched hd
  exact hstep.trans (guarded_refused h _)

theorem callerCheck_outputRecord (hh : who ≠ .handler) (hs : who ≠ .stranger) (hi : callers i = []) :
    callerCheck who i s = some .outputRecord := by
  simp [callerCheck, hh, hs, hi]

theorem callerCheck_wrongAgent (hh : who ≠ .handler) (hs : who ≠ .stranger) (hi : callers i ≠ []) (hwho : who ∉ callers i) :
    callerCheck who i s = some (.wrongAgent who) := by
  simp [callerCheck, hh, hs, hi, hwho]

theorem busyCaller_producer (hi : callers i = [.producer]) (hx : ∀ p, i ≠ .dxExtract p) (hbusy : s.producer ≠ .quiescent) :
    busyCaller .producer i s = true := by
  rcases callers_eq_producer hi with ⟨b, rfl⟩ | ⟨bs, rfl⟩ | ⟨p, rfl⟩
  · exact bne_iff_ne.2 hbusy
  · exact bne_iff_ne.2 hbusy
  · exact absurd rfl (hx p)

theorem busyCaller_consumer (hi : callers i = [.consumer]) (hd : i ≠ .consDrain) (hbusy : s.consumer ≠ .waiting) :
    busyCaller .consumer i s = true := by
  unfold busyCaller
  split
  · simp [callers] at hi
  · simp [callers] at hi
  · exact absurd rfl hd
  · exact bne_iff_ne.2 hbusy

/-- The one agent that may perform a row, inside an operation of its own (log 14). -/
theorem callerCheck_secondContext (hh : who ≠ .handler) (hs : who ≠ .stranger) (hi : callers i = [who])
    (hbusy : busyCaller who i s = true) : callerCheck who i s = some (.secondContext who) := by
  simp [callerCheck, hh, hs, hi, hbusy]

/-- CONS.DRAIN passes the check of its caller and refuses by itself, performed or started. -/
theorem step_consDrain_busy (hsched : s.sched = .transact .consumer code :: rest ∨ s.sched = .start .consumer code :: rest)
    (hd : decode s.cfg code = .ok .consDrain) (hready : ready [.rb, .dx, .pd, .bf, .lp] s = none)
    (hbusy : s.consumer ≠ .waiting) : step s = .refused (.secondContext .consumer) := by
  have hcheck : drainCheck (s.setSched rest) = some (.secondContext .consumer) := or_eq_some_of_right hready (if_neg hbusy)
  have hrefuse : ∀ run ∈ [exec, enter], run .consDrain (s.setSched rest) = .refused (.secondContext .consumer) := by
    simp only [List.forall_mem_cons, List.not_mem_nil, false_implies, implies_true, and_true]
    exact ⟨guarded_refused hcheck _, guarded_refused hcheck _⟩
  obtain ⟨run, hrun, hstep⟩ := step_decoded hsched hd
  exact hstep.trans (hrefuse run hrun)

end

/-- Settles O52: each forbidden caller fails its clause of the caller's check, and a busy consumer the drain's own. -/
theorem forbiddenCallersAreRefused : Obligations.ForbiddenCallersAreRefused := by
  intro s who code rest i hsched hd
  refine ⟨fun hwho => ?_, fun hwho => ?_, fun hh hs hi => ?_, fun hh hs hi hwho => ?_, fun hwho hbusy hi hx => ?_,
    fun hwho hbusy hi hx => ?_, fun hwho hbusy hi hv hinit => ?_⟩
  · subst hwho
    exact step_refused_of_callerCheck hsched hd rfl
  · subst hwho
    exact step_refused_of_callerCheck hsched hd rfl
  · exact step_refused_of_callerCheck hsched hd (callerCheck_outputRecord hh hs hi)
  · exact step_refused_of_callerCheck hsched hd (callerCheck_wrongAgent hh hs hi hwho)
  · subst hwho
    exact step_refused_of_callerCheck hsched hd
      (callerCheck_secondContext (by decide) (by decide) hi (busyCaller_producer hi hx hbusy))
  · subst hwho
    exact step_refused_of_callerCheck hsched hd
      (callerCheck_secondContext (by decide) (by decide) hi (busyCaller_consumer hi hx hbusy))
  · subst hwho hi
    exact step_consDrain_busy hsched hd (ready_of_allInited hv hinit _) hbusy

end Sys2Proof.Machine
end

section
/-! SUPPORT. The INITs and resets once more (R233): each in closed form, and performed twice. -/

namespace Sys2Proof.Machine

/-- The rows R233 names: the five INITs, SYS.RESET and DX.RESET. -/
def resetRows : List Instr := [.rbInit, .dxInit, .pdInit, .bfInit, .lpInit, .sysReset, .dxReset]

/-- What one of them checks first (R219). -/
def resetCheck (s : State) : Instr → Option Refusal
  | .rbInit | .sysReset => ((ready [] s).or (needProducerQuiet s)).or (needConsumerQuiet s)
  | .dxInit => (ready [] s).or (needProducerQuiet s)
  | .dxReset => (ready [.dx] s).or (needProducerQuiet s)
  | _ => (ready [] s).or (needConsumerQuiet s)

/-- What one of them leaves. -/
def resetOf (s : State) : Instr → State
  | .sysReset => initRows.foldl initOf s
  | .dxReset => (extractorReset s).setResult .none
  | i => initOf s i

section
variable {s t : State} {i : Instr}

theorem mem_resetRows : i ∈ resetRows ↔ i ∈ initRows ∨ i = .sysReset ∨ i = .dxReset := by
  simp [resetRows, mem_initRows, or_assoc]

theorem exec_reset (hi : i ∈ resetRows) (s : State) : exec i s = guarded (resetCheck s i) (.next (resetOf s i)) := by
  obtain hi | rfl | rfl := mem_resetRows.1 hi
  · rcases mem_initRows.1 hi with rfl | rfl | rfl | rfl | rfl <;> rfl
  · rfl
  · rfl

/-- A reset changes nothing its own checks read. -/
theorem resetCheck_resetOf (hi : i ∈ resetRows) (s : State) : resetCheck (resetOf s i) i = resetCheck s i := by
  obtain hi | rfl | rfl := mem_resetRows.1 hi
  · rcases mem_initRows.1 hi with rfl | rfl | rfl | rfl | rfl <;> rfl
  · rw [resetOf, foldl_initOf]
    rfl
  · rfl

/-- What a reset writes it writes alike the second time. -/
theorem resetOf_resetOf (hi : i ∈ resetRows) (s : State) : resetOf (resetOf s i) i = resetOf s i := by
  obtain hi | rfl | rfl := mem_resetRows.1 hi
  · rcases mem_initRows.1 hi with rfl | rfl | rfl | rfl | rfl <;> rfl
  · simp only [resetOf, foldl_initOf]
  · rfl

theorem eq_resetOf (hi : i ∈ resetRows) (h : exec i s = .next t) : t = resetOf s i := by
  obtain ⟨-, hnext⟩ := guarded_eq_next.1 ((exec_reset hi s).symm.trans h)
  exact (Host.Outcome.next.inj hnext).symm

theorem exec_resetOf (hi : i ∈ resetRows) (s : State) : exec i (resetOf s i) = exec i s := by
  rw [exec_reset hi, exec_reset hi, resetCheck_resetOf hi, resetOf_resetOf hi]

end

/-- Settles O45: what each row writes is a constant of `resetOf`, and after itself the row answers as it did before. -/
theorem initialisationsAreIdempotent : Obligations.InitialisationsAreIdempotent := by
  intro i s s' t t' hi h h'
  obtain rfl := eq_resetOf hi h
  obtain rfl := eq_resetOf hi h'
  refine ⟨(exec_resetOf hi s).trans h, ?rbInit, ?dxInit, ?pdInit, ?bfInit, ?lpInit, ?dxReset, ?sysReset⟩ <;> rintro rfl
  case rbInit => exact ⟨rfl, rfl, rfl⟩
  case dxInit => exact ⟨rfl, rfl⟩
  case pdInit => exact ⟨rfl, rfl⟩
  case bfInit => exact ⟨rfl, rfl, rfl⟩
  case lpInit => exact ⟨rfl, rfl⟩
  case dxReset => rfl
  case sysReset => simp only [resetOf, foldl_initOf, and_self]

end Sys2Proof.Machine
end

section
/-! SUPPORT. The encodings (30_encoding.md): each of the decoder's readers inverts its format of the encoder, and accepts only
words of well-formed rows. -/

namespace Sys2Proof

/-! ### The ports and the reported position (R81, R82) -/

section
variable {c : Cfg} {nbits w : Nat}

theorem decodeByteOperand_toNat (f : Byte → Instr) (b : Byte) : decodeByteOperand 8 b.toNat f = .ok (f b) := by
  rw [decodeByteOperand, if_neg (by decide), if_neg (Nat.not_le.2 b.isLt), BitVec.ofNat_toNat, BitVec.setWidth_eq]

/-- A position up to `H` fits its POSW bits, so none is refused. -/
theorem decodePosition_of_le {p : Nat} (f : Nat → Instr) (hp : p ≤ c.h) : decodePosition c c.posw p f = .ok (f p) := by
  rw [decodePosition, if_neg (not_not.2 rfl), if_neg (Nat.not_le.2 (Cfg.lt_posw hp)), if_neg (Nat.not_lt.2 hp)]

theorem decodeStrobe_wf {i j : Instr} (hi : i.wf c = true) (h : decodeStrobe nbits w i = .ok j) : j.wf c = true := by
  unfold decodeStrobe at h
  split at h
  · cases h
  · split at h <;> cases h
    exact hi

theorem decodeByteOperand_wf {f : Byte → Instr} {i : Instr} (hf : ∀ b, (f b).wf c = true)
    (h : decodeByteOperand nbits w f = .ok i) : i.wf c = true := by
  unfold decodeByteOperand at h
  split at h
  · cases h
  · split at h <;> cases h
    exact hf _

theorem decodePosition_wf {f : Nat → Instr} {i : Instr} (hf : ∀ p, p ≤ c.h → (f p).wf c = true)
    (h : decodePosition c nbits w f = .ok i) : i.wf c = true := by
  unfold decodePosition at h
  split at h
  · cases h
  · split at h
    · cases h
    · split at h <;> cases h
      next hp => exact hf w (Nat.not_lt.1 hp)

theorem decodePort_wf {p : Port} {i : Instr} (h : decodePort c p nbits w = .ok i) : i.wf c = true := by
  cases p with
  | rbInit | rbRd | rbEmpty | dxInit | dxReset | pdInit | bfInit | lpInit | drain | sysReset | rxReinit =>
    exact decodeStrobe_wf rfl h
  | rbWr | pdByte | bfByte | lpByte => exact decodeByteOperand_wf (fun _ => rfl) h
  | dxEvt => exact decodePosition_wf (fun _ => decide_eq_true) h

end

/-! ### The stream bytes (R76, R78, R79) -/

section
variable {c : Cfg} {b : Byte}

theorem decode_dispatcher {st : PdState} {r : PdClass} (h : pdClass c st b = r) :
    decode c (.stream (.dispatcher st) b) = .ok (r.instr b) := by
  rw [decode, decodeStream, h]

theorem decode_frameParser {st : BfState} {idx : Fin 4} {pcur : Nat} {len csum : Byte} {r : BfRole}
    (h : bfRole c st idx pcur len csum b = r) : decode c (.stream (.frameParser st idx pcur len csum) b) = .ok (r.instr b) := by
  rw [decode, decodeStream, h]

theorem decode_lineParser {cur : Nat} {r : LpRole} (h : lpRole c cur b = r) :
    decode c (.stream (.lineParser cur) b) = .ok (r.instr b) := by
  rw [decode, decodeStream, h]

theorem pdClass_instr_wf {st : PdState} : ((pdClass c st b).instr b).wf c = true := by
  cases st with
  | inLineFrame | inBinaryFrame => rfl
  | idle =>
    rcases Machine.pdClass_idle c b with ⟨hb, h⟩ | ⟨-, h⟩ | ⟨-, h⟩ | ⟨-, -, h⟩ | ⟨hls, hb, h⟩ <;> rw [h]
    · exact hb
    · rfl
    · rfl
    · rfl
    · simp [PdClass.instr, Instr.wf, hls, hb]

theorem bfRole_instr_wf {st : BfState} {idx : Fin 4} {pcur : Nat} {len csum : Byte} :
    ((bfRole c st idx pcur len csum b).instr b).wf c = true := by
  cases st with
  | waitHeader =>
    simp only [bfRole]
    split
    · rfl
    · next hb => exact bne_iff_ne.2 hb
  | readIds => rcases Machine.idRole_cases idx with h | h | h | h <;> simp only [bfRole, h] <;> rfl
  | readLen =>
    simp only [bfRole]
    split
    · assumption
    · next hlen =>
      split
      · rfl
      · next hb => exact Bool.and_eq_true_iff.2 ⟨by simpa using hlen, bne_iff_ne.2 hb⟩
  | readPayload | readChecksum => simp only [bfRole]; split <;> rfl

/-- A byte that ends no line is appended or overflows, by the room left (R79). -/
theorem lpRole_of_not_isTerm {cur : Nat} (hb : isTerm b = false) :
    lpRole c cur b = if cur < c.l - 1 then .append else .overflow := by
  obtain ⟨hcr, hlf⟩ := Machine.isTerm_false_iff.1 hb
  rw [lpRole, if_neg hcr, if_neg hlf]

theorem lpRole_instr_wf {cur : Nat} : ((lpRole c cur b).instr b).wf c = true := by
  cases hb : isTerm b with
  | true => rcases Machine.lpRole_term (c := c) (cur := cur) hb with h | h <;> rw [h] <;> rfl
  | false => rw [lpRole_of_not_isTerm hb]; split <;> simp [LpRole.instr, Instr.wf, hb]

theorem decodeStream_wf {ctx : StreamCtx} : (decodeStream c ctx b).wf c = true := by
  cases ctx with
  | dispatcher => exact pdClass_instr_wf
  | frameParser => exact bfRole_instr_wf
  | lineParser => exact lpRole_instr_wf

end

/-! ### The frame and the line (R71, R75) -/

section
variable {c : Cfg}

/-- LEN says the payload's length, so what follows it splits into the payload and the checksum. -/
theorem decodeFrame_frameBytes {dev sys msg seq csum : Byte} {payload : Bytes} (h : payload.length ≤ 255) :
    decodeFrame c (frameBytes c dev sys msg seq payload csum) = .ok (.frame dev sys msg seq payload csum) := by
  simp [frameBytes, frameBody, decodeFrame, toNat_ofNat_length h]

theorem decodeFrame_wf {bytes : Bytes} {i : Instr} (h : decodeFrame c bytes = .ok i) : i.wf c = true := by
  unfold decodeFrame at h
  split at h
  next hdr dev sys msg seq len rest =>
    split at h
    · cases h
    · split at h <;> cases h
      next hlen =>
        have hbyte := len.isLt
        simp only [Instr.wf, List.length_dropLast, decide_eq_true_eq]
        omega
  next => cases h

theorem decodeLine_encodeLine {text : Bytes} {term : Byte} (htext : ∀ b ∈ text, isTerm b = false) (hterm : isTerm term = true) :
    decodeLine (encodeLine text term) = .ok (.line text term) := by
  simpa [encodeLine, decodeLine, hterm] using htext

theorem decodeLine_wf {bytes : Bytes} {i : Instr} (h : decodeLine bytes = .ok i) : i.wf c = true := by
  unfold decodeLine at h
  split at h
  · cases h
  · next hterm =>
    split at h <;> cases h
    next htext =>
      simp only [Instr.wf, Bool.and_eq_true]
      exact ⟨by simpa using htext, by simpa using hterm⟩

/-- An event record's row has the record's own condition (R146, R203 to R205). -/
theorem Event.instr_wf (e : Event) : e.instr.wf c = e.legal c := by
  cases e <;> rfl

end

/-! ### The statements -/

/-- Settles O2: the code's format names the reader, and what each reader accepts is well formed as above. -/
theorem decodedIsWellFormed : Obligations.DecodedIsWellFormed := by
  intro c code i _ h
  cases code with
  | port => exact decodePort_wf h
  | writeN | readN => cases h; rfl
  | stream => cases h; exact decodeStream_wf
  | wireFrame => exact decodeFrame_wf h
  | wireLine => exact decodeLine_wf h
  | wirePosition => exact decodePosition_wf (fun _ => decide_eq_true) h
  | event e =>
    rw [decode] at h
    split at h <;> cases h
    next he => exact (Event.instr_wf e).trans he

/-- Settles O1: row by row, the reader of the row's format inverts the encoder, and well-formedness is the condition it asks. -/
theorem decodeInvertsEncode : Obligations.DecodeInvertsEncode := by
  intro c i hv hw
  obtain ⟨-, -, hmaxp, -, hl, -⟩ := Machine.Cfg.valid_sizes hv
  cases i with
  | rbInit | rbRead | rbIsEmpty | dxInit | dxReset | pdInit | bfInit | lpInit | consDrain | sysReset | sysRxReinit => rfl
  | rbWriteN | rbReadN => rfl
  | rbWrite b | pdStep b | bfStep b | lpStep b => exact decodeByteOperand_toNat _ b
  | dxExtract p | positionReport p => exact decodePosition_of_le _ (of_decide_eq_true hw)
  | pdIdlePrintable b => exact decode_dispatcher (r := .printable) (Machine.pdClass_idle_of_isPrintable hw)
  | pdIdleCr => exact decode_dispatcher (r := .cr) rfl
  | pdIdleLf => exact decode_dispatcher (r := .lf) rfl
  | pdIdleHeader => exact decode_dispatcher (r := .header) ((Machine.pdClass_idle_header_iff hv).2 rfl)
  | pdIdleNoise b =>
    have hb : isLineStart b = false ∧ b ≠ c.hdr := by simpa [Instr.wf] using hw
    exact decode_dispatcher (r := .noise) (Machine.pdClass_idle_noise_iff.2 hb)
  | pdInLine b => exact decode_dispatcher (r := .inLine) rfl
  | pdInBin b => exact decode_dispatcher (r := .inBin) rfl
  | bfWaitHeaderHdr => exact decode_frameParser (r := .header) (if_pos rfl)
  | bfWaitHeaderOther b => exact decode_frameParser (r := .other) (if_neg (bne_iff_ne.1 hw))
  | bfReadIdsDevice b | bfReadIdsSystem b | bfReadIdsMsg b | bfReadIdsSeq b => rfl
  | bfReadLenTooLong b => exact decode_frameParser (r := .tooLong) (if_pos hw)
  | bfReadLenZero =>
    have hlen : ¬ lenTooLong c.maxp 0 = true := decide_eq_true_iff.not.2 (Nat.not_le.2 hmaxp)
    exact decode_frameParser (r := .zero) ((if_neg hlen).trans (if_pos rfl))
  | bfReadLenValid b =>
    obtain ⟨hlen, hb⟩ := Bool.and_eq_true_iff.1 hw
    exact decode_frameParser (r := .valid) ((if_neg (by simpa using hlen)).trans (if_neg (bne_iff_ne.1 hb)))
  | bfReadPayloadByte b | bfReadPayloadLast b => rfl
  | bfReadChecksumMatch b => exact decode_frameParser (r := .csumMatch) (if_pos (beq_self_eq_true b))
  | bfReadChecksumMismatch b => exact decode_frameParser (r := .csumMismatch) (by simp [bfRole, csumOk])
  | lpTermCr | lpTermLf => rfl
  | lpByteAppend b =>
    exact decode_lineParser (r := .append)
      ((lpRole_of_not_isTerm (by simpa [Instr.wf] using hw)).trans (if_pos (Nat.sub_pos_of_lt hl)))
  | lpByteOverflow b =>
    exact decode_lineParser (r := .overflow)
      ((lpRole_of_not_isTerm (by simpa [Instr.wf] using hw)).trans (if_neg (Nat.lt_irrefl _)))
  | frame => exact decodeFrame_frameBytes (of_decide_eq_true hw)
  | line text term =>
    obtain ⟨htext, hterm⟩ : (∀ b ∈ text, isTerm b = false) ∧ isTerm term = true := by simpa [Instr.wf] using hw
    exact decodeLine_encodeLine htext hterm
  | frameOk | frameLenAbort | frameCsumFail | lineCmd | lineUnknown => exact if_pos hw

/-- Settles O3: a word that the encoder gives a row is read back by O1; the bare word and the line parser's LF are read by
their values. -/
theorem writtenOutWordsDecode : Obligations.WrittenOutWordsDecode := by
  have hread (i : Instr) (hi : i.wf Cfg.cfgT = true) : decode Cfg.cfgT (encode Cfg.cfgT i) = .ok i :=
    decodeInvertsEncode Cfg.cfgT i (by decide) hi
  exact ⟨hread (.rbWrite 0x44) rfl, hread (.dxExtract 16) rfl, hread (.positionReport 7) rfl, hread .sysReset rfl,
    hread (.frame 0x01 0x02 0x51 0x07 [0xAA, 0xBB] 0x67) rfl, hread (.line [0x4C, 0x45, 0x44, 0x20, 0x4F, 0x4E] 0x0D) rfl,
    rfl, hread .bfReadLenZero rfl, decode_lineParser (r := .lf) rfl⟩

end Sys2Proof
end
